-- ==== Sys2Proof/Word.lean ====
section
/-! DEFINITION. The data types of 00_scope.md rules R9 to R11: bytes, words, blocks, columns. -/

namespace Sys2Proof

/-- A byte: 8 bits, a value in 0..255 (R9). -/
abbrev Byte := BitVec 8

/-- A word: 32 bits (R9). Control and status registers and command words have this width. -/
abbrev Word := BitVec 32

/-- A 16-byte block `s[0..15]` (R11): the width of `ST`, `IV`, one round key, one counter. -/
abbrev Block := Vector Byte 16

/-- A column of the state matrix: 4 bytes (R11). -/
abbrev Column := Vector Byte 4

/-- The expanded key `RK[0..NR]`, `NRK` = 8 blocks (R25). -/
abbrev RoundKeys := Vector Block 8

/-- Bytewise exclusive-or of two byte vectors of one length (R9). -/
abbrev xorBytes {n : Nat} (a b : Vector Byte n) : Vector Byte n :=
  Vector.zipWith (· ^^^ ·) a b

end Sys2Proof
end

