-- ==== Sys2Proof/Config.lean ====
section
/-! DEFINITION. The implementation parameters of 00_scope.md rules R5 to R7: the constants the spec
fixes or decides, and the open ones as constants without a body, about which nothing is known but
the laws of rule R7. -/

namespace Sys2Proof.Config

/-- `NB`: bytes in a block (R5). -/
abbrev nb : Nat := 16
/-- `NR`: rounds of the cipher (R5). -/
abbrev nr : Nat := 7
/-- `NRK`: round-key blocks of an expanded key, one initial and one per round (R5). -/
abbrev nrk : Nat := 8
/-- `E_FIXED`: the public exponent that `RSAMK` writes (R5). -/
abbrev eFixed : Nat := 65537
/-- `PAD_BLOCK`: the block size that PKCS7 validation tests (R5). -/
abbrev padBlock : Nat := 16
/-- `KEY_BYTES`, decided 16 (R6, D17). -/
abbrev keyBytes : Nat := 16
/-- `W_MAX`, decided 4 (R6, D21). -/
abbrev wMax : Nat := 4
/-- `BUF_BYTES`, decided 65536 (R6, D4). -/
abbrev bufBytes : Nat := 65536
/-- `BN_BYTES`, decided 512 (R6, D5). -/
abbrev bnBytes : Nat := 512

/-- The direction of `ShiftRows`, `SHIFT_DIR` (R6). -/
inductive ShiftDir where
  | left
  | right
  deriving DecidableEq, Repr

/-- The five cipher constants the spec leaves open (R6), with the laws of R7 and no other property.
The fields' default values serve one purpose, that Lean sees the type is inhabited. No
definition of the model uses them.
R7(d) is the type of `expand`: a function of its two arguments giving `rounds + 1` blocks. -/
structure OpenCipher where
  sbox : Byte → Byte := id
  invSbox : Byte → Byte := id
  mixcol : Column → Column := id
  invMixcol : Column → Column := id
  expand : Vector Byte keyBytes → (rounds : Nat) → Vector Block (rounds + 1) :=
    fun _ rounds => Vector.replicate (rounds + 1) (Vector.replicate 16 0)
  /-- R7(a). -/
  invSbox_sbox : ∀ x, invSbox (sbox x) = x := by intro x; rfl
  /-- R7(b). -/
  invMixcol_mixcol : ∀ c, invMixcol (mixcol c) = c := by intro c; rfl
  /-- R7(c): linear over exclusive-or. -/
  mixcol_xor : ∀ a b, mixcol (xorBytes a b) = xorBytes (mixcol a) (mixcol b) := by
    intro a b; rfl
  deriving Inhabited

/-- A whole cipher configuration: the open constants and the direction of the row rotation. The
block functions take it as an argument, so that a statement can speak of every configuration and a
test can use the candidate `AESP` of R8. -/
structure Cipher extends OpenCipher where
  shiftDir : ShiftDir

/-- `SBOX`, `INV_SBOX`, `MIXCOL`, `INV_MIXCOL`, `EXPAND` of this hardware: OPEN (R6, D19). A free value. -/
opaque openCipher : OpenCipher

/-- The cipher configuration of this hardware: the open constants, rotation to the left (R6, D18). -/
def cipher : Cipher := { openCipher with shiftDir := .left }

/-- Block workers beyond the first. A free value (log entry 5). -/
opaque spareWorkers : Nat

/-- `HW_PAR`: the number of block workers of the instance, OPEN, at least 1 (R6). -/
def hwPar : Nat := spareWorkers + 1

/-- What a byte of `BNDATA`, `IBUF` or `OBUF` reads as while nothing has written it since the last
reset: any byte, the same on repeated reads (R43). A free value of the seed that the last reset left
and of the byte's address (log entry 2). -/
opaque resetByte : (seed : Nat) → (addr : Nat) → Byte

/-- The seed that a reset leaves, a free value of the seed and of the memory contents before it: what
the memories hold after a reset may depend on what they held before, "unchanged" among the
possibilities (R261, log entry 2). -/
opaque reseed : (seed : Nat) → (before : List (Nat × Byte)) → Nat

/-- How many blocks more than one the host puts in a piece of a long buffer. A free value of the number
of the piece (log entry 13). -/
opaque pieceChoice : (piece : Nat) → Nat

/-- The bytes of piece number `piece` of a buffer longer than `BUF_BYTES`: some multiple of 16, from 16 to
`BUF_BYTES` (45_host_software.md R211). -/
def pieceBytes (piece : Nat) : Nat := 16 * (pieceChoice piece % (bufBytes / 16) + 1)

/-- What the host puts where a 32-bit length belongs, in a frame or in a length register, for a byte
string of `2^32` bytes or more: no rule says. A free value of the length (log entry 13). -/
opaque lengthOverflow : (length : Nat) → Word

/-- `KEYGEN_RETRIES`: the host's bound on key generation, OPEN (R6, D34). -/
opaque keygenRetries : Nat

end Sys2Proof.Config
end

