-- ==== Sys2Proof/Syntax.lean ====
section
/-! DEFINITION. The 21 commands of 30_encoding.md rule R91, one constructor per row of the opcode
table. -/

namespace Sys2Proof

/-- A command. Every command names its operands implicitly; `ARK` alone has an operand, the index of
a round key (R90). -/
inductive Instr where
  /-- `NOP` (R136). -/
  | nop
  /-- `SUBB`, SubBytes (R111). -/
  | subb
  /-- `ISUBB`, InvSubBytes (R112). -/
  | isubb
  /-- `SHROW`, ShiftRows (R113). -/
  | shrow
  /-- `ISHROW`, InvShiftRows (R114). -/
  | ishrow
  /-- `MIXC`, MixColumns (R115). -/
  | mixc
  /-- `IMIXC`, InvMixColumns (R116). -/
  | imixc
  /-- `ARK k`, AddRoundKey with `RK[k]` (R117). -/
  | ark (k : Nat)
  /-- `LDKEY`, key expansion into `RK` (R130). -/
  | ldkey
  /-- `ENCB`, encrypt the block in `ST` (R132). -/
  | encb
  /-- `DECB`, decrypt the block in `ST` (R134). -/
  | decb
  /-- `CTR`, counter mode (R144). -/
  | ctr
  /-- `CBCE`, chained-mode encryption (R145). -/
  | cbce
  /-- `CBCD`, chained-mode decryption (R146). -/
  | cbcd
  /-- `BNMUL`, product (R163). -/
  | bnmul
  /-- `BNMOD`, reduction (R164). -/
  | bnmod
  /-- `BNMODEXP`, modular exponentiation (R165). -/
  | bnmodexp
  /-- `BNMODINV`, modular inverse (R166). -/
  | bnmodinv
  /-- `RSAMK`, key derivation from three primes (R181). -/
  | rsamk
  /-- `RSAENC`, public-key encryption (R182). -/
  | rsaenc
  /-- `RSADEC`, private-key decryption (R183). -/
  | rsadec
  deriving DecidableEq, Repr

/-- The table's mnemonic of a command (R91). -/
def Instr.mnemonic : Instr → String
  | .nop => "NOP"
  | .subb => "SUBB"
  | .isubb => "ISUBB"
  | .shrow => "SHROW"
  | .ishrow => "ISHROW"
  | .mixc => "MIXC"
  | .imixc => "IMIXC"
  | .ark _ => "ARK"
  | .ldkey => "LDKEY"
  | .encb => "ENCB"
  | .decb => "DECB"
  | .ctr => "CTR"
  | .cbce => "CBCE"
  | .cbcd => "CBCD"
  | .bnmul => "BNMUL"
  | .bnmod => "BNMOD"
  | .bnmodexp => "BNMODEXP"
  | .bnmodinv => "BNMODINV"
  | .rsamk => "RSAMK"
  | .rsaenc => "RSAENC"
  | .rsadec => "RSADEC"

end Sys2Proof
end

