-- ==== Sys2Proof/Decode.lean ====
section
/-! DEFINITION. Decoding and encoding of the 32-bit command word, 30_encoding.md rules R90 to R95. -/

namespace Sys2Proof

/-- Why a command word is illegal (R93). All three reasons end in one fault, `IllegalCommand`. -/
inductive DecodeError where
  /-- `w[31:11]` is not 0. -/
  | zeroFieldNotZero
  /-- `OP` is not one of the 21 assigned values. -/
  | unassignedOp
  /-- `w[10:8]` is not 0 and `OP` is not that of `ARK`. -/
  | indexFieldNotZero
  deriving DecidableEq, Repr

/-- Field `OP`, `w[7:0]` (R90). -/
def opField (w : Word) : Nat := (w.extractLsb' 0 8).toNat

/-- Field `K`, `w[10:8]` (R90). -/
def kField (w : Word) : Nat := (w.extractLsb' 8 3).toNat

/-- Field `ZERO`, `w[31:11]` (R90). -/
def zeroField (w : Word) : Nat := (w.extractLsb' 11 21).toNat

/-- The commands without an operand, by `OP` (R91). -/
def plainCommand : (op : Nat) → Option Instr
  | 0x00 => some .nop
  | 0x01 => some .subb
  | 0x02 => some .isubb
  | 0x03 => some .shrow
  | 0x04 => some .ishrow
  | 0x05 => some .mixc
  | 0x06 => some .imixc
  | 0x10 => some .ldkey
  | 0x11 => some .encb
  | 0x12 => some .decb
  | 0x20 => some .ctr
  | 0x21 => some .cbce
  | 0x22 => some .cbcd
  | 0x30 => some .bnmul
  | 0x31 => some .bnmod
  | 0x32 => some .bnmodexp
  | 0x33 => some .bnmodinv
  | 0x40 => some .rsamk
  | 0x41 => some .rsaenc
  | 0x42 => some .rsadec
  | _ => none

/-- The decoder, total on 32-bit words; it reads no state (R95). -/
def decode (w : Word) : Except DecodeError Instr :=
  if zeroField w ≠ 0 then .error .zeroFieldNotZero
  else if opField w = 0x07 then .ok (.ark (kField w))
  else match plainCommand (opField w) with
    | none => .error .unassignedOp
    | some i => if kField w ≠ 0 then .error .indexFieldNotZero else .ok i

/-- The `OP` number of a command (R91). -/
def Instr.op : Instr → Nat
  | .nop => 0x00
  | .subb => 0x01
  | .isubb => 0x02
  | .shrow => 0x03
  | .ishrow => 0x04
  | .mixc => 0x05
  | .imixc => 0x06
  | .ark _ => 0x07
  | .ldkey => 0x10
  | .encb => 0x11
  | .decb => 0x12
  | .ctr => 0x20
  | .cbce => 0x21
  | .cbcd => 0x22
  | .bnmul => 0x30
  | .bnmod => 0x31
  | .bnmodexp => 0x32
  | .bnmodinv => 0x33
  | .rsamk => 0x40
  | .rsaenc => 0x41
  | .rsadec => 0x42

/-- The value of the `K` field of a command: the index of `ARK`, 0 for every other (R90). -/
def Instr.index : Instr → Nat
  | .ark k => k
  | .nop | .subb | .isubb | .shrow | .ishrow | .mixc | .imixc => 0
  | .ldkey | .encb | .decb | .ctr | .cbce | .cbcd => 0
  | .bnmul | .bnmod | .bnmodexp | .bnmodinv | .rsamk | .rsaenc | .rsadec => 0

/-- The encoder: `OP` in bits 7:0, `K` in bits 10:8, the rest zero (R90, R91). -/
def encode (i : Instr) : Word := BitVec.ofNat 32 (i.op + 0x100 * i.index)

/-- Column `match` of R91's table, of the row a command stands in. -/
def Instr.rowMatch : Instr → Word
  | .nop => 0x00000000
  | .subb => 0x00000001
  | .isubb => 0x00000002
  | .shrow => 0x00000003
  | .ishrow => 0x00000004
  | .mixc => 0x00000005
  | .imixc => 0x00000006
  | .ark _ => 0x00000007
  | .ldkey => 0x00000010
  | .encb => 0x00000011
  | .decb => 0x00000012
  | .ctr => 0x00000020
  | .cbce => 0x00000021
  | .cbcd => 0x00000022
  | .bnmul => 0x00000030
  | .bnmod => 0x00000031
  | .bnmodexp => 0x00000032
  | .bnmodinv => 0x00000033
  | .rsamk => 0x00000040
  | .rsaenc => 0x00000041
  | .rsadec => 0x00000042

/-- Column `mask` of R91's table, of the row a command stands in. -/
def Instr.rowMask : Instr → Word
  | .ark _ => 0xFFFFF8FF
  | .nop | .subb | .isubb | .shrow | .ishrow | .mixc | .imixc => 0xFFFFFFFF
  | .ldkey | .encb | .decb | .ctr | .cbce | .cbcd => 0xFFFFFFFF
  | .bnmul | .bnmod | .bnmodexp | .bnmodinv | .rsamk | .rsaenc | .rsadec => 0xFFFFFFFF

/-- The command word that the opcode table numbers `w`, of `nbits` bits, every bit above them 0. A
command is the value of one `CMD` write and lies in no memory (R78), so no byte order enters. -/
def tableWord (nbits w : Nat) : Word := BitVec.ofNat 32 (w % 2 ^ nbits)

/-- The command that the decoder reads from a word of the opcode table. -/
def decodeTableWord (nbits w : Nat) : Option Instr :=
  match decode (tableWord nbits w) with
  | .ok i => some i
  | .error _ => none

end Sys2Proof
end

