-- ==== Sys2Proof/Machine/State.lean ====
section
/-! DEFINITION. The architectural state of the engine (10_state.md), the host's bus as the engine sees
it (20_memory.md), the error kinds (60_exceptions.md R231), and the state after reset (R43). -/

namespace Sys2Proof.Machine

/-- The error kinds of R231, in the order of their codes 1 to 9. A command that faults ends in a next
state with `ERR` and one of these in `ERRCODE` (R236). It is no `Outcome.fault`. -/
inductive ErrorKind where
  /-- 1, `LDKEY` with `KEYLEN` other than `KEY_BYTES`. -/
  | keyLengthMismatch
  /-- 2, never by the engine: the host's `removePKCS7Padding` (R233). -/
  | invalidPadding
  /-- 3, a modular inverse of non-coprime operands. -/
  | nonInvertibleModulus
  /-- 4, never by the engine: the host's hex decoder (R233). -/
  | malformedHex
  /-- 5, a `CMD` word that matches no row of the table. -/
  | illegalCommand
  /-- 6, a command that reads `RK` while `KEYVALID` is 0. -/
  | noKey
  /-- 7, a length register outside what the command accepts. -/
  | badLength
  /-- 8, a number outside the range the command needs. -/
  | operandRange
  /-- 9, a result that does not fit its slot. -/
  | capacity
  deriving DecidableEq, Repr

/-- A big-integer slot, 0..9 (R28). -/
abbrev Slot := Fin 10

/-- Slot 0, `A`: first operand, message, ciphertext (R28). -/
abbrev Slot.a : Slot := 0
/-- Slot 1, `B`: second operand, exponent of `BNMODEXP`. -/
abbrev Slot.b : Slot := 1
/-- Slot 2, `M`: modulus of the generic commands. -/
abbrev Slot.m : Slot := 2
/-- Slot 3, `Y`: result. -/
abbrev Slot.y : Slot := 3
/-- Slot 4, `N`: modulus of the key. -/
abbrev Slot.n : Slot := 4
/-- Slot 5, `E`: public exponent. -/
abbrev Slot.e : Slot := 5
/-- Slot 6, `D`: private exponent. -/
abbrev Slot.d : Slot := 6
/-- Slot 7, `P`: prime. -/
abbrev Slot.p : Slot := 7
/-- Slot 8, `Q`: prime. -/
abbrev Slot.q : Slot := 8
/-- Slot 9, `R`: prime. -/
abbrev Slot.r : Slot := 9

/-- The control and status registers of R29. -/
inductive Csr where
  | id
  | cap0
  | cap1
  | ctrl
  | status
  | cmd
  | len
  | keyLen
  | bnLen (s : Slot)
  deriving DecidableEq, Repr

/-- What stands at an offset of the bus window (R61). -/
inductive Place where
  /-- The CSR region, offsets 0x00 to 0xFF, a register there or not. -/
  | csrRegion
  | st (j : Fin 16)
  | iv (j : Fin 16)
  | key (j : Fin 16)
  /-- The part of the `KEY` window at index `KEY_BYTES` and above: reads 0, ignores writes. -/
  | keyTail
  | rk (k : Fin 8) (j : Fin 16)
  /-- A byte of `BNDATA`, `IBUF` or `OBUF`, held in memory at its offset. -/
  | memory
  | unmapped
  deriving DecidableEq, Repr

/-- What the outside world does to the engine in one action: a bus access (R63, R64) or the hard reset
input (R260). -/
inductive HostAction where
  /-- `MemRead(addr, n)`. -/
  | read (addr : Nat) (n : Nat)
  /-- `MemWrite(addr, n, v)`. An 8-bit access carries its byte in `v[7:0]`. -/
  | write (addr : Nat) (n : Nat) (v : Word)
  /-- The hard reset input. -/
  | hardReset
  deriving DecidableEq, Repr

/-- What the engine answers to one access (R63, R64). -/
inductive Response where
  /-- A 32-bit read of a register. -/
  | word (v : Word)
  /-- An 8-bit read. -/
  | byte (v : Byte)
  /-- An admitted write. -/
  | written
  /-- The access was refused and changed nothing (R66). -/
  | busFault
  deriving DecidableEq, Repr

/-- Who moves next: the host with one action, or the engine, which completes the command in flight. A
command takes an unspecified time (R275), so every interleaving of the two is some list of turns. -/
inductive Turn where
  | host (act : HostAction)
  | engine
  deriving DecidableEq, Repr

/-- The byte memories `BNDATA`, `IBUF`, `OBUF`: the bytes written since the last reset, each at its
offset in the bus window, offsets strictly rising. An offset not listed has no value here. -/
abbrev Memory := List Host.Cell

/-- The state of the engine (R20). The last three fields are the model's own. -/
structure State where
  /-- `ST`, the state register (R21). -/
  st : Block
  /-- `IV`, the initialisation-vector register (R23). -/
  iv : Block
  /-- `KEY`, the key register, `KEY_BYTES` bytes (R24). -/
  key : Vector Byte Config.keyBytes
  /-- `RK[0..NR]`, the round-key registers (R25). -/
  rk : RoundKeys
  /-- `KEYVALID` (R25). -/
  keyValid : Bool
  /-- `BNLEN[0..9]`, the byte lengths of the slots (R39). -/
  bnLen : Vector Word 10
  /-- `BNDATA`, `IBUF`, `OBUF` (R26, R27). -/
  mem : Memory
  /-- `CTRL[1]`, `IEN_DONE` (R34). -/
  ienDone : Bool
  /-- `CTRL[2]`, `IEN_ERR` (R34). -/
  ienErr : Bool
  /-- `STATUS[1]`, `DONE` (R35). -/
  done : Bool
  /-- `STATUS[2]`, `ERR` (R35). -/
  err : Bool
  /-- `STATUS[15:8]`, `ERRCODE` (R35). -/
  errCode : Byte
  /-- `LASTCMD`, what a read of `CMD` returns (R36). -/
  lastCmd : Word
  /-- `LEN` (R37). -/
  len : Word
  /-- `KEYLEN` (R38). -/
  keyLen : Word
  /-- The accepted command word while a command is in flight (R41). `BUSY` is 1 exactly then. -/
  inFlight : Option Word
  /-- The turns still to come (the model's own, log entry 1). -/
  agenda : List Turn
  /-- What the last access was answered (the model's own, log entry 1). -/
  response : Option Response
  /-- Which of the open contents the memories took at the last reset (the model's own, log entry 2). -/
  freeSeed : Nat
  deriving DecidableEq, Repr

/-- The reasons a step could stop with a fault. There are none: a command that cannot do what its rule
says ends in a next state with `ERR` set (R236), and a refused access in a next state with the
response `BusFault` (R238). No third outcome exists (R14). -/
inductive Fault where
  deriving DecidableEq, Repr

/-- The reasons a step could be refused. -/
inductive Refusal where
  /-- Raised by `exec` for an instruction without a meaning. No arm does so. Safe. -/
  | notModelled (mnemonic : String)
  /-- Raised by `execArk` for an index above `NR`, a term of `Instr` that no command word encodes
  (R92). No step raises it. Safe. -/
  | illFormedIndex
  deriving DecidableEq, Repr

/-- The state after reset, the table of R43. -/
def State.reset : State where
  st := Vector.replicate 16 0
  iv := Vector.replicate 16 0
  key := Vector.replicate 16 0
  rk := Vector.replicate 8 (Vector.replicate 16 0)
  keyValid := false
  bnLen := Vector.replicate 10 0
  mem := []
  ienDone := false
  ienErr := false
  done := false
  err := false
  errCode := 0
  lastCmd := 0
  len := 0
  keyLen := 0
  inFlight := none
  agenda := []
  response := none
  freeSeed := 0

end Sys2Proof.Machine
end

