-- ==== Sys2Proof/Machine/Ops.lean ====
section
/-! DEFINITION. The named operations: byte memory, the completion of a command, the fault of a command
(`raise`) and the return from it, acceptance's first half, and reset. -/

namespace Sys2Proof.Machine

/-! ### Offsets of the byte memories (20_memory.md R61) -/

/-- Offset of `BNDATA[s][0]`. -/
def bnBase (s : Slot) : Nat := 0x1000 + 0x400 * s.val

/-- Offset of `IBUF[0]`. -/
def ibufBase : Nat := 0x10000

/-- Offset of `OBUF[0]`. -/
def obufBase : Nat := 0x20000

/-- The offsets of `BNDATA`, `IBUF` and `OBUF`: the places that `State.mem` holds. -/
def isMemory (a : Nat) : Bool :=
  (0x1000 ≤ a && a < 0x3800 && (a - 0x1000) % 0x400 < Config.bnBytes) ||
  (0x10000 ≤ a && a < 0x10000 + Config.bufBytes) ||
  (0x20000 ≤ a && a < 0x20000 + Config.bufBytes)

/-! ### Byte memory -/

/-- The byte written at an offset since the last reset, if any. -/
def Memory.read? (m : Memory) (a : Nat) : Option Byte := m.lookup a

/-- Bytes at consecutive offsets, as memory cells. -/
def Memory.cells : (base : Nat) → List Byte → Memory
  | _, [] => []
  | base, v :: vs => (base, v) :: Memory.cells (base + 1) vs

/-- Store bytes at consecutive offsets from `base` on. -/
def Memory.writeRange (m : Memory) (base : Nat) (vs : List Byte) : Memory :=
  m.filter (fun c => c.1 < base) ++ Memory.cells base vs ++
    m.filter (fun c => base + vs.length ≤ c.1)

/-- The canonical form of memory: offsets strictly rise, and each is one of a byte memory. (An offset
not listed has no value, so no entry can equal what an unlisted offset holds.) -/
abbrev Memory.wf (m : Memory) : Prop :=
  m.Pairwise (fun c d => c.1 < d.1) ∧ ∀ c ∈ m, isMemory c.1 = true

/-- One byte of memory: what was last written there, or, where nothing was written since the last
reset, an open value that stays the same until a write (R43). -/
def State.readByte (s : State) (a : Nat) : Byte :=
  (Memory.read? s.mem a).getD (Config.resetByte s.freeSeed a)

/-- `n` bytes of memory from `base` on. -/
def State.readBytes (s : State) (base n : Nat) : List Byte :=
  (List.range n).map (fun j => s.readByte (base + j))

/-- Store bytes in memory from `base` on. -/
def State.writeBytes (s : State) (base : Nat) (vs : List Byte) : State :=
  { s with mem := Memory.writeRange s.mem base vs }

/-! ### Status: completion, fault, return from a fault -/

/-- `BUSY` (R35): a command is in flight. -/
def State.busy (s : State) : Bool := s.inFlight.isSome

/-- The number of an error kind, the value of `ERRCODE` (R231). -/
def ErrorKind.code : ErrorKind → Byte
  | .keyLengthMismatch => 1
  | .invalidPadding => 2
  | .nonInvertibleModulus => 3
  | .malformedHex => 4
  | .illegalCommand => 5
  | .noKey => 6
  | .badLength => 7
  | .operandRange => 8
  | .capacity => 9

/-- A command completes: `BUSY <- 0`, `DONE <- 1` (R36). -/
def complete (s : State) : State := { s with inFlight := none, done := true }

/-- `raise`, the engine's one exception: `BUSY <- 0`, `ERR <- 1`, `ERRCODE` the code, and nothing else
(R236). `DONE` was cleared when the command was accepted. -/
def raise (e : ErrorKind) (s : State) : State :=
  { s with inFlight := none, err := true, errCode := e.code }

/-- A write of `v` to `STATUS`, the return from a fault: bit 1 clears `DONE`, bit 2 clears `ERR` and
`ERRCODE`, other bits do nothing (R240). -/
def clearStatus (v : Word) (s : State) : State :=
  { s with
    done := s.done && !v.getLsbD 1
    err := s.err && !v.getLsbD 2
    errCode := if v.getLsbD 2 then 0 else s.errCode }

/-- The end of a command started in state `s`: all its writes and `DONE`, or the fault and no write
(R36, R236). -/
def conclude (s : State) : Except ErrorKind State → Host.Outcome State Fault Refusal
  | .ok t => .next (complete t)
  | .error e => .next (raise e s)

/-- A check of a command rule: pass, or `raise e`. -/
def require (b : Bool) (e : ErrorKind) : Except ErrorKind Unit :=
  if b then .ok () else .error e

/-! ### Reset -/

/-- The effect of either reset (R261, R262): the state of R43. The turns to come are not the engine's;
the memories take new open contents. -/
def resetState (s : State) : State :=
  { State.reset with
    agenda := s.agenda
    freeSeed := Config.reseed s.freeSeed s.mem }

end Sys2Proof.Machine
end

