-- ==== Sys2Proof/Machine/Flags.lean ====
section
/-! DEFINITION. The status and control words as the host reads them, the constant registers, and the
interrupt output: 10_state.md rules R31 to R35, R42. The engine has no condition codes (R40). -/

namespace Sys2Proof.Machine

/-- `STATUS` (R35): `BUSY`, `DONE`, `ERR`, `KEYVALID` in bits 0 to 3, `ERRCODE` in bits 15:8, the
reserved bits 0. -/
def statusWord (s : State) : Word :=
  (0#16 ++ s.errCode ++ 0#4 ++ BitVec.ofBool s.keyValid ++ BitVec.ofBool s.err ++
    BitVec.ofBool s.done ++ BitVec.ofBool s.busy : BitVec 32)

/-- `CTRL` (R34): `SRST` reads 0, `IEN_DONE` and `IEN_ERR` in bits 1 and 2, the reserved bits 0. -/
def ctrlWord (s : State) : Word :=
  (0#29 ++ BitVec.ofBool s.ienErr ++ BitVec.ofBool s.ienDone ++ 0#1 : BitVec 32)

/-- `ID` (R31). -/
def idWord : Word := 0x4D415201

/-- `CAP0` of an instance with `hwPar` block workers (R32). -/
def cap0Word (hwPar : Nat) : Word :=
  BitVec.ofNat 32 (Config.nr + Config.keyBytes * 2 ^ 8 + Config.nb * 2 ^ 16 + Config.wMax * 2 ^ 24 +
    min hwPar 15 * 2 ^ 28)

/-- `CAP1` (R33). -/
def cap1Word : Word := BitVec.ofNat 32 (Config.bnBytes + Config.bufBytes / 16 * 2 ^ 16)

/-- The interrupt output (R42, R239): level, a function of four bits. -/
def irq (s : State) : Bool := (s.done && s.ienDone) || (s.err && s.ienErr)

end Sys2Proof.Machine
end

