-- ==== Sys2Proof/Machine/Operands.lean ====
section
/-! DEFINITION. Operand forms: byte strings as numbers (00_scope.md R10), blocks of a buffer
(20_memory.md R79), slots as numbers (43_bigint.md R160, R161), and the address map (20_memory.md
R61). -/

namespace Sys2Proof.Machine

/-! ### Byte strings and natural numbers (R10) -/

/-- `be_nat(s)`: the big-endian value of a byte string; the empty string is 0. -/
def beNat (bs : List Byte) : Nat := bs.foldl (fun v b => v * 256 + b.toNat) 0

/-- The digits of `v` to the base 256 in front of `acc`, most significant first, in at most `fuel`
digits. -/
def beDigits : (fuel : Nat) → (v : Nat) → (acc : List Byte) → List Byte
  | 0, _, acc => acc
  | fuel + 1, v, acc =>
    if v = 0 then acc else beDigits fuel (v / 256) (BitVec.ofNat 8 v :: acc)

/-- `be_bytes(v)`: the canonical encoding, without a leading zero byte, empty for 0. -/
def beBytes (v : Nat) : List Byte := beDigits v v []

/-- `be_fixed(v, n)`: the `n`-byte string with value `v`, for `v < 256^n`. -/
def beFixed : (v n : Nat) → List Byte
  | _, 0 => []
  | v, n + 1 => beFixed (v / 256) n ++ [BitVec.ofNat 8 v]

/-- `bitlen(v)`. -/
def bitLen (v : Nat) : Nat := if v = 0 then 0 else Nat.log2 v + 1

/-- `ceil16(n)` (R9). -/
def ceil16 (n : Nat) : Nat := (n + 15) / 16

/-- The first 16 bytes of a byte string as a block; bytes that are not there are 0. -/
def blockOf (bs : List Byte) : Block := Vector.ofFn fun j : Fin 16 => bs.getD j.val 0

/-! ### Buffers (R79) -/

/-- Block `i` of `IBUF`, bytes `16i .. 16i+15`. -/
def ibufBlock (s : State) (i : Nat) : Block :=
  Vector.ofFn fun j : Fin 16 => s.readByte (ibufBase + 16 * i + j.val)

/-! ### Slots as numbers (R160, R161) -/

/-- The value of a source slot, or `BadLength` when `BNLEN[s] > BN_BYTES` (R160). -/
def readSlot (s : State) (i : Slot) : Except ErrorKind Nat :=
  if (s.bnLen[i]).toNat ≤ Config.bnBytes then
    .ok (beNat (s.readBytes (bnBase i) (s.bnLen[i]).toNat))
  else .error .badLength

/-- `BN[i] <- v`: the canonical encoding, its length in `BNLEN[i]`, zero bytes up to `BN_BYTES`; or
`Capacity` when the encoding is longer (R161). -/
def writeSlot (s : State) (i : Slot) (v : Nat) : Except ErrorKind State :=
  if (beBytes v).length ≤ Config.bnBytes then
    .ok { s with
      bnLen := s.bnLen.set i (BitVec.ofNat 32 (beBytes v).length)
      mem := Memory.writeRange s.mem (bnBase i)
        (beBytes v ++ List.replicate (Config.bnBytes - (beBytes v).length) 0) }
  else .error .capacity

/-! ### The address map (R61) -/

/-- The byte index of an offset in its 16-byte row of the window: every 16-byte register starts at a
multiple of 16. -/
def byteIndex (a : Nat) : Fin 16 := ⟨a % 16, Nat.mod_lt _ (by decide)⟩

/-- The round key of an offset in `RK`: `RK[0]` starts at 0x200, a multiple of 128. -/
def roundIndex (a : Nat) : Fin 8 := ⟨a / 16 % 8, Nat.mod_lt _ (by decide)⟩

/-- What stands at an offset of the bus window. -/
def place (a : Nat) : Place :=
  if a < 0x100 then .csrRegion
  else if a < 0x110 then .st (byteIndex a)
  else if a < 0x120 then .iv (byteIndex a)
  else if a < 0x140 then .unmapped
  else if a < 0x140 + Config.keyBytes then .key (byteIndex a)
  else if a < 0x180 then .keyTail
  else if a < 0x200 then .unmapped
  else if a < 0x280 then .rk (roundIndex a) (byteIndex a)
  else if isMemory a then .memory
  else .unmapped

/-- The register at an offset of the CSR region (R29), if there is one. -/
def csrAt (a : Nat) : Option Csr :=
  if a = 0x00 then some .id
  else if a = 0x04 then some .cap0
  else if a = 0x08 then some .cap1
  else if a = 0x0C then some .ctrl
  else if a = 0x10 then some .status
  else if a = 0x14 then some .cmd
  else if a = 0x18 then some .len
  else if a = 0x1C then some .keyLen
  else if h : 0x40 ≤ a ∧ a < 0x68 ∧ a % 4 = 0 then some (.bnLen ⟨(a - 0x40) / 4, by omega⟩)
  else none

end Sys2Proof.Machine
end

