-- ==== Sys2Proof/Machine/Bus.lean ====
section
/-! DEFINITION. The host's accesses, 20_memory.md rules R63 to R68 and 10_state.md rules R29 to R39: which
are refused, what a read returns, what a write does; the acceptance of a command (R36); the two
resets. -/

namespace Sys2Proof.Machine

/-! ### Refusal (R66) -/

/-- The width and alignment of R65: 32 bits at a multiple of 4 in the CSR region, 8 bits elsewhere. -/
def widthFits (a n : Nat) : Bool :=
  match place a with
  | .csrRegion => n == 4 && a % 4 == 0
  | .st _ | .iv _ | .key _ | .keyTail | .rk _ _ | .memory | .unmapped => n == 1

/-- Something stands at the offset: a byte of a region, or in the CSR region a register (R61, R29). -/
def isMapped (a : Nat) : Bool :=
  match place a with
  | .csrRegion => (csrAt a).isSome
  | .st _ | .iv _ | .key _ | .keyTail | .rk _ _ | .memory => true
  | .unmapped => false

/-- The writes to registers that R67 forbids while a command is in flight. -/
def Csr.writeLockedByBusy : Csr → Bool
  | .cmd | .len | .keyLen | .bnLen _ => true
  | .id | .cap0 | .cap1 | .ctrl | .status => false

/-- The accesses that R67 forbids while a command is in flight: every byte region, and writes to some
registers. -/
def lockedByBusy (a : Nat) (isWrite : Bool) : Bool :=
  match place a with
  | .csrRegion => isWrite && (csrAt a).any Csr.writeLockedByBusy
  | .st _ | .iv _ | .key _ | .keyTail | .rk _ _ | .memory | .unmapped => true

/-- The access is refused with `BusFault`: the five conditions of R66, in its order. -/
def busRefuses (s : State) (a n : Nat) (isWrite : Bool) : Bool :=
  decide (0x30000 ≤ a) || !widthFits a n || !isMapped a || (s.busy && lockedByBusy a isWrite) ||
    (isWrite && s.err && csrAt a == some .cmd)

/-! ### Reads (R63): no read changes any state (R68) -/

/-- The value of a register (R29 to R39). -/
def csrRead (s : State) : Csr → Word
  | .id => idWord
  | .cap0 => cap0Word Config.hwPar
  | .cap1 => cap1Word
  | .ctrl => ctrlWord s
  | .status => statusWord s
  | .cmd => s.lastCmd
  | .len => s.len
  | .keyLen => s.keyLen
  | .bnLen i => s.bnLen[i]

/-- What an admitted read of an offset returns. -/
def readPlace (s : State) (a : Nat) : Response :=
  match place a with
  | .csrRegion =>
    match csrAt a with
    | some r => .word (csrRead s r)
    | none => .busFault
  | .st j => .byte s.st[j]
  | .iv j => .byte s.iv[j]
  | .key j => .byte s.key[j]
  | .keyTail => .byte 0
  | .rk k j => .byte s.rk[k][j]
  | .memory => .byte (s.readByte a)
  | .unmapped => .busFault

/-! ### Writes (R64) -/

/-- Acceptance of a command word (R36 (b)): `LASTCMD <- w`, `DONE <- 0`, and then either `BUSY <- 1`
or, for an illegal word, the fault `IllegalCommand` at once (R93). -/
def accept (w : Word) (s : State) : State :=
  match decode w with
  | .ok _ => { s with lastCmd := w, done := false, inFlight := some w }
  | .error _ => raise .illegalCommand { s with lastCmd := w, done := false }

/-- A write to `CTRL` (R34): with `SRST` a reset, whatever the other bits; else the two enables. -/
def writeCtrl (v : Word) (s : State) : State :=
  if v.getLsbD 0 then resetState s
  else { s with ienDone := v.getLsbD 1, ienErr := v.getLsbD 2 }

/-- An admitted write to a register. Read-only registers ignore it (R30). -/
def csrWrite (s : State) (v : Word) : Csr → State
  | .id => s
  | .cap0 => s
  | .cap1 => s
  | .ctrl => writeCtrl v s
  | .status => clearStatus v s
  | .cmd => accept v s
  | .len => { s with len := v }
  | .keyLen => { s with keyLen := v }
  | .bnLen i => { s with bnLen := s.bnLen.set i v }

/-- An admitted write to an offset. `RK` and the tail of the `KEY` window ignore it (R24, R25). -/
def writePlace (s : State) (a : Nat) (v : Word) : State :=
  let b : Byte := v.setWidth 8
  match place a with
  | .csrRegion =>
    match csrAt a with
    | some r => csrWrite s v r
    | none => s
  | .st j => { s with st := s.st.set j b }
  | .iv j => { s with iv := s.iv.set j b }
  | .key j => { s with key := s.key.set j b }
  | .keyTail => s
  | .rk _ _ => s
  | .memory => s.writeBytes a [b]
  | .unmapped => s

/-! ### One action of the outside world -/

/-- `MemRead(addr, n)` (R63). -/
def memRead (s : State) (a n : Nat) : State :=
  if busRefuses s a n false then { s with response := some .busFault }
  else { s with response := some (readPlace s a) }

/-- `MemWrite(addr, n, v)` (R64). -/
def memWrite (s : State) (a n : Nat) (v : Word) : State :=
  if busRefuses s a n true then { s with response := some .busFault }
  else { writePlace s a v with response := some .written }

/-- One action of the outside world. -/
def hostAct (s : State) : HostAction → State
  | .read a n => memRead s a n
  | .write a n v => memWrite s a n v
  | .hardReset => resetState s

end Sys2Proof.Machine
end

