-- ==== Sys2Proof/Machine/BlockCore.lean ====
section
/-! DEFINITION. BlockCore, 40_blockcore.md: the block functions, for any cipher configuration, and the
commands `SUBB`, `ISUBB`, `SHROW`, `ISHROW`, `MIXC`, `IMIXC`, `ARK`. -/

namespace Sys2Proof.Machine

open Config (Cipher ShiftDir)

/-! ### Block functions -/

/-- `SubBytes` (R111). -/
def subBytes (c : Cipher) (s : Block) : Block := s.map c.sbox

/-- `InvSubBytes` (R112). -/
def invSubBytes (c : Cipher) (s : Block) : Block := s.map c.invSbox

/-- Row `r` rotated left by `r` places: output byte `k`, of row `k mod 4` and column `k div 4`, is
the entry of that row at column `c + r` (R113). -/
def rotateLeft (s : Block) : Block :=
  Vector.ofFn fun k : Fin 16 =>
    s[k.val % 4 + 4 * ((k.val / 4 + k.val % 4) % 4)]'(by omega)

/-- Row `r` rotated right by `r` places: the entry at column `c - r` (R114). -/
def rotateRight (s : Block) : Block :=
  Vector.ofFn fun k : Fin 16 =>
    s[k.val % 4 + 4 * ((k.val / 4 + (4 - k.val % 4)) % 4)]'(by omega)

/-- `ShiftRows` (R113): the direction is `SHIFT_DIR`. -/
def shiftRows (c : Cipher) (s : Block) : Block :=
  match c.shiftDir with
  | .left => rotateLeft s
  | .right => rotateRight s

/-- `InvShiftRows` (R114). -/
def invShiftRows (c : Cipher) (s : Block) : Block :=
  match c.shiftDir with
  | .left => rotateRight s
  | .right => rotateLeft s

/-- Column `c` of a block, bytes `4c .. 4c+3` (R11). -/
def column (s : Block) (c : Fin 4) : Column :=
  Vector.ofFn fun r : Fin 4 => s[4 * c.val + r.val]'(by omega)

/-- A function applied to each of the four columns, the columns independently (R115). -/
def mapColumns (f : Column → Column) (s : Block) : Block :=
  Vector.ofFn fun k : Fin 16 =>
    (f (column s ⟨k.val / 4, by omega⟩))[k.val % 4]'(by omega)

/-- `MixColumns` (R115). -/
def mixColumns (c : Cipher) (s : Block) : Block := mapColumns c.mixcol s

/-- `InvMixColumns` (R116). -/
def invMixColumns (c : Cipher) (s : Block) : Block := mapColumns c.invMixcol s

/-- `AddRoundKey` (R117). -/
def addRoundKey (s rk : Block) : Block := xorBytes s rk

/-- `ExpandKey(key, NR)` (R118). -/
def expandKey (c : Cipher) (key : Vector Byte Config.keyBytes) : RoundKeys :=
  c.expand key Config.nr

/-! ### Shared forms of the commands (R110) -/

/-- A keyless command that replaces all of `ST` by a function of it. -/
def transformSt (f : Block → Block) (s : State) : Host.Outcome State Fault Refusal :=
  conclude s (.ok { s with st := f s.st })

/-- A command that needs the round keys and replaces all of `ST`: `NoKey` when there are none. -/
def transformStKeyed (f : Block → Block) (s : State) : Host.Outcome State Fault Refusal :=
  conclude s do
    require s.keyValid .noKey
    .ok { s with st := f s.st }

/-! ### Commands -/

/-- `SUBB` (R111). -/
def execSubb (s : State) : Host.Outcome State Fault Refusal :=
  transformSt (subBytes Config.cipher) s

/-- `ISUBB` (R112). -/
def execIsubb (s : State) : Host.Outcome State Fault Refusal :=
  transformSt (invSubBytes Config.cipher) s

/-- `SHROW` (R113). -/
def execShrow (s : State) : Host.Outcome State Fault Refusal :=
  transformSt (shiftRows Config.cipher) s

/-- `ISHROW` (R114). -/
def execIshrow (s : State) : Host.Outcome State Fault Refusal :=
  transformSt (invShiftRows Config.cipher) s

/-- `MIXC` (R115). -/
def execMixc (s : State) : Host.Outcome State Fault Refusal :=
  transformSt (mixColumns Config.cipher) s

/-- `IMIXC` (R116). -/
def execImixc (s : State) : Host.Outcome State Fault Refusal :=
  transformSt (invMixColumns Config.cipher) s

/-- `ARK k` (R117). An index above `NR` is no command (R92). -/
def execArk (k : Nat) (s : State) : Host.Outcome State Fault Refusal :=
  if h : k < 8 then transformStKeyed (fun x => addRoundKey x s.rk[k]) s
  else .refused .illFormedIndex

end Sys2Proof.Machine
end

