-- ==== Sys2Proof/Machine/CipherBlock.lean ====
section
/-! DEFINITION. CipherEngine, 41_cipher_block.md: `encryptBlock` and `decryptBlock` for any
configuration, and the commands `LDKEY`, `ENCB`, `DECB`, `NOP`. -/

namespace Sys2Proof.Machine

open Config (Cipher)

/-- The indices of the full rounds, `1 .. NR-1`. -/
def fullRounds : List (Fin 8) := [1, 2, 3, 4, 5, 6]

/-- One full round of encryption (R131). -/
def encRound (c : Cipher) (rk : Block) (s : Block) : Block :=
  addRoundKey (mixColumns c (shiftRows c (subBytes c s))) rk

/-- `encryptBlock(x, rk)` (R131). -/
def encryptBlock (c : Cipher) (rk : RoundKeys) (x : Block) : Block :=
  let s := fullRounds.foldl (fun s r => encRound c rk[r] s) (addRoundKey x rk[0])
  addRoundKey (shiftRows c (subBytes c s)) rk[7]

/-- One full round of decryption: a full round of encryption undone (R133). -/
def decRound (c : Cipher) (rk : Block) (s : Block) : Block :=
  invSubBytes c (invShiftRows c (invMixColumns c (addRoundKey s rk)))

/-- `decryptBlock(y, rk)`, the mirror of `encryptBlock` step for step (R133). -/
def decryptBlock (c : Cipher) (rk : RoundKeys) (y : Block) : Block :=
  let s := invSubBytes c (invShiftRows c (addRoundKey y rk[7]))
  addRoundKey (fullRounds.reverse.foldl (fun s r => decRound c rk[r] s) s) rk[0]

/-- `LDKEY` (R130). -/
def execLdkey (s : State) : Host.Outcome State Fault Refusal :=
  conclude s do
    require (s.keyLen.toNat = Config.keyBytes) .keyLengthMismatch
    .ok { s with rk := expandKey Config.cipher s.key, keyValid := true }

/-- `ENCB` (R132). -/
def execEncb (s : State) : Host.Outcome State Fault Refusal :=
  transformStKeyed (encryptBlock Config.cipher s.rk) s

/-- `DECB` (R134). -/
def execDecb (s : State) : Host.Outcome State Fault Refusal :=
  transformStKeyed (decryptBlock Config.cipher s.rk) s

/-- `NOP` (R136). -/
def execNop (s : State) : Host.Outcome State Fault Refusal :=
  conclude s (.ok s)

end Sys2Proof.Machine
end

