-- ==== Sys2Proof/Machine/Chaining.lean ====
section
/-! DEFINITION. The chaining modes, 42_chaining.md: the commands `CTR`, `CBCE`, `CBCD` as one
sequential loop each (R147 allows it), and the workers that the loop stands for. -/

namespace Sys2Proof.Machine

open Config (Cipher)

/-- The counter block `ctr(IV, i)`: a big-endian 128-bit sum, the carry out of the top dropped
(R143). -/
def counterBlock (iv : Block) (i : Nat) : Block :=
  blockOf (beFixed ((beNat iv.toList + i) % 2 ^ 128) 16)

/-- The per-block step of `CTR` (R144): the bytes of output block `i` of `n` bytes, the last block
possibly partial. -/
def ctrStep (c : Cipher) (s : State) (n i : Nat) : List Byte :=
  (s.readBytes (ibufBase + 16 * i) (min 16 (n - 16 * i))).zipWith (· ^^^ ·)
    (encryptBlock c s.rk (counterBlock s.iv i)).toList

/-- The chain of `CBCE` (R145): each input block is combined with the ciphertext before it. -/
def cbceChain (enc : Block → Block) : (prev : Block) → List Block → List Block
  | _, [] => []
  | prev, x :: xs =>
    let y := enc (xorBytes x prev)
    y :: cbceChain enc y xs

/-- The chaining value of `CBCD` for block `i`: `IV`, or the raw ciphertext block before (R146). -/
def cbcdPrev (s : State) (i : Nat) : Block :=
  if i = 0 then s.iv else ibufBlock s (i - 1)

/-- The per-block step of `CBCD` (R146). -/
def cbcdStep (c : Cipher) (s : State) (i : Nat) : List Byte :=
  (xorBytes (decryptBlock c s.rk (ibufBlock s i)) (cbcdPrev s i)).toList

/-- The output of `CTR` on `n` bytes: blocks `0 .. nblk-1` in order. -/
def ctrOutput (c : Cipher) (s : State) (n : Nat) : List Byte :=
  (List.range (ceil16 n)).flatMap (ctrStep c s n)

/-- The output of `CBCE` on `n` bytes, a multiple of 16: one worker, blocks in order (R148). -/
def cbceOutput (c : Cipher) (s : State) (n : Nat) : List Byte :=
  (cbceChain (encryptBlock c s.rk) s.iv ((List.range (ceil16 n)).map (ibufBlock s))).flatMap
    Vector.toList

/-- The output of `CBCD` on `n` bytes, a multiple of 16. -/
def cbcdOutput (c : Cipher) (s : State) (n : Nat) : List Byte :=
  (List.range (ceil16 n)).flatMap (cbcdStep c s)

/-! ### Commands -/

/-- The checks of R140 that all three commands make: the key, then the length. -/
def chainChecks (s : State) : Except ErrorKind Unit := do
  require s.keyValid .noKey
  require (s.len.toNat ≤ Config.bufBytes) .badLength

/-- `CTR` (R144). -/
def execCtr (s : State) : Host.Outcome State Fault Refusal :=
  conclude s do
    chainChecks s
    .ok (s.writeBytes obufBase (ctrOutput Config.cipher s s.len.toNat))

/-- `CBCE` (R145). -/
def execCbce (s : State) : Host.Outcome State Fault Refusal :=
  conclude s do
    chainChecks s
    require (s.len.toNat % 16 = 0) .badLength
    .ok (s.writeBytes obufBase (cbceOutput Config.cipher s s.len.toNat))

/-- `CBCD` (R146). -/
def execCbcd (s : State) : Host.Outcome State Fault Refusal :=
  conclude s do
    chainChecks s
    require (s.len.toNat % 16 = 0) .badLength
    .ok (s.writeBytes obufBase (cbcdOutput Config.cipher s s.len.toNat))

/-! ### Workers (R141, R142, R147) -/

/-- The worker count `W` of `CTR` and `CBCD` (R141). -/
def workerCount (hwPar nblk : Nat) : Nat := min (min hwPar Config.wMax) nblk

/-- The worker count of `CBCE` (R141). -/
def cbceWorkerCount (nblk : Nat) : Nat := min 1 nblk

/-- The default partition (R142): worker `v` takes the blocks from `lo` up to, not including, `hi`. -/
def defaultRange (nblk w v : Nat) : Nat × Nat :=
  let q := nblk / w
  let m := nblk % w
  let lo := v * q + min v m
  (lo, lo + q + if v < m then 1 else 0)

/-- The ranges of the default partition, worker 0 first. -/
def defaultPartition (nblk w : Nat) : List (Nat × Nat) :=
  (List.range w).map (defaultRange nblk w)

/-- R142's law for contiguous ranges that start at `lo` and end at `hi`: each begins where the one
before it ends, and none is empty. -/
def Contiguous : (lo hi : Nat) → List (Nat × Nat) → Prop
  | lo, hi, [] => lo = hi
  | lo, hi, r :: rs => r.1 = lo ∧ r.1 < r.2 ∧ Contiguous r.2 hi rs

/-- A partition that R142's law admits for `w` workers on `nblk` blocks. -/
def LawfulPartition (nblk w : Nat) (rs : List (Nat × Nat)) : Prop :=
  rs.length = w ∧ Contiguous 0 nblk rs

/-- The blocks of a range, in increasing order. -/
def rangeBlocks (r : Nat × Nat) : List Nat := List.range' r.1 (r.2 - r.1)

/-- An interleaving of the workers: `order` is the sequence of block indices in which the workers take
their steps, each worker through its own blocks in order, none left over. `todo` holds what each
worker has yet to do. -/
inductive Interleaving : (todo : List (List Nat)) → (order : List Nat) → Prop where
  /-- All workers are joined. -/
  | joined {todo : List (List Nat)} (h : ∀ t ∈ todo, t = []) : Interleaving todo []
  /-- Worker `v` takes its next block `i`. -/
  | step {todo : List (List Nat)} {order : List Nat} (v : Nat) (h : v < todo.length) (i : Nat)
      (rest : List Nat) (hv : todo[v] = i :: rest) (next : Interleaving (todo.set v rest) order) :
      Interleaving todo (i :: order)

/-- Workers write their blocks one at a time in the given order; each step reads the state that the
steps before it left (R147). -/
def writeBlocks (step : State → Nat → List Byte) (order : List Nat) (s : State) : State :=
  order.foldl (fun t i => t.writeBytes (obufBase + 16 * i) (step t i)) s

end Sys2Proof.Machine
end

