-- ==== Sys2Proof/Machine/BigInt.lean ====
section
/-! DEFINITION. Big integers, 43_bigint.md: modular power and inverse by value, and the commands
`BNMUL`, `BNMOD`, `BNMODEXP`, `BNMODINV`. -/

namespace Sys2Proof.Machine

/-! ### Functions on natural numbers -/

/-- `(acc * base ^ exp) mod m` by squaring, for an exponent of at most `fuel` bits. -/
def powMod (m : Nat) : (fuel base exp acc : Nat) → Nat
  | 0, _, _, acc => acc % m
  | fuel + 1, base, exp, acc =>
    if exp = 0 then acc % m
    else powMod m fuel (base * base % m) (exp / 2) (if exp % 2 = 1 then acc * base % m else acc)

/-- `(a ^ b) mod m` (R165), `a ^ 0` being 1 (R162). -/
def modExp (a b m : Nat) : Nat := powMod m b (a % m) b 1

/-- Euclid's algorithm on `r0 >= r1` with the coefficients `t0`, `t1` of one operand: a common divisor
and its coefficient. -/
def euclid : (fuel : Nat) → (r0 r1 : Nat) → (t0 t1 : Int) → Nat × Int
  | 0, r0, _, t0, _ => (r0, t0)
  | fuel + 1, r0, r1, t0, t1 =>
    if r1 = 0 then (r0, t0)
    else euclid fuel r1 (r0 % r1) t1 (t0 - (r0 / r1 : Nat) * t1)

/-- `modinv(a, m)` for `m >= 1`, or `NonInvertibleModulus` (R167). -/
def modInv (a m : Nat) : Except ErrorKind Nat :=
  let gt := euclid m m (a % m) 0 1
  if gt.1 = 1 then .ok (gt.2 % (m : Int)).toNat else .error .nonInvertibleModulus

/-! ### Commands -/

/-- `BNMUL` (R163). -/
def execBnmul (s : State) : Host.Outcome State Fault Refusal :=
  conclude s do
    let a ← readSlot s Slot.a
    let b ← readSlot s Slot.b
    writeSlot s Slot.y (a * b)

/-- `BNMOD` (R164). -/
def execBnmod (s : State) : Host.Outcome State Fault Refusal :=
  conclude s do
    let a ← readSlot s Slot.a
    let m ← readSlot s Slot.m
    require (1 ≤ m) .operandRange
    writeSlot s Slot.y (a % m)

/-- `BNMODEXP` (R165). -/
def execBnmodexp (s : State) : Host.Outcome State Fault Refusal :=
  conclude s do
    let a ← readSlot s Slot.a
    let b ← readSlot s Slot.b
    let m ← readSlot s Slot.m
    require (1 ≤ m) .operandRange
    writeSlot s Slot.y (modExp a b m)

/-- `BNMODINV` (R166). -/
def execBnmodinv (s : State) : Host.Outcome State Fault Refusal :=
  conclude s do
    let a ← readSlot s Slot.a
    let m ← readSlot s Slot.m
    require (1 ≤ m) .operandRange
    let y ← modInv a m
    writeSlot s Slot.y y

end Sys2Proof.Machine
end

