-- ==== Sys2Proof/Machine/Mrsa.lean ====
section
/-! DEFINITION. M-RSA, 44_mrsa.md: the commands `RSAMK`, `RSAENC`, `RSADEC`. No padding, no blinding
(R186). -/

namespace Sys2Proof.Machine

/-- `n`, `e` and `d` of three primes: the arithmetic of `RSAMK` (R181). -/
def deriveKey (p q r : Nat) : Except ErrorKind (Nat × Nat × Nat) := do
  require (2 ≤ p && 2 ≤ q && 2 ≤ r) .operandRange
  let d ← modInv Config.eFixed ((p - 1) * (q - 1) * (r - 1))
  .ok (p * q * r, Config.eFixed, d)

/-- `crt3`, the three-modulus Chinese Remainder Theorem (R184). -/
def crt3 (m1 m2 m3 p q r n : Nat) : Except ErrorKind Nat := do
  let i1 ← modInv (q * r) p
  let i2 ← modInv (p * r) q
  let i3 ← modInv (p * q) r
  .ok ((m1 * (q * r) * i1 + m2 * (p * r) * i2 + m3 * (p * q) * i3) % n)

/-- The three steps of `RSADEC` (R183). -/
def crtDecrypt (c d p q r n : Nat) : Except ErrorKind Nat :=
  crt3 (modExp c (d % (p - 1)) p) (modExp c (d % (q - 1)) q) (modExp c (d % (r - 1)) r) p q r n

/-! ### Commands -/

/-- `RSAMK` (R181): all three results are written, or none. -/
def execRsamk (s : State) : Host.Outcome State Fault Refusal :=
  conclude s do
    let p ← readSlot s Slot.p
    let q ← readSlot s Slot.q
    let r ← readSlot s Slot.r
    let (n, e, d) ← deriveKey p q r
    let s1 ← writeSlot s Slot.n n
    let s2 ← writeSlot s1 Slot.e e
    writeSlot s2 Slot.d d

/-- `RSAENC` (R182). -/
def execRsaenc (s : State) : Host.Outcome State Fault Refusal :=
  conclude s do
    let a ← readSlot s Slot.a
    let n ← readSlot s Slot.n
    let e ← readSlot s Slot.e
    require (a < n) .operandRange
    writeSlot s Slot.y (modExp a e n)

/-- `RSADEC` (R183). -/
def execRsadec (s : State) : Host.Outcome State Fault Refusal :=
  conclude s do
    let c ← readSlot s Slot.a
    let n ← readSlot s Slot.n
    let d ← readSlot s Slot.d
    let p ← readSlot s Slot.p
    let q ← readSlot s Slot.q
    let r ← readSlot s Slot.r
    require (1 ≤ n && 2 ≤ p && 2 ≤ q && 2 ≤ r) .operandRange
    let y ← crtDecrypt c d p q r n
    writeSlot s Slot.y y

end Sys2Proof.Machine
end

