-- ==== Sys2Proof/Machine/Dispatch.lean ====
section
/-! DEFINITION. The meaning of every command: the effect of its completion on the state in which it was
accepted. -/

namespace Sys2Proof.Machine

def exec (i : Instr) (s : State) : Host.Outcome State Fault Refusal :=
  match i with
  | .nop => Sys2Proof.Machine.execNop s
  | .subb => Sys2Proof.Machine.execSubb s
  | .isubb => Sys2Proof.Machine.execIsubb s
  | .shrow => Sys2Proof.Machine.execShrow s
  | .ishrow => Sys2Proof.Machine.execIshrow s
  | .mixc => Sys2Proof.Machine.execMixc s
  | .imixc => Sys2Proof.Machine.execImixc s
  | .ark k => Sys2Proof.Machine.execArk k s
  | .ldkey => Sys2Proof.Machine.execLdkey s
  | .encb => Sys2Proof.Machine.execEncb s
  | .decb => Sys2Proof.Machine.execDecb s
  | .ctr => Sys2Proof.Machine.execCtr s
  | .cbce => Sys2Proof.Machine.execCbce s
  | .cbcd => Sys2Proof.Machine.execCbcd s
  | .bnmul => Sys2Proof.Machine.execBnmul s
  | .bnmod => Sys2Proof.Machine.execBnmod s
  | .bnmodexp => Sys2Proof.Machine.execBnmodexp s
  | .bnmodinv => Sys2Proof.Machine.execBnmodinv s
  | .rsamk => Sys2Proof.Machine.execRsamk s
  | .rsaenc => Sys2Proof.Machine.execRsaenc s
  | .rsadec => Sys2Proof.Machine.execRsadec s

end Sys2Proof.Machine
end

