-- ==== Sys2Proof/Machine/Sequencer.lean ====
section
/-! DEFINITION. The sequencer: whose turn it is, and what the engine's turn does. -/

namespace Sys2Proof.Machine

/-- The engine's turn: the command in flight is carried out as one transition (R2, R41); an idle engine
waits (R246). A word that does not decode is never in flight; the fault is the one its acceptance
would have raised (R93). -/
def engineTurn (s : State) : Host.Outcome State Fault Refusal :=
  match s.inFlight with
  | none => .next s
  | some w =>
    match decode w with
    | .ok i => exec i s
    | .error _ => .next (raise .illegalCommand s)

/-- One step. With turns left on the agenda, the first of them; with none, the engine moves, so a command
in flight completes whatever the host does or does not do (R270). -/
def takeTurn (s : State) : Host.Outcome State Fault Refusal :=
  match s.agenda with
  | [] => engineTurn s
  | .engine :: rest => engineTurn { s with agenda := rest }
  | .host act :: rest => .next (hostAct { s with agenda := rest } act)

/-- The state with command word `w` accepted and the engine's turn next. -/
def withCommand (s : State) (w : Word) : State :=
  { s with inFlight := some w, agenda := .engine :: s.agenda }

end Sys2Proof.Machine
end

