-- ==== Sys2Proof/Machine/Step.lean ====
section
/-! DEFINITION. One step of the machine, and the state whose next step runs a given command. -/

namespace Sys2Proof.Machine

/-- One step: one turn of the host or of the engine. -/
def step (s : State) : Host.Outcome State Fault Refusal := takeTurn s

/-- The state in which the command word of the opcode table numbered `w` is in flight and the engine
moves next (the acceptance of R36 stands before this state). -/
def State.withFetchWord (s : State) (nbits w : Nat) : State := withCommand s (tableWord nbits w)

end Sys2Proof.Machine
end

