-- ==== Sys2Proof/Machine/Aesp.lean ====
section
/-! DEFINITION. `AESP`, the candidate instance of 00_scope.md rule R8, with the proofs of R7's laws. It is
general knowledge and not the hardware's configuration: nothing under `exec` uses it, and a statement
that holds only of it says so. -/

namespace Sys2Proof.Machine

/-- The product of `x` and a field element: shift, and reduce by `0x11B` (R8). -/
def gfDouble (b : Byte) : Byte := (b <<< 1) ^^^ (if b.getLsbD 7 then 0x1b else 0)

/-- The part of a field product that the low `n` bits of `a` contribute. -/
def gfMulBits : (n : Nat) → (a b : Byte) → Byte
  | 0, _, _ => 0
  | n + 1, a, b => (if a.getLsbD 0 then b else 0) ^^^ gfMulBits n (a >>> 1) (gfDouble b)

/-- The field product `a * b` of R8. -/
def gfMul (a b : Byte) : Byte := gfMulBits 8 a b

/-- The multiplicative inverse, `b ^ 254`; 0 for 0. -/
def gfInv (b : Byte) : Byte :=
  let b2 := gfMul b b
  let b4 := gfMul b2 b2
  let b8 := gfMul b4 b4
  let b16 := gfMul b8 b8
  let b32 := gfMul b16 b16
  let b64 := gfMul b32 b32
  let b128 := gfMul b64 b64
  gfMul b128 (gfMul b64 (gfMul b32 (gfMul b16 (gfMul b8 (gfMul b4 b2)))))

/-- The affine map of the candidate `SBOX`. -/
def affine (b : Byte) : Byte :=
  b ^^^ b.rotateLeft 1 ^^^ b.rotateLeft 2 ^^^ b.rotateLeft 3 ^^^ b.rotateLeft 4 ^^^ 0x63

/-- The inverse of the affine map. -/
def affineInv (b : Byte) : Byte :=
  b.rotateLeft 1 ^^^ b.rotateLeft 3 ^^^ b.rotateLeft 6 ^^^ 0x05

/-- The candidate `SBOX` (R8). -/
def aespSbox (x : Byte) : Byte := affine (gfInv x)

/-- The candidate `INV_SBOX`. -/
def aespInvSbox (y : Byte) : Byte := gfInv (affineInv y)

/-- One row of a matrix times a column: four field products, combined. -/
def gfRow (k0 k1 k2 k3 a0 a1 a2 a3 : Byte) : Byte :=
  gfMul k0 a0 ^^^ gfMul k1 a1 ^^^ gfMul k2 a2 ^^^ gfMul k3 a3

/-- A column times the matrix with first row `k0 k1 k2 k3` whose every row is the row above it, rotated
right by one place. -/
def circulant (k0 k1 k2 k3 : Byte) (a : Column) : Column :=
  #v[gfRow k0 k1 k2 k3 a[0] a[1] a[2] a[3], gfRow k0 k1 k2 k3 a[1] a[2] a[3] a[0],
     gfRow k0 k1 k2 k3 a[2] a[3] a[0] a[1], gfRow k0 k1 k2 k3 a[3] a[0] a[1] a[2]]

/-- The candidate `MIXCOL` (R8). -/
def aespMixcol : Column → Column := circulant 2 3 1 1

/-- The candidate `INV_MIXCOL` (R8). -/
def aespInvMixcol : Column → Column := circulant 14 11 13 9

/-- The word before, rotated, substituted and combined with the round constant (R8). -/
def aespCore (rc : Byte) (t : Column) : Column :=
  #v[aespSbox t[1] ^^^ rc, aespSbox t[2], aespSbox t[3], aespSbox t[0]]

/-- The round-key block after `rk`, with round constant `rc` (R8). -/
def aespNextBlock (rc : Byte) (rk : Block) : Block :=
  let w0 := xorBytes (column rk 0) (aespCore rc (column rk 3))
  let w1 := xorBytes (column rk 1) w0
  let w2 := xorBytes (column rk 2) w1
  let w3 := xorBytes (column rk 3) w2
  w0 ++ w1 ++ w2 ++ w3

/-- `rounds` further blocks after block `rk`. -/
def aespSchedule : (rounds : Nat) → (rc : Byte) → (rk : Block) → List Block
  | 0, _, rk => [rk]
  | n + 1, rc, rk => rk :: aespSchedule n (gfDouble rc) (aespNextBlock rc rk)

theorem aespSchedule_length (n : Nat) (rc : Byte) (rk : Block) :
    (aespSchedule n rc rk).length = n + 1 := by
  induction n generalizing rc rk with
  | zero => rfl
  | succ n ih => simp [aespSchedule, ih]

/-- The candidate `EXPAND` (R8): block 0 is the key. -/
def aespExpand (key : Vector Byte Config.keyBytes) (rounds : Nat) : Vector Block (rounds + 1) :=
  ⟨(aespSchedule rounds 1 key).toArray, by simp [aespSchedule_length]⟩

/-! ### The laws of R7 -/

/-- Rearranges an exclusive-or of two pairs. -/
theorem xor_pairs {w : Nat} (a b c d : BitVec w) :
    (a ^^^ b) ^^^ (c ^^^ d) = (a ^^^ c) ^^^ (b ^^^ d) := by ac_rfl

theorem gfDouble_xor (a b : Byte) : gfDouble (a ^^^ b) = gfDouble a ^^^ gfDouble b := by
  unfold gfDouble
  rw [BitVec.shiftLeft_xor_distrib, BitVec.getLsbD_xor, xor_pairs]
  congr 1
  cases a.getLsbD 7 <;> cases b.getLsbD 7 <;> rfl

theorem gfMulBits_xor (n : Nat) (k a b : Byte) :
    gfMulBits n k (a ^^^ b) = gfMulBits n k a ^^^ gfMulBits n k b := by
  induction n generalizing k a b with
  | zero => simp [gfMulBits]
  | succ n ih =>
    rw [gfMulBits, gfDouble_xor, ih, gfMulBits, gfMulBits, xor_pairs]
    cases k.getLsbD 0 <;> simp

theorem gfMul_xor (k a b : Byte) : gfMul k (a ^^^ b) = gfMul k a ^^^ gfMul k b :=
  gfMulBits_xor 8 k a b

/-- The field product on numbers, which Lean's kernel computes faster. -/
def gfMulNat : (n a b : Nat) → Nat
  | 0, _, _ => 0
  | n + 1, a, b =>
    Nat.xor (Nat.mul (Nat.mod a 2) b)
      (gfMulNat n (Nat.div a 2) (Nat.xor (Nat.mod (Nat.mul 2 b) 256) (Nat.mul 27 (Nat.div b 128))))

/-- The field inverse on numbers. -/
def gfInvNat (b : Nat) : Nat :=
  let b2 := gfMulNat 8 b b
  let b4 := gfMulNat 8 b2 b2
  let b8 := gfMulNat 8 b4 b4
  let b16 := gfMulNat 8 b8 b8
  let b32 := gfMulNat 8 b16 b16
  let b64 := gfMulNat 8 b32 b32
  let b128 := gfMulNat 8 b64 b64
  gfMulNat 8 b128 (gfMulNat 8 b64 (gfMulNat 8 b32 (gfMulNat 8 b16 (gfMulNat 8 b8 (gfMulNat 8 b4 b2)))))

theorem gfDouble_toNat : ∀ b : Byte, (gfDouble b).toNat =
    Nat.xor (Nat.mod (Nat.mul 2 b.toNat) 256) (Nat.mul 27 (Nat.div b.toNat 128)) := by
  decide +kernel

theorem halve_toNat : ∀ a : Byte, (a >>> 1).toNat = Nat.div a.toNat 2 ∧
    (if a.getLsbD 0 then 1 else 0) = Nat.mod a.toNat 2 := by
  decide +kernel

theorem gfMulBits_toNat (n : Nat) (a b : Byte) :
    (gfMulBits n a b).toNat = gfMulNat n a.toNat b.toNat := by
  induction n generalizing a b with
  | zero => rfl
  | succ n ih =>
    obtain ⟨h1, h2⟩ := halve_toNat a
    rw [gfMulBits, gfMulNat, ← h1, ← h2, ← gfDouble_toNat, ← ih, BitVec.toNat_xor]
    cases a.getLsbD 0 <;> simp

theorem gfMul_toNat (a b : Byte) : (gfMul a b).toNat = gfMulNat 8 a.toNat b.toNat :=
  gfMulBits_toNat 8 a b

theorem gfInv_toNat (b : Byte) : (gfInv b).toNat = gfInvNat b.toNat := by
  simp only [gfInv, gfInvNat, gfMul_toNat]

theorem gfInvNat_gfInvNat : ∀ n : Fin 256, gfInvNat (gfInvNat n.val) = n.val := by decide +kernel

theorem gfInv_gfInv (b : Byte) : gfInv (gfInv b) = b := by
  apply BitVec.eq_of_toNat_eq
  rw [gfInv_toNat, gfInv_toNat]
  exact gfInvNat_gfInvNat ⟨b.toNat, b.isLt⟩

theorem affineInv_affine : ∀ b : Byte, affineInv (affine b) = b := by decide +kernel

theorem aespInvSbox_sbox (x : Byte) : aespInvSbox (aespSbox x) = x := by
  rw [aespInvSbox, aespSbox, affineInv_affine, gfInv_gfInv]

theorem gfRow_xor (k0 k1 k2 k3 a0 a1 a2 a3 b0 b1 b2 b3 : Byte) :
    gfRow k0 k1 k2 k3 (a0 ^^^ b0) (a1 ^^^ b1) (a2 ^^^ b2) (a3 ^^^ b3) =
      gfRow k0 k1 k2 k3 a0 a1 a2 a3 ^^^ gfRow k0 k1 k2 k3 b0 b1 b2 b3 := by
  simp only [gfRow, gfMul_xor]
  ac_rfl

/-- The four places of a column. -/
theorem column_cases {i : Nat} (hi : i < 4) : i = 0 ∨ i = 1 ∨ i = 2 ∨ i = 3 := by omega

theorem circulant_xor (k0 k1 k2 k3 : Byte) (a b : Column) :
    circulant k0 k1 k2 k3 (xorBytes a b) =
      xorBytes (circulant k0 k1 k2 k3 a) (circulant k0 k1 k2 k3 b) := by
  apply Vector.ext
  intro i hi
  rcases column_cases hi with rfl | rfl | rfl | rfl <;>
    simp only [circulant, xorBytes, Vector.getElem_zipWith, gfRow_xor] <;> rfl

/-- A byte is the exclusive-or of its bits. -/
theorem byte_bits : ∀ a : Byte, a =
    (if a.getLsbD 0 then 1 else 0) ^^^ (if a.getLsbD 1 then 2 else 0) ^^^
    (if a.getLsbD 2 then 4 else 0) ^^^ (if a.getLsbD 3 then 8 else 0) ^^^
    (if a.getLsbD 4 then 16 else 0) ^^^ (if a.getLsbD 5 then 32 else 0) ^^^
    (if a.getLsbD 6 then 64 else 0) ^^^ (if a.getLsbD 7 then 128 else 0) := by
  decide +kernel

/-- A linear function that is 0 on the eight bits is 0. -/
theorem linear_zero (f : Byte → Byte) (hf : ∀ a b, f (a ^^^ b) = f a ^^^ f b)
    (h : f 1 = 0 ∧ f 2 = 0 ∧ f 4 = 0 ∧ f 8 = 0 ∧ f 16 = 0 ∧ f 32 = 0 ∧ f 64 = 0 ∧ f 128 = 0) (a : Byte) :
    f a = 0 := by
  obtain ⟨h0, h1, h2, h3, h4, h5, h6, h7⟩ := h
  have hz : f 0 = 0 := by simpa using hf 0 0
  have hb : ∀ (c : Bool) (v : Byte), f v = 0 → f (if c then v else 0) = 0 := by
    intro c v hv
    cases c
    · exact hz
    · exact hv
  rw [byte_bits a]
  simp only [hf]
  rw [hb _ _ h0, hb _ _ h1, hb _ _ h2, hb _ _ h3, hb _ _ h4, hb _ _ h5, hb _ _ h6, hb _ _ h7]
  rfl

/-- Two equal bytes are those whose exclusive-or is 0. -/
theorem eq_of_xor_eq_zero {a b : Byte} (h : a ^^^ b = 0) : a = b := by
  have : a ^^^ b ^^^ b = b := by rw [h]; simp
  simpa [BitVec.xor_assoc] using this

/-- One entry of the product of the two matrices, as a function of the byte it multiplies. -/
def matrixEntry (j0 j1 j2 j3 : Byte) (a : Byte) : Byte :=
  gfMul 14 (gfMul j0 a) ^^^ gfMul 11 (gfMul j1 a) ^^^ gfMul 13 (gfMul j2 a) ^^^ gfMul 9 (gfMul j3 a)

theorem matrixEntry_xor (j0 j1 j2 j3 a b : Byte) :
    matrixEntry j0 j1 j2 j3 (a ^^^ b) = matrixEntry j0 j1 j2 j3 a ^^^ matrixEntry j0 j1 j2 j3 b := by
  simp only [matrixEntry, gfMul_xor]
  ac_rfl

/-- The product of the two matrices, in one column: 1 on the diagonal, 0 elsewhere. -/
theorem matrix_product (a : Byte) :
    matrixEntry 2 1 1 3 a = a ∧ matrixEntry 3 2 1 1 a = 0 ∧ matrixEntry 1 3 2 1 a = 0 ∧
      matrixEntry 1 1 3 2 a = 0 := by
  refine ⟨eq_of_xor_eq_zero ?_, ?_, ?_, ?_⟩
  · refine linear_zero (fun b => matrixEntry 2 1 1 3 b ^^^ b) (fun b c => ?_) (by decide +kernel) a
    simp only [matrixEntry_xor]
    ac_rfl
  · exact linear_zero _ (matrixEntry_xor 3 2 1 1) (by decide +kernel) a
  · exact linear_zero _ (matrixEntry_xor 1 3 2 1) (by decide +kernel) a
  · exact linear_zero _ (matrixEntry_xor 1 1 3 2) (by decide +kernel) a

/-- Rearranges four exclusive-ors of four into the four columns of the matrix product. -/
theorem xor_transpose (p q r u p1 q1 r1 u1 p2 q2 r2 u2 p3 q3 r3 u3 : Byte) :
    (p ^^^ q ^^^ r ^^^ u) ^^^ (p1 ^^^ q1 ^^^ r1 ^^^ u1) ^^^ (p2 ^^^ q2 ^^^ r2 ^^^ u2) ^^^
      (p3 ^^^ q3 ^^^ r3 ^^^ u3) =
    (p ^^^ u1 ^^^ r2 ^^^ q3) ^^^ (q ^^^ p1 ^^^ u2 ^^^ r3) ^^^ (r ^^^ q1 ^^^ p2 ^^^ u3) ^^^
      (u ^^^ r1 ^^^ q2 ^^^ p3) := by
  ac_rfl

theorem gfRow_inverse (a0 a1 a2 a3 : Byte) :
    gfRow 14 11 13 9 (gfRow 2 3 1 1 a0 a1 a2 a3) (gfRow 2 3 1 1 a1 a2 a3 a0)
      (gfRow 2 3 1 1 a2 a3 a0 a1) (gfRow 2 3 1 1 a3 a0 a1 a2) = a0 := by
  simp only [gfRow, gfMul_xor]
  rw [xor_transpose]
  have h0 := (matrix_product a0).1
  have h1 := (matrix_product a1).2.1
  have h2 := (matrix_product a2).2.2.1
  have h3 := (matrix_product a3).2.2.2
  simp only [matrixEntry] at h0 h1 h2 h3
  rw [h0, h1, h2, h3]
  simp

theorem aespInvMixcol_mixcol (c : Column) : aespInvMixcol (aespMixcol c) = c := by
  apply Vector.ext
  intro i hi
  rcases column_cases hi with rfl | rfl | rfl | rfl <;> exact gfRow_inverse _ _ _ _

/-- The candidate configuration `AESP` (R8), rotation to the left. -/
def aesp : Config.Cipher where
  sbox := aespSbox
  invSbox := aespInvSbox
  mixcol := aespMixcol
  invMixcol := aespInvMixcol
  expand := aespExpand
  invSbox_sbox := aespInvSbox_sbox
  invMixcol_mixcol := aespInvMixcol_mixcol
  mixcol_xor := circulant_xor 2 3 1 1
  shiftDir := .left

end Sys2Proof.Machine
end

