-- ==== Sys2Proof/Machine/HostSoftware.lean ====
section
/-! DEFINITION. The host's side, 45_host_software.md: padding, hex, wire frames, host scripts as lists of
turns (30_encoding.md R96, R97), key generation and the call contracts. It binds the host, not the
engine: nothing under `exec` or `step` uses it (R200). -/

namespace Sys2Proof.Machine

/-! ### Padding (R201, R202) -/

/-- `addPKCS7Padding(data, blockSize)`, for `1 <= blockSize <= 255` (R201). The
flows pad to 16 alone; outside that range the function is not the rule's (log entry 13). -/
def addPadding (data : List Byte) (blockSize : Nat) : List Byte :=
  let k := blockSize - data.length % blockSize
  data ++ List.replicate k (BitVec.ofNat 8 k)

/-- `removePKCS7Padding(data)`: the five failure conditions of R202, the block size being 16. -/
def removePadding (data : List Byte) : Except ErrorKind (List Byte) :=
  match data.getLast? with
  | none => .error .invalidPadding
  | some last =>
    let k := last.toNat
    if k = 0 ∨ Config.padBlock < k ∨ data.length < k ∨
        (data.drop (data.length - k)).any (· != last) then
      .error .invalidPadding
    else .ok (data.take (data.length - k))

/-! ### Hex (R203, R204) -/

/-- The lower-case hexadecimal digit of a value below 16. -/
def hexDigit (v : Nat) : Char :=
  if v < 10 then Char.ofNat (48 + v) else Char.ofNat (87 + v)

/-- Hex encode: two digits a byte, high nibble first (R203). -/
def hexEncode (data : List Byte) : List Char :=
  data.flatMap fun b => [hexDigit (b.toNat / 16), hexDigit (b.toNat % 16)]

/-- The value of a hexadecimal digit of either case (R204). -/
def hexValue (c : Char) : Option Nat :=
  let n := c.toNat
  if 48 ≤ n ∧ n ≤ 57 then some (n - 48)
  else if 97 ≤ n ∧ n ≤ 102 then some (n - 87)
  else if 65 ≤ n ∧ n ≤ 70 then some (n - 55)
  else none

/-- Hex decode; `MalformedHex` on odd length or a character that is no digit (R204). -/
def hexDecode : List Char → Except ErrorKind (List Byte)
  | [] => .ok []
  | [_] => .error .malformedHex
  | hi :: lo :: rest =>
    match hexValue hi, hexValue lo, hexDecode rest with
    | some h, some l, .ok bs => .ok (BitVec.ofNat 8 (16 * h + l) :: bs)
    | _, _, _ => .error .malformedHex

/-! ### Wire frames (R205 to R207) -/

/-- A length as a 32-bit word. DESIGN CHOICE (log entry 13): for a length of `2^32` or more, which no word
holds, the host goes on with a free value. -/
def lengthWord (v : Nat) : Word :=
  if v < 2 ^ 32 then BitVec.ofNat 32 v else Config.lengthOverflow v

/-- A `u32` on the wire: 4 bytes, the most significant first (R205). DESIGN CHOICE (log entry 13): R205
gives the bytes of values below `2^32` only; for any other the frame is still built, and the field holds
the free value of `lengthWord`. -/
def wireWord (v : Nat) : List Byte := beFixed (lengthWord v).toNat 4

/-- The key-exchange frame: only `(n, e)` cross the wire (R206). -/
def keyExchangeFrame (n e : Nat) : List Byte :=
  wireWord (beBytes n).length ++ beBytes n ++ wireWord (beBytes e).length ++ beBytes e

/-- A `u32` length and that many bytes from the front of a byte string, with what stands after them
(R205, R206); none when the string ends before they do. -/
def takeField (bytes : List Byte) : Option (List Byte × List Byte) :=
  let len := beNat (bytes.take 4)
  let body := bytes.drop 4
  if 4 ≤ bytes.length ∧ len ≤ body.length then some (body.take len, body.drop len) else none

/-- The modulus and the exponent that a key-exchange frame carries (R206, R217); none for bytes that are
no whole frame, about which the rules say nothing (log entry 13). -/
def readKeyExchange (frame : List Byte) : Option (List Byte × List Byte) :=
  match takeField frame with
  | none => none
  | some (n, rest) =>
    match takeField rest with
    | some (e, []) => some (n, e)
    | some (_, _ :: _) => none
    | none => none

/-- The payload frame's record (R207); the two sizes are the lengths of the byte strings. -/
structure Payload where
  iv : Block
  encKey : List Byte
  encData : List Byte
  deriving DecidableEq, Repr

/-- The payload frame on the wire (R207). -/
def payloadFrame (f : Payload) : List Byte :=
  wireWord f.encKey.length ++ wireWord f.encData.length ++ f.iv.toList ++ f.encKey ++ f.encData

/-- The record of a payload frame (R207); none for bytes that are no whole frame (log entry 13). -/
def readPayload (frame : List Byte) : Option Payload :=
  let keySize := beNat (frame.take 4)
  let dataSize := beNat ((frame.drop 4).take 4)
  let body := frame.drop 24
  if 24 ≤ frame.length ∧ body.length = keySize + dataSize then
    some { iv := blockOf (frame.drop 8), encKey := body.take keySize, encData := body.drop keySize }
  else none

/-! ### Fixed-width key reconstruction (R210) -/

/-- The decrypted key at exactly `KEY_BYTES` bytes: zero bytes in front, or the low-order bytes. -/
def repadKey (y : List Byte) : List Byte :=
  List.replicate (Config.keyBytes - y.length) 0 ++ y.drop (y.length - Config.keyBytes)

/-! ### Host scripts (R96, R97) -/

/-- `WR32 off, val`. -/
def wr32 (off : Nat) (v : Word) : List Turn := [.host (.write off 4 v)]

/-- `RD32 off`. -/
def rd32 (off : Nat) : List Turn := [.host (.read off 4)]

/-- `WRB off, bytes`. -/
def wrb : (off : Nat) → (bytes : List Byte) → List Turn
  | _, [] => []
  | off, b :: bs => .host (.write off 1 (b.setWidth 32)) :: wrb (off + 1) bs

/-- `RDB off, n`. -/
def rdb (off n : Nat) : List Turn := (List.range n).map fun j => .host (.read (off + j) 1)

/-- `CMD mnemonic`. -/
def cmd (i : Instr) : List Turn := wr32 0x14 (encode i)

/-- `WAIT`, when the engine completes after `polls` reads that still show `BUSY`. -/
def wait (polls : Nat) : List Turn :=
  (List.replicate polls (rd32 0x10)).flatten ++ [.engine] ++ rd32 0x10

/-- `RUN mnemonic`. DESIGN CHOICE (log entry 13): the `WAIT` in it, and so the one in `LOADKEY`, sees 0
polls that still show `BUSY`; the spec leaves a command's duration open (R275). -/
def run (i : Instr) : List Turn := cmd i ++ wait 0

/-- `LOADKEY bytes`. Its `WAIT` is that of `run`. -/
def loadKey (bytes : List Byte) : List Turn :=
  wrb 0x140 bytes ++ wr32 0x1C (lengthWord bytes.length) ++ run .ldkey

/-- `SETST bytes`. -/
def setSt (bytes : List Byte) : List Turn := wrb 0x100 bytes

/-- `SETIV bytes`. -/
def setIv (bytes : List Byte) : List Turn := wrb 0x110 bytes

/-- `GETST`. -/
def getSt : List Turn := rdb 0x100 16

/-- `PUT bytes`. -/
def put (bytes : List Byte) : List Turn :=
  wrb 0x10000 bytes ++ wr32 0x18 (lengthWord bytes.length)

/-- `GET n`. -/
def get (n : Nat) : List Turn := rdb 0x20000 n

/-- `SETBN s, bytes`. -/
def setBn (i : Slot) (bytes : List Byte) : List Turn :=
  wrb (0x1000 + 0x400 * i.val) bytes ++ wr32 (0x40 + 4 * i.val) (lengthWord bytes.length)

/-- `CLRDONE`. -/
def clrDone : List Turn := wr32 0x10 2

/-- `CLRERR`. -/
def clrErr : List Turn := wr32 0x10 4

/-- `SRST`. -/
def srst : List Turn := wr32 0x0C 1

/-- The state after one turn. -/
def afterTurn (s : State) (t : Turn) : State :=
  match t with
  | .host act => hostAct s act
  | .engine =>
    match engineTurn s with
    | .next u => u
    | .fault _ => s
    | .refused _ => s

/-- The state after a script, and the answers the host got, oldest first. -/
def runScript : List Turn → State → State × List Response
  | [], s => (s, [])
  | t :: ts, s =>
    let s1 := afterTurn s t
    let rest := runScript ts s1
    match t, s1.response with
    | .host _, some r => (rest.1, r :: rest.2)
    | _, _ => rest

/-- The bytes among the answers. -/
def bytesRead (rs : List Response) : List Byte :=
  rs.filterMap fun r => match r with
    | .byte b => some b
    | .word _ | .written | .busFault => none

/-- `GETBN s`: the length, then that many bytes. -/
def getBn (i : Slot) (s : State) : List Byte :=
  match (runScript (rd32 (0x40 + 4 * i.val)) s).2 with
  | .word n :: _ => bytesRead (runScript (rdb (0x1000 + 0x400 * i.val) n.toNat) s).2
  | _ => []

/-! ### Call contracts (R211) -/

/-- The end of a call: the typed failure is `ERRCODE`, which the host then clears; else the result. -/
def endCall (get : State → List Byte) (s : State) : State × Except Byte (List Byte) :=
  if s.err then ((runScript clrErr s).1, .error s.errCode) else (s, .ok (get s))

/-- `publicEncryptSymmetricKey(key, n, e)`. -/
def publicEncrypt (key n e : List Byte) (s : State) : State × Except Byte (List Byte) :=
  endCall (getBn Slot.y)
    (runScript (setBn Slot.a key ++ setBn Slot.n n ++ setBn Slot.e e ++ run .rsaenc) s).1

/-- The key of the M-RSA scheme (R180). -/
structure TriplePrimeKey where
  n : Nat
  e : Nat
  d : Nat
  p : Nat
  q : Nat
  r : Nat
  deriving DecidableEq, Repr

/-- The invariants of a key (R180). -/
structure TriplePrimeKey.Valid (k : TriplePrimeKey) : Prop where
  prime_p : k.p.Prime
  prime_q : k.q.Prime
  prime_r : k.r.Prime
  distinct : k.p ≠ k.q ∧ k.p ≠ k.r ∧ k.q ≠ k.r
  modulus : k.n = k.p * k.q * k.r
  exponent : k.e = Config.eFixed
  inverse : k.e * k.d % ((k.p - 1) * (k.q - 1) * (k.r - 1)) =
    1 % ((k.p - 1) * (k.q - 1) * (k.r - 1))

/-- `privateDecryptSymmetricKey(bytes, privateKey)`, with the re-padding of R210. -/
def privateDecrypt (bytes : List Byte) (k : TriplePrimeKey) (s : State) :
    State × Except Byte (List Byte) :=
  endCall (fun t => repadKey (getBn Slot.y t))
    (runScript (setBn Slot.a bytes ++ setBn Slot.n (beBytes k.n) ++ setBn Slot.d (beBytes k.d) ++
      setBn Slot.p (beBytes k.p) ++ setBn Slot.q (beBytes k.q) ++ setBn Slot.r (beBytes k.r) ++
      run .rsadec) s).1

/-- The two chaining disciplines, between which callers select (R211, R268). -/
inductive Mode where
  | counter
  | chained
  deriving DecidableEq, Repr

/-- The two directions of a bulk call (R211). -/
inductive Direction where
  | encrypt
  | decrypt
  deriving DecidableEq, Repr

/-- The command of a mode and a direction: `CTR` both ways, or `CBCE` and `CBCD` (R211). -/
def Mode.command : Mode → Direction → Instr
  | .counter, .encrypt => .ctr
  | .counter, .decrypt => .ctr
  | .chained, .encrypt => .cbce
  | .chained, .decrypt => .cbcd

/-- The script of a bulk call on a buffer of at most `BUF_BYTES`: key, IV, input, command, output
(R211). -/
def bulk (i : Instr) (data key : List Byte) (iv : Block) (s : State) :
    State × Except Byte (List Byte) :=
  endCall (fun t => bytesRead (runScript (get data.length) t).2)
    (runScript (loadKey key ++ setIv iv.toList ++ put data ++ run i) s).1

/-- A byte string cut into pieces, piece `k` of `size k` bytes, the last of what is left. -/
def cutPieces (size : Nat → Nat) : (fuel k : Nat) → (data : List Byte) → List (List Byte)
  | 0, _, _ => []
  | fuel + 1, k, data =>
    if data = [] then []
    else data.take (size k) :: cutPieces size fuel (k + 1) (data.drop (size k))

/-- The pieces in which a buffer is processed: the buffer itself, or, when it is longer than
`BUF_BYTES`, pieces of a multiple of 16 bytes, the last of any length (R211). -/
def bulkPieces (data : List Byte) : List (List Byte) :=
  if data.length ≤ Config.bufBytes then [data]
  else cutPieces Config.pieceBytes data.length 0 data

/-- The `IV` of a piece (R211): in counter mode the counter block of its first block index, in chained
mode the last ciphertext block of the piece before (`IV` itself for the first). -/
def pieceIv (m : Mode) (iv0 : Block) (firstBlock : Nat) (prev : Block) : Block :=
  match m with
  | .counter => counterBlock iv0 firstBlock
  | .chained => prev

/-- The last 16 bytes of a byte string. -/
def lastBlock (bs : List Byte) : Block := blockOf (bs.drop (bs.length - 16))

/-- The last ciphertext block of a piece: of its output when it was encrypted, of its input when it was
decrypted (R211). -/
def lastCipherBlock (d : Direction) (input output : List Byte) : Block :=
  match d with
  | .encrypt => lastBlock output
  | .decrypt => lastBlock input

/-- The pieces one after another, each a bulk call; the first failure ends the call (R211).
`firstBlock` is the index of the first block of the pieces to come, `prev` the ciphertext block before
it. -/
def bulkLoop (m : Mode) (d : Direction) (key : List Byte) (iv0 : Block) :
    (pieces : List (List Byte)) → (firstBlock : Nat) → (prev : Block) → State →
      State × Except Byte (List Byte)
  | [], _, _, s => (s, .ok [])
  | x :: xs, firstBlock, prev, s =>
    match bulk (m.command d) x key (pieceIv m iv0 firstBlock prev) s with
    | (t, .error c) => (t, .error c)
    | (t, .ok out) =>
      match bulkLoop m d key iv0 xs (firstBlock + x.length / 16) (lastCipherBlock d x out) t with
      | (u, .error c) => (u, .error c)
      | (u, .ok rest) => (u, .ok (out ++ rest))

/-- `bulkEncrypt(plaintext, key, iv)`, of a buffer of any length (R211). -/
def bulkEncrypt (m : Mode) (plaintext key : List Byte) (iv : Block) (s : State) :
    State × Except Byte (List Byte) :=
  bulkLoop m .encrypt key iv (bulkPieces plaintext) 0 iv s

/-- `bulkDecrypt(ciphertext, key, iv)`, of a buffer of any length (R211). -/
def bulkDecrypt (m : Mode) (ciphertext key : List Byte) (iv : Block) (s : State) :
    State × Except Byte (List Byte) :=
  bulkLoop m .decrypt key iv (bulkPieces ciphertext) 0 iv s

/-! ### Key generation (R208, R209) -/

/-- What a draw of three primes meets (R208, R209): pairwise distinct, two of `bitLength div 3` bits, and
the third such that the product has `bitLength` bits. -/
structure DrawFits (bitLength p q r : Nat) : Prop where
  primes : p.Prime ∧ q.Prime ∧ r.Prime
  distinct : p ≠ q ∧ p ≠ r ∧ q ≠ r
  sizes : bitLen p = bitLength / 3 ∧ bitLen q = bitLength / 3
  product : bitLen (p * q * r) = bitLength

/-- One draw for a key of `bitLength` bits. How the primes are drawn is in no source (log entry 13). -/
structure KeyDraw (bitLength : Nat) where
  p : Nat
  q : Nat
  r : Nat
  fits : DrawFits bitLength p q r

/-- All that may be relied on of a generated key (R209): pairwise distinct primes and `bitlen(n)`. The
sizes of the three primes are no part of it. -/
structure TriplePrimeKey.OfBitLength (bitLength : Nat) (k : TriplePrimeKey) : Prop where
  primes : k.p.Prime ∧ k.q.Prime ∧ k.r.Prime
  distinct : k.p ≠ k.q ∧ k.p ≠ k.r ∧ k.q ≠ k.r
  length : bitLen k.n = bitLength

/-- `generateKey(bitLength)`, one attempt for each draw, at most `retries` of them: the draws are an
input. Retries on `NonInvertibleModulus` alone (R208). -/
def generateKey {bitLength : Nat} : (retries : Nat) → (draws : List (KeyDraw bitLength)) → State →
    State × Except Byte TriplePrimeKey
  | 0, _, s => (s, .error ErrorKind.nonInvertibleModulus.code)
  | _ + 1, [], s => (s, .error ErrorKind.nonInvertibleModulus.code)
  | retries + 1, ⟨p, q, r, _⟩ :: draws, s =>
    let t := (runScript (setBn Slot.p (beBytes p) ++ setBn Slot.q (beBytes q) ++
      setBn Slot.r (beBytes r) ++ run .rsamk) s).1
    if t.err then
      let u := (runScript clrErr t).1
      if t.errCode = ErrorKind.nonInvertibleModulus.code then generateKey retries draws u
      else (u, .error t.errCode)
    else
      (t, .ok { n := beNat (getBn Slot.n t), e := beNat (getBn Slot.e t), d := beNat (getBn Slot.d t),
                p := p, q := q, r := r })

/-- `generateKeypair(bits)` of this host (R208, R211): the bound is `KEYGEN_RETRIES`. -/
def generateKeypair (bits : Nat) (draws : List (KeyDraw bits)) (s : State) :
    State × Except Byte TriplePrimeKey :=
  generateKey Config.keygenRetries draws s

/-! ### Flows (R217, R218) -/

/-- The sender's flow once the peer's `(n, e)` is known: pad, encrypt, wrap the key, build the frame
(R217). -/
def sendTo (m : Mode) (n e plaintext key : List Byte) (iv : Block) (s : State) :
    State × Except Byte (List Byte) :=
  match bulkEncrypt m (addPadding plaintext 16) key iv s with
  | (t, .error c) => (t, .error c)
  | (t, .ok encData) =>
    match publicEncrypt key n e t with
    | (u, .error c) => (u, .error c)
    | (u, .ok encKey) => (u, .ok (payloadFrame { iv := iv, encKey := encKey, encData := encData }))

/-- The sender's flow (R217): the peer's `(n, e)` from its key-exchange frame, a symmetric key and an IV
drawn for this message, and a message. None when the bytes are no key-exchange frame: then there is no
peer's key to send to. -/
def sendMessage (m : Mode) (keyExchange plaintext key : List Byte) (iv : Block) (s : State) :
    Option (State × Except Byte (List Byte)) :=
  (readKeyExchange keyExchange).map fun peer => sendTo m peer.1 peer.2 plaintext key iv s

/-- The receiver's start-up (R218): a key pair, and the key-exchange frame to send, with `(n, e)` alone
(R206, R219). -/
def receiverStart (bits : Nat) (draws : List (KeyDraw bits)) (s : State) :
    State × Except Byte (TriplePrimeKey × List Byte) :=
  match generateKeypair bits draws s with
  | (t, .error c) => (t, .error c)
  | (t, .ok k) => (t, .ok (k, keyExchangeFrame k.n k.e))

/-- The receiver's flow for the record of one frame: unwrap the key, decrypt, remove the padding
(R218). -/
def receivePayload (m : Mode) (f : Payload) (k : TriplePrimeKey) (s : State) :
    State × Except Byte (List Byte) :=
  match privateDecrypt f.encKey k s with
  | (t, .error c) => (t, .error c)
  | (t, .ok key) =>
    match bulkDecrypt m f.encData key f.iv t with
    | (u, .error c) => (u, .error c)
    | (u, .ok padded) =>
      match removePadding padded with
      | .ok plaintext => (u, .ok plaintext)
      | .error e => (u, .error e.code)

/-- The receiver's flow for one payload frame (R218). None when the bytes are no whole frame, which R207
excludes: the fields are "already fully received". -/
def receiveMessage (m : Mode) (frame : List Byte) (k : TriplePrimeKey) (s : State) :
    Option (State × Except Byte (List Byte)) :=
  (readPayload frame).map fun f => receivePayload m f k s

end Sys2Proof.Machine
end

