-- ==== Sys2Proof/Safety.lean ====
section
/-! DEFINITION. What counts as a sound state and a safe run, in the terms of the statements. -/

namespace Sys2Proof

open Machine

/-- The bits 1 to 9 that `ERRCODE` may hold when the engine sets it (R231): every kind but the host's
`InvalidPadding` and `MalformedHex`. -/
def engineErrorCode (c : Byte) : Prop :=
  ∃ e : ErrorKind, e ≠ .invalidPadding ∧ e ≠ .malformedHex ∧ c = e.code

/-- At most one of `BUSY`, `DONE`, `ERR` is 1 (R35). -/
def OneStatusFlag (s : State) : Prop :=
  (s.busy = true → s.done = false ∧ s.err = false) ∧ (s.done = true → s.err = false)

/-- `ERRCODE` is 0 exactly when `ERR` is 0, and otherwise a code the engine sets (R35, R231). -/
def ErrCodeFits (s : State) : Prop :=
  (s.err = false → s.errCode = 0) ∧ (s.err = true → engineErrorCode s.errCode)

/-- `RK` is all zero while `KEYVALID` is 0, and some key's expansion while it is 1 (R25). -/
def RoundKeysFit (s : State) : Prop :=
  (s.keyValid = false → s.rk = Vector.replicate 8 (Vector.replicate 16 0)) ∧
  (s.keyValid = true → ∃ key, s.rk = expandKey Config.cipher key)

/-- The word in flight is a legal one, and is what `LASTCMD` holds (R36). -/
def InFlightFits (s : State) : Prop :=
  ∀ w, s.inFlight = some w → s.lastCmd = w ∧ ∃ i, decode w = .ok i

/-- The invariant of the engine. -/
structure Sound (s : State) : Prop where
  memWf : Memory.wf s.mem
  oneFlag : OneStatusFlag s
  errCode : ErrCodeFits s
  roundKeys : RoundKeysFit s
  inFlight : InFlightFits s

/-- States that a run can reach from reset, whatever the outside world does: its turns may be set anew at
any time. -/
inductive Reachable : State → Prop where
  | reset : Reachable State.reset
  | turns {s : State} (ts : List Turn) (h : Reachable s) : Reachable { s with agenda := ts }
  | step {s t : State} (h : Reachable s) (hs : Machine.step s = .next t) : Reachable t

/-! ### Outcomes and frames, as the statements name them -/

namespace Machine

/-- The command faults with code `c`: `BUSY` falls, `ERR` and `ERRCODE` are set, nothing else (R236). -/
def FaultsWith (i : Instr) (s : State) (c : Byte) : Prop :=
  exec i s = .next { s with inFlight := none, err := true, errCode := c }

/-- What every completed command has in common: `BUSY` 0, `DONE` 1 (R36), and the state that no command
writes as it was: `IV`, `KEY`, `LEN`, `KEYLEN`, `CTRL`, `LASTCMD`, `ERR`, and the model's own fields. -/
structure Completes (s t : State) : Prop where
  inFlight : t.inFlight = none
  done : t.done = true
  err : t.err = s.err
  errCode : t.errCode = s.errCode
  iv : t.iv = s.iv
  key : t.key = s.key
  len : t.len = s.len
  keyLen : t.keyLen = s.keyLen
  ienDone : t.ienDone = s.ienDone
  ienErr : t.ienErr = s.ienErr
  lastCmd : t.lastCmd = s.lastCmd
  agenda : t.agenda = s.agenda
  response : t.response = s.response
  freeSeed : t.freeSeed = s.freeSeed

/-- Every byte of memory reads as before. -/
def SameMemory (s t : State) : Prop := ∀ a, t.readByte a = s.readByte a

/-- The frame of a block command (R110): `ST` may change. -/
structure BlockFrame (s t : State) : Prop where
  completes : Completes s t
  rk : t.rk = s.rk
  keyValid : t.keyValid = s.keyValid
  bnLen : t.bnLen = s.bnLen
  memory : SameMemory s t

/-- The frame of a chaining command on `n` bytes (R150): `OBUF[0 .. n-1]` may change. -/
structure ChainFrame (s t : State) (n : Nat) : Prop where
  completes : Completes s t
  st : t.st = s.st
  rk : t.rk = s.rk
  keyValid : t.keyValid = s.keyValid
  bnLen : t.bnLen = s.bnLen
  memory : ∀ a, a < obufBase ∨ obufBase + n ≤ a → t.readByte a = s.readByte a

/-- The frame of a big-integer or M-RSA command that writes the slots `ws` (R168). -/
structure SlotFrame (s t : State) (ws : List Slot) : Prop where
  completes : Completes s t
  st : t.st = s.st
  rk : t.rk = s.rk
  keyValid : t.keyValid = s.keyValid
  bnLen : ∀ i : Slot, i ∉ ws → t.bnLen[i] = s.bnLen[i]
  memory : ∀ a, (∀ i ∈ ws, a < bnBase i ∨ bnBase i + Config.bnBytes ≤ a) →
    t.readByte a = s.readByte a

/-- Slot `i` can be read and holds `v`: `BNLEN[i] <= BN_BYTES`, and the first `BNLEN[i]` data bytes are
big-endian `v` (R27, R160). -/
def SlotValue (s : State) (i : Slot) (v : Nat) : Prop :=
  (s.bnLen[i]).toNat ≤ Config.bnBytes ∧
    beNat ((List.range (s.bnLen[i]).toNat).map fun j => s.readByte (bnBase i + j)) = v

/-- Slot `i` holds a number (R27). -/
def SlotReadable (s : State) (i : Slot) : Prop := (s.bnLen[i]).toNat ≤ Config.bnBytes

/-- Slot `i` was written with `v`: the length and bytes of the canonical encoding, then zero bytes up to
`BN_BYTES` (R161). -/
def SlotWritten (t : State) (i : Slot) (v : Nat) : Prop :=
  (t.bnLen[i]).toNat = (beBytes v).length ∧
    ∀ j, j < Config.bnBytes → t.readByte (bnBase i + j) = (beBytes v).getD j 0

/-- Commands carried out one after another, each on the state the one before left. -/
def execAll : List Instr → State → Host.Outcome State Fault Refusal
  | [], s => .next s
  | i :: is, s =>
    match exec i s with
    | .next t => execAll is t
    | .fault r => .fault r
    | .refused r => .refused r

/-- One full round of encryption as primitive commands (R132). -/
def encRoundCommands (r : Nat) : List Instr := [.subb, .shrow, .mixc, .ark r]

/-- The 28 primitive commands that `ENCB` equals (R132). -/
def encCommands : List Instr :=
  [.ark 0] ++ [1, 2, 3, 4, 5, 6].flatMap encRoundCommands ++ [.subb, .shrow, .ark 7]

/-- One full round of decryption as primitive commands (R134). -/
def decRoundCommands (r : Nat) : List Instr := [.ark r, .imixc, .ishrow, .isubb]

/-- The 28 primitive commands that `DECB` equals (R134). -/
def decCommands : List Instr :=
  [.ark 7, .ishrow, .isubb] ++ [6, 5, 4, 3, 2, 1].flatMap decRoundCommands ++ [.ark 0]

/-- The six commands that read the round keys (R40). -/
def readsRoundKeys : Instr → Bool
  | .ark _ | .encb | .decb | .ctr | .cbce | .cbcd => true
  | .nop | .subb | .isubb | .shrow | .ishrow | .mixc | .imixc | .ldkey => false
  | .bnmul | .bnmod | .bnmodexp | .bnmodinv | .rsamk | .rsaenc | .rsadec => false

/-- The source slots of a command, in increasing slot number (R160, R163 to R183). -/
def sourceSlots : Instr → List Slot
  | .bnmul => [Slot.a, Slot.b]
  | .bnmod => [Slot.a, Slot.m]
  | .bnmodexp => [Slot.a, Slot.b, Slot.m]
  | .bnmodinv => [Slot.a, Slot.m]
  | .rsamk => [Slot.p, Slot.q, Slot.r]
  | .rsaenc => [Slot.a, Slot.n, Slot.e]
  | .rsadec => [Slot.a, Slot.n, Slot.d, Slot.p, Slot.q, Slot.r]
  | .nop | .subb | .isubb | .shrow | .ishrow | .mixc | .imixc | .ark _ => []
  | .ldkey | .encb | .decb | .ctr | .cbce | .cbcd => []

/-- A state in which the next turn is a host action. -/
def actsNext (s : State) (act : HostAction) (rest : List Turn) : State :=
  { s with agenda := .host act :: rest }

end Machine

end Sys2Proof
end

