-- ==== Sys2Proof/WellFormed.lean ====
section
/-! DEFINITION. Which terms of `Instr` are commands of the engine: the index of `ARK` selects one of
the `NRK` = 8 round keys (30_encoding.md rule R92); nothing else can be ill-formed. -/

namespace Sys2Proof

/-- A command whose operand the encoding admits (R90, R92). -/
def Instr.wellFormed : Instr → Bool
  | .ark k => decide (k < Config.nrk)
  | .nop | .subb | .isubb | .shrow | .ishrow | .mixc | .imixc => true
  | .ldkey | .encb | .decb | .ctr | .cbce | .cbcd => true
  | .bnmul | .bnmod | .bnmodexp | .bnmodinv | .rsamk | .rsaenc | .rsadec => true

end Sys2Proof
end

