-- ==== Sys2Proof/Certificates/Slice0/Obligations.lean ====
section
/-! DEFINITION. The statements for the provers. -/

open Sys2Proof Sys2Proof.Machine

/-! ### Encoding -/

/-- R91, R95: decoding an encoded well-formed command gives it back, for every command and every index
that the encoding admits. -/
def Obligations.DecodeOfEncode : Prop :=
  ∀ i : Instr, i.wellFormed = true → decode (encode i) = .ok i

/-- R91, R95: each word that decodes is the one encoding of the command it decodes to, and that command
is well-formed. -/
def Obligations.EncodeOfDecode : Prop :=
  ∀ (w : Word) (i : Instr), decode w = .ok i → encode i = w ∧ i.wellFormed = true

/-- R95: the decoder answers a row of R91's table exactly when `(w and mask) = match` for that row, with
the `K` field as the index of `ARK`, and illegal when there is no such row. -/
def Obligations.DecodeSelectsTableRow : Prop :=
  ∀ w : Word,
    (∀ i : Instr, i.wellFormed = true →
      (decode w = .ok i ↔ w &&& i.rowMask = i.rowMatch ∧ (w.extractLsb' 8 3).toNat = i.index)) ∧
    ((∀ i : Instr, i.wellFormed = true →
      ¬ (w &&& i.rowMask = i.rowMatch ∧ (w.extractLsb' 8 3).toNat = i.index)) →
      ∃ e, decode w = .error e)

/-- R93: a word is illegal exactly when it matches no row: its `OP` is none of the 21 listed, or
`w[31:11]` is not 0, or `w[10:8]` is not 0 and `OP` is not 0x07. -/
def Obligations.IllegalWords : Prop :=
  ∀ w : Word,
    ((∃ e, decode w = .error e) ↔
      ∀ i : Instr, i.wellFormed = true → w &&& i.rowMask ≠ i.rowMatch) ∧
    ((∃ e, decode w = .error e) ↔
      w.extractLsb' 0 8 ∉ ([0x00, 0x01, 0x02, 0x03, 0x04, 0x05, 0x06, 0x07, 0x10, 0x11, 0x12, 0x20, 0x21,
          0x22, 0x30, 0x31, 0x32, 0x33, 0x40, 0x41, 0x42] : List (BitVec 8)) ∨
        w.extractLsb' 11 21 ≠ 0 ∨ (w.extractLsb' 8 3 ≠ 0 ∧ w.extractLsb' 0 8 ≠ 0x07))

/-- Vectors V1 to V9 of 95_test_vectors.md: words written out from R91's table. -/
def Obligations.DecodeExamples : Prop :=
  decode 0x00000011 = .ok .encb ∧ decode 0x00000507 = .ok (.ark 5) ∧
  decode 0x00000707 = .ok (.ark 7) ∧ decode 0x00000000 = .ok .nop ∧
  decode 0x00000033 = .ok .bnmodinv ∧ decode 0x00000042 = .ok .rsadec ∧
  decode 0x00000021 = .ok .cbce ∧
  (∀ w ∈ ([0x807, 0x111, 0x008, 0x80000001, 0x043] : List Word), ∃ e, decode w = .error e)

/-! ### The step -/

/-- When the word in flight decodes to a well-formed command, the engine's turn is that command's
meaning. The engine's turn comes when the agenda says so, or is empty: the model's own, log entry 1. -/
def Obligations.StepRunsDecodedCommand : Prop :=
  ∀ (s : State) (w : Word) (i : Instr), s.inFlight = some w → decode w = .ok i →
    i.wellFormed = true →
    (s.agenda = [] → step s = exec i s) ∧
    (∀ rest, s.agenda = .engine :: rest → step s = exec i { s with agenda := rest })

/-- The command word of the opcode table that is put in flight is the one the next step runs. The turns
are the model's own (log entry 1). -/
def Obligations.FetchWordIsRun : Prop :=
  ∀ (s : State) (i : Instr), i.wellFormed = true →
    decodeTableWord 32 (encode i).toNat = some i ∧
    step (s.withFetchWord 32 (encode i).toNat) = exec i { s with inFlight := some (encode i) }

/-- R36 (b): a `CMD` write taken on an engine that is neither busy nor in error sets `LASTCMD` and clears
`DONE`; a legal word is then in flight, an illegal one faults at once with code 5. Turns and answers
are the model's own (log entry 1), here and in every statement about `actsNext`. -/
def Obligations.CommandAcceptance : Prop :=
  ∀ (s : State) (w : Word) (rest : List Turn), s.inFlight = none → s.err = false →
    (∀ i, decode w = .ok i →
      step (actsNext s (.write 0x14 4 w) rest) =
        .next { s with agenda := rest, lastCmd := w, done := false, inFlight := some w,
                       response := some .written }) ∧
    (∀ e, decode w = .error e →
      step (actsNext s (.write 0x14 4 w) rest) =
        .next { s with agenda := rest, lastCmd := w, done := false, inFlight := none, err := true,
                       errCode := 5, response := some .written })

/-- R36 (a): a `CMD` write while `BUSY` or `ERR` is 1 is refused and changes nothing. -/
def Obligations.CommandWriteRefused : Prop :=
  ∀ (s : State) (w : Word) (rest : List Turn), s.inFlight.isSome = true ∨ s.err = true →
    step (actsNext s (.write 0x14 4 w) rest) =
      .next { s with agenda := rest, response := some .busFault }

/-- R14, R270: there is no third outcome. From every state whatever a step answers a next state. That
an empty agenda lets the engine move is the model's choice (log entry 1). -/
def Obligations.StepAlwaysAnswers : Prop :=
  ∀ s : State, ∃ t, step s = .next t

/-- R14: a well-formed command ends in exactly one of two ways: completed, with `DONE` set and the state
that no command writes unchanged, or faulted with one of the codes 1, 3, 6, 7, 8, 9 and nothing else
changed. In states that no run reaches, `DONE` or `ERR` set before stays set (log entry 9). -/
def Obligations.CommandCompletesOrFaults : Prop :=
  ∀ (i : Instr) (s : State), i.wellFormed = true →
    (∃ t, exec i s = .next t ∧ Completes s t) ∨
    (∃ c ∈ ([1, 3, 6, 7, 8, 9] : List Byte), FaultsWith i s c)

/-! ### The invariant -/

/-- Every step keeps the invariant: memory in canonical form, at most one of `BUSY`, `DONE`, `ERR` (R35),
`ERRCODE` fitting `ERR` (R35), `RK` fitting `KEYVALID` (R25), a legal word in flight (R36). -/
def Obligations.StepKeepsSound : Prop :=
  ∀ s t : State, Sound s → step s = .next t → Sound t

/-- R43: the state after reset meets the invariant. -/
def Obligations.ResetIsSound : Prop := Sound State.reset

/-- R35, R25, R42, R241 over every run, whatever the outside world does: at most one of the three status
flags is 1, `ERRCODE` is never 2 or 4, with `KEYVALID` 0 every byte of `RK` is 0, and the interrupt
output is high exactly when `DONE` or `ERR` is 1 with its enable, so never while `BUSY` is 1. -/
def Obligations.ReachableStatus : Prop :=
  ∀ s : State, Reachable s →
    ¬ (s.busy = true ∧ s.done = true) ∧ ¬ (s.busy = true ∧ s.err = true) ∧
    ¬ (s.done = true ∧ s.err = true) ∧ s.errCode ≠ 2 ∧ s.errCode ≠ 4 ∧
    (s.keyValid = false → ∀ (k : Fin 8) (j : Fin 16), s.rk[k][j] = 0) ∧
    (irq s = true ↔ (s.done = true ∧ s.ienDone = true) ∨ (s.err = true ∧ s.ienErr = true)) ∧
    (s.busy = true → irq s = false)

/-! ### Rules over all commands -/

/-- R23, R24, R26, R25: no command writes `IV`, `KEY` or `IBUF`, and none but `LDKEY` writes `RK` or
`KEYVALID`. -/
def Obligations.CommandsKeepInputs : Prop :=
  ∀ (i : Instr) (s t : State), exec i s = .next t →
    t.iv = s.iv ∧ t.key = s.key ∧ t.len = s.len ∧ t.keyLen = s.keyLen ∧
    (∀ a, a < Config.bufBytes → t.readByte (ibufBase + a) = s.readByte (ibufBase + a)) ∧
    (i ≠ .ldkey → t.rk = s.rk ∧ t.keyValid = s.keyValid)

/-- R21, R168: `ST` is written by block commands alone; big-integer and M-RSA commands
write no byte of `OBUF`, and cipher commands write no slot. -/
def Obligations.CommandFamiliesAreSeparate : Prop :=
  ∀ (i : Instr) (s t : State), exec i s = .next t →
    (sourceSlots i ≠ [] → t.st = s.st ∧
      ∀ a, a < Config.bufBytes → t.readByte (obufBase + a) = s.readByte (obufBase + a)) ∧
    (sourceSlots i = [] → t.bnLen = s.bnLen ∧
      ∀ (b : Slot) (j : Nat), j < Config.bnBytes →
        t.readByte (bnBase b + j) = s.readByte (bnBase b + j))

/-- R231, R117, R132, R134, R140, R237: the six commands that read the round keys fault with `NoKey`, code
6, while `KEYVALID` is 0, whatever else is wrong. -/
def Obligations.NoKeyFault : Prop :=
  ∀ (i : Instr) (s : State), i.wellFormed = true → readsRoundKeys i = true → s.keyValid = false →
    FaultsWith i s 6

/-- R160, R168: a command with a source slot longer than `BN_BYTES` faults with `BadLength`, code 7, before
any other check. -/
def Obligations.SlotLengthFault : Prop :=
  ∀ (i : Instr) (s : State) (b : Slot), b ∈ sourceSlots i → ¬ SlotReadable s b → FaultsWith i s 7

/-! ### Block commands -/

/-- R136: `NOP` changes no data state and completes. -/
def Obligations.NopCompletes : Prop :=
  encode .nop = 0x00000000 ∧
  ∀ s : State, ∃ t, exec .nop s = .next t ∧ t.st = s.st ∧ BlockFrame s t

/-- R111, R112: `SUBB` and `ISUBB` substitute each byte of `ST` by `SBOX` and `INV_SBOX`; each undoes the
other. -/
def Obligations.SubstitutionCommands : Prop :=
  encode .subb = 0x00000001 ∧ encode .isubb = 0x00000002 ∧
  ∀ s : State,
    (∃ t, exec .subb s = .next t ∧ BlockFrame s t ∧
      (∀ k : Fin 16, t.st[k] = Config.cipher.sbox s.st[k]) ∧
      ∃ u, exec .isubb t = .next u ∧ u.st = s.st) ∧
    (∃ t, exec .isubb s = .next t ∧ BlockFrame s t ∧
      (∀ k : Fin 16, t.st[k] = Config.cipher.invSbox s.st[k]) ∧
      ∃ u, exec .subb t = .next u ∧ u.st = s.st)

/-- R113, R114: the two row rotations as permutations of byte indices; each undoes the other; with
`SHIFT_DIR` to the right the two formulas swap. -/
def Obligations.RowRotationCommands : Prop :=
  encode .shrow = 0x00000003 ∧ encode .ishrow = 0x00000004 ∧
  ∀ s : State,
    (∃ t, exec .shrow s = .next t ∧ BlockFrame s t ∧
      (∀ r c : Fin 4, t.st[r.val + 4 * c.val] = s.st[r.val + 4 * ((c.val + r.val) % 4)]) ∧
      t.st = #v[s.st[0], s.st[5], s.st[10], s.st[15], s.st[4], s.st[9], s.st[14], s.st[3],
        s.st[8], s.st[13], s.st[2], s.st[7], s.st[12], s.st[1], s.st[6], s.st[11]] ∧
      ∃ u, exec .ishrow t = .next u ∧ u.st = s.st) ∧
    (∃ t, exec .ishrow s = .next t ∧ BlockFrame s t ∧
      (∀ r c : Fin 4, t.st[r.val + 4 * ((c.val + r.val) % 4)] = s.st[r.val + 4 * c.val]) ∧
      t.st = #v[s.st[0], s.st[13], s.st[10], s.st[7], s.st[4], s.st[1], s.st[14], s.st[11],
        s.st[8], s.st[5], s.st[2], s.st[15], s.st[12], s.st[9], s.st[6], s.st[3]] ∧
      ∃ u, exec .shrow t = .next u ∧ u.st = s.st) ∧
    ∀ (o : Config.OpenCipher) (x : Block) (r c : Fin 4),
      (shiftRows { o with shiftDir := .right } x)[r.val + 4 * ((c.val + r.val) % 4)] =
        x[r.val + 4 * c.val] ∧
      (invShiftRows { o with shiftDir := .right } x)[r.val + 4 * c.val] =
        x[r.val + 4 * ((c.val + r.val) % 4)]

/-- R115, R116: `MIXC` and `IMIXC` apply `MIXCOL` and `INV_MIXCOL` to each column, independently; each
undoes the other; the zero block is its own image. -/
def Obligations.ColumnMixCommands : Prop :=
  encode .mixc = 0x00000005 ∧ encode .imixc = 0x00000006 ∧
  ∀ s : State,
    (∃ t, exec .mixc s = .next t ∧ BlockFrame s t ∧
      (∀ c r : Fin 4, t.st[4 * c.val + r.val] = (Config.cipher.mixcol
        #v[s.st[4 * c.val], s.st[4 * c.val + 1], s.st[4 * c.val + 2], s.st[4 * c.val + 3]])[r]) ∧
      (s.st = Vector.replicate 16 0 → t.st = Vector.replicate 16 0) ∧
      ∃ u, exec .imixc t = .next u ∧ u.st = s.st) ∧
    (∃ t, exec .imixc s = .next t ∧ BlockFrame s t ∧
      (∀ c r : Fin 4, t.st[4 * c.val + r.val] = (Config.cipher.invMixcol
        #v[s.st[4 * c.val], s.st[4 * c.val + 1], s.st[4 * c.val + 2], s.st[4 * c.val + 3]])[r]) ∧
      (s.st = Vector.replicate 16 0 → t.st = Vector.replicate 16 0) ∧
      ∃ u, exec .mixc t = .next u ∧ u.st = s.st)

/-- R117: `ARK k` combines `ST` with `RK[k]`; twice restores `ST`; without a key it faults with code 6. -/
def Obligations.RoundKeyCommand : Prop :=
  ∀ (s : State) (k : Fin 8),
    encode (.ark k.val) = 0x00000007 + 0x100 * BitVec.ofNat 32 k.val ∧
    (s.keyValid = true →
      ∃ t, exec (.ark k.val) s = .next t ∧ BlockFrame s t ∧
        (∀ j : Fin 16, t.st[j] = s.st[j] ^^^ s.rk[k][j]) ∧
        ∃ u, exec (.ark k.val) t = .next u ∧ u.st = s.st) ∧
    (s.keyValid = false → FaultsWith (.ark k.val) s 6)

/-- R92: a term `ARK k` with an index above `NR` is no command: no word decodes to it. That `exec` refuses
it is the model's choice (log entry 8). -/
def Obligations.IndexAboveNrIsNoCommand : Prop :=
  ∀ (s : State) (k : Nat), 8 ≤ k →
    (Instr.ark k).wellFormed = false ∧ exec (.ark k) s = .refused .illFormedIndex ∧
    ∀ w : Word, decode w ≠ .ok (.ark k)

/-- R119: the block functions are mutually inverse pairs, `AddRoundKey` is its own inverse, and the row
rotations commute with the substitutions, for every cipher configuration. -/
def Obligations.BlockFunctionLaws : Prop :=
  ∀ (c : Config.Cipher) (s rk : Block),
    (invSubBytes c (subBytes c s) = s ∧ subBytes c (invSubBytes c s) = s) ∧
    (invShiftRows c (shiftRows c s) = s ∧ shiftRows c (invShiftRows c s) = s) ∧
    (invMixColumns c (mixColumns c s) = s ∧ mixColumns c (invMixColumns c s) = s) ∧
    addRoundKey (addRoundKey s rk) rk = s ∧
    shiftRows c (subBytes c s) = subBytes c (shiftRows c s) ∧
    invShiftRows c (invSubBytes c s) = invSubBytes c (invShiftRows c s)

/-- R135, the primary invariant of the cipher: block encryption and decryption are exact inverses of each
other for every configuration, either direction of rotation, every expanded key and every block; `ENCB`
and then `DECB` restores `ST`. -/
def Obligations.BlockCipherInverse : Prop :=
  ∀ (c : Config.Cipher) (rk : RoundKeys) (x : Block),
    (decryptBlock c rk (encryptBlock c rk x) = x ∧ encryptBlock c rk (decryptBlock c rk x) = x) ∧
    ∀ s : State, s.keyValid = true →
      ∃ t u, exec .encb s = .next t ∧ exec .decb t = .next u ∧ u.st = s.st

/-- R130: `LDKEY` with `KEYLEN` = 16 puts the expansion of `KEY` in `RK` and sets `KEYVALID`; with any
other `KEYLEN` it faults with code 1. -/
def Obligations.LoadKeyCommand : Prop :=
  encode .ldkey = 0x00000010 ∧
  ∀ s : State,
    (s.keyLen = 0x00000010 → ∃ t, exec .ldkey s = .next t ∧ Completes s t ∧
      (∀ k : Fin 8, t.rk[k] = (Config.cipher.expand s.key 7)[k]) ∧ t.keyValid = true ∧
      t.st = s.st ∧ t.bnLen = s.bnLen ∧ SameMemory s t) ∧
    (s.keyLen ≠ 0x00000010 → FaultsWith .ldkey s 1)

/-- R132, R134, R135: with a key, `ENCB` and `DECB` replace `ST` by its encryption and its decryption
under `RK`, and each restores what the other did. -/
def Obligations.BlockCipherCommands : Prop :=
  ∀ s : State, s.keyValid = true →
    (∃ t, exec .encb s = .next t ∧ t.st = encryptBlock Config.cipher s.rk s.st ∧ BlockFrame s t ∧
      ∃ u, exec .decb t = .next u ∧ u.st = s.st) ∧
    (∃ t, exec .decb s = .next t ∧ t.st = decryptBlock Config.cipher s.rk s.st ∧ BlockFrame s t ∧
      ∃ u, exec .encb t = .next u ∧ u.st = s.st)

/-- R137: with a key, the 28 primitive commands of R132 end in the state that `ENCB` ends in, and those of
R134 in the state that `DECB` ends in. -/
def Obligations.PrimitivesRefineBlockCipher : Prop :=
  encCommands.length = 28 ∧ decCommands.length = 28 ∧
  ∀ s : State, s.keyValid = true →
    execAll encCommands s = exec .encb s ∧ execAll decCommands s = exec .decb s

/-! ### Chaining modes -/

/-- R143: the counter block of index `i` is `IV` plus `i` as a big-endian 128-bit integer that wraps. -/
def Obligations.CounterBlockValue : Prop :=
  ∀ (iv : Block) (i : Nat),
    beNat (counterBlock iv i).toList = (beNat iv.toList + i) % 2 ^ 128

/-- R144, R150: `CTR` with a key and `LEN <= 65536` combines each input byte with the keystream of its
block, and changes no other byte and no other register. -/
def Obligations.CounterModeCommand : Prop :=
  encode .ctr = 0x00000020 ∧
  ∀ s : State, s.keyValid = true → s.len.toNat ≤ 65536 →
    ∃ t, exec .ctr s = .next t ∧ ChainFrame s t s.len.toNat ∧
      ∀ (i : Nat) (j : Fin 16), 16 * i + j.val < s.len.toNat →
        t.readByte (obufBase + (16 * i + j.val)) =
          s.readByte (ibufBase + (16 * i + j.val)) ^^^
            (encryptBlock Config.cipher s.rk (counterBlock s.iv i))[j]

/-- R145, R148, R150: `CBCE` with a key and a legal length encrypts each input block combined with the
ciphertext block before it, or with `IV` for block 0, and changes nothing else. -/
def Obligations.ChainedEncryptCommand : Prop :=
  encode .cbce = 0x00000021 ∧
  ∀ s : State, s.keyValid = true → s.len.toNat ≤ 65536 → s.len.toNat % 16 = 0 →
    ∃ t, exec .cbce s = .next t ∧ ChainFrame s t s.len.toNat ∧
      ∃ out : Nat → Block,
        (∀ i, i < s.len.toNat / 16 →
          out i = encryptBlock Config.cipher s.rk
            (xorBytes (ibufBlock s i) (if i = 0 then s.iv else out (i - 1)))) ∧
        ∀ (i : Nat) (j : Fin 16), i < s.len.toNat / 16 →
          t.readByte (obufBase + (16 * i + j.val)) = (out i)[j]

/-- R146, R150: `CBCD` with a key and a legal length decrypts each input block and combines it with the
raw ciphertext block before it, or with `IV` for block 0, and changes nothing else. -/
def Obligations.ChainedDecryptCommand : Prop :=
  encode .cbcd = 0x00000022 ∧
  ∀ s : State, s.keyValid = true → s.len.toNat ≤ 65536 → s.len.toNat % 16 = 0 →
    ∃ t, exec .cbcd s = .next t ∧ ChainFrame s t s.len.toNat ∧
      ∀ (i : Nat) (j : Fin 16), i < s.len.toNat / 16 →
        t.readByte (obufBase + (16 * i + j.val)) =
          (decryptBlock Config.cipher s.rk (ibufBlock s i))[j] ^^^
            (if i = 0 then s.iv else ibufBlock s (i - 1))[j]

/-- R140: with a key, a `LEN` above `BUF_BYTES`, or for the chained modes one that is no multiple of 16,
faults with code 7. -/
def Obligations.ChainLengthFaults : Prop :=
  ∀ s : State, s.keyValid = true →
    (65536 < s.len.toNat → FaultsWith .ctr s 7) ∧
    (65536 < s.len.toNat ∨ s.len.toNat % 16 ≠ 0 → FaultsWith .cbce s 7 ∧ FaultsWith .cbcd s 7)

/-- R141, R142: the worker counts, `W = min(HW_PAR, W_MAX, nblk)` for `CTR` and `CBCD` with `W_MAX` = 4, and
`W = min(1, nblk)` for `CBCE`; the ranges of the default partition; and with these worker counts it
meets the law of partitions. -/
def Obligations.DefaultPartitionLawful : Prop :=
  ∀ nblk hwPar : Nat,
    workerCount hwPar nblk = min hwPar (min 4 nblk) ∧ cbceWorkerCount nblk = min 1 nblk ∧
    (∀ w v, v < w → (defaultPartition nblk w)[v]? =
      some (v * (nblk / w) + min v (nblk % w),
        v * (nblk / w) + min v (nblk % w) + (nblk / w) + (if v < nblk % w then 1 else 0))) ∧
    (1 ≤ nblk →
      (1 ≤ hwPar → 1 ≤ workerCount hwPar nblk ∧
        LawfulPartition nblk (workerCount hwPar nblk)
          (defaultPartition nblk (workerCount hwPar nblk))) ∧
      LawfulPartition nblk (cbceWorkerCount nblk) (defaultPartition nblk (cbceWorkerCount nblk)))

/-- R147: whatever the worker count, the partition its law admits and the interleaving of the workers,
writing block by block, each step reading the state that the steps before it left, leaves every byte of
memory as the one sequential loop of the command does: for `CTR` on every legal `LEN`, for `CBCD` on
every legal multiple of 16. -/
def Obligations.WorkersDoNotMatter : Prop :=
  ∀ (s : State) (n w : Nat) (rs : List (Nat × Nat)) (order : List Nat), n ≤ 65536 →
    LawfulPartition (ceil16 n) w rs → Interleaving (rs.map rangeBlocks) order →
    SameMemory (s.writeBytes obufBase (ctrOutput Config.cipher s n))
      (writeBlocks (fun t i => ctrStep Config.cipher t n i) order s) ∧
    (n % 16 = 0 →
      SameMemory (s.writeBytes obufBase (cbcdOutput Config.cipher s n))
        (writeBlocks (fun t i => cbcdStep Config.cipher t i) order s))

/-- R149 for counter mode: `CTR`, its output copied to `IBUF`, and `CTR` again with the same `RK`, `IV` and
`LEN` restores the input, for every `LEN <= BUF_BYTES`. -/
def Obligations.CounterModeRoundTrip : Prop :=
  ∀ s : State, s.keyValid = true → s.len.toNat ≤ 65536 →
    ∃ t, exec .ctr s = .next t ∧
      ∀ s' : State, s'.keyValid = true → s'.rk = s.rk → s'.iv = s.iv → s'.len = s.len →
        (∀ a, a < s.len.toNat → s'.readByte (ibufBase + a) = t.readByte (obufBase + a)) →
        ∃ u, exec .ctr s' = .next u ∧
          ∀ a, a < s.len.toNat → u.readByte (obufBase + a) = s.readByte (ibufBase + a)

/-- R149 for chained mode: `CBCE`, its output copied to `IBUF`, and `CBCD` with the same `RK`, `IV` and
`LEN` restores the input, for every `LEN <= BUF_BYTES` that is a multiple of 16. -/
def Obligations.ChainedModeRoundTrip : Prop :=
  ∀ s : State, s.keyValid = true → s.len.toNat ≤ 65536 → s.len.toNat % 16 = 0 →
    ∃ t, exec .cbce s = .next t ∧
      ∀ s' : State, s'.keyValid = true → s'.rk = s.rk → s'.iv = s.iv → s'.len = s.len →
        (∀ a, a < s.len.toNat → s'.readByte (ibufBase + a) = t.readByte (obufBase + a)) →
        ∃ u, exec .cbcd s' = .next u ∧
          ∀ a, a < s.len.toNat → u.readByte (obufBase + a) = s.readByte (ibufBase + a)

/-! ### Big integers -/

/-- R10, R161: the canonical encoding has the value it encodes, no leading zero byte, and no other byte
string of that value is shorter. -/
def Obligations.CanonicalEncoding : Prop :=
  ∀ v : Nat, beNat (beBytes v) = v ∧ (beBytes v).head? ≠ some 0 ∧
    ∀ bs : List Byte, beNat bs = v → (beBytes v).length ≤ bs.length

/-- R163: `BNMUL` writes the product to `Y`, or faults with code 9 when the product needs more than
`BN_BYTES` bytes. -/
def Obligations.ProductCommand : Prop :=
  encode .bnmul = 0x00000030 ∧
  ∀ (s : State) (a b : Nat), SlotValue s Slot.a a → SlotValue s Slot.b b →
    (a * b < 256 ^ 512 →
      ∃ t, exec .bnmul s = .next t ∧ SlotWritten t Slot.y (a * b) ∧ SlotValue t Slot.y (a * b) ∧
        SlotFrame s t [Slot.y]) ∧
    (256 ^ 512 ≤ a * b → FaultsWith .bnmul s 9)

/-- R164: `BNMOD` writes the remainder to `Y`, or faults with code 8 when the modulus is 0. -/
def Obligations.ReductionCommand : Prop :=
  encode .bnmod = 0x00000031 ∧
  ∀ (s : State) (a m : Nat), SlotValue s Slot.a a → SlotValue s Slot.m m →
    (1 ≤ m → ∃ t, exec .bnmod s = .next t ∧ SlotWritten t Slot.y (a % m) ∧
      SlotValue t Slot.y (a % m) ∧ SlotFrame s t [Slot.y]) ∧
    (m = 0 → FaultsWith .bnmod s 8)

/-- R165: `BNMODEXP` writes `(a ^ b) mod m` to `Y`, for every base and every exponent, or faults with code
8 when the modulus is 0. -/
def Obligations.PowerCommand : Prop :=
  encode .bnmodexp = 0x00000032 ∧
  ∀ (s : State) (a b m : Nat), SlotValue s Slot.a a → SlotValue s Slot.b b → SlotValue s Slot.m m →
    (1 ≤ m → ∃ t, exec .bnmodexp s = .next t ∧ SlotWritten t Slot.y (a ^ b % m) ∧
      SlotValue t Slot.y (a ^ b % m) ∧ SlotFrame s t [Slot.y]) ∧
    (m = 0 → FaultsWith .bnmodexp s 8)

/-- R166, R167: `BNMODINV` writes to `Y` the one inverse of `a` below `m`; it faults with code 3 when `a`
and `m` have a common divisor, and with code 8 when `m` is 0. -/
def Obligations.InverseCommand : Prop :=
  encode .bnmodinv = 0x00000033 ∧
  ∀ (s : State) (a m : Nat), SlotValue s Slot.a a → SlotValue s Slot.m m →
    (1 ≤ m → Nat.gcd (a % m) m = 1 →
      ∃ t y, exec .bnmodinv s = .next t ∧ y < m ∧ a * y % m = 1 % m ∧
        (∀ z, z < m → a * z % m = 1 % m → z = y) ∧ SlotWritten t Slot.y y ∧
        SlotValue t Slot.y y ∧ SlotFrame s t [Slot.y]) ∧
    (1 ≤ m → Nat.gcd (a % m) m ≠ 1 → FaultsWith .bnmodinv s 3) ∧
    (m = 0 → FaultsWith .bnmodinv s 8)

/-! ### M-RSA -/

/-- R181: `RSAMK` writes `n = p*q*r`, `e = 65537` and the inverse `d` of `e` modulo `(p-1)(q-1)(r-1)`. -/
def Obligations.KeyDerivationCommand : Prop :=
  encode .rsamk = 0x00000040 ∧
  ∀ (s : State) (p q r : Nat), SlotValue s Slot.p p → SlotValue s Slot.q q → SlotValue s Slot.r r →
    2 ≤ p → 2 ≤ q → 2 ≤ r → Nat.gcd (65537 % ((p - 1) * (q - 1) * (r - 1)))
      ((p - 1) * (q - 1) * (r - 1)) = 1 →
    p * q * r < 256 ^ 512 →
    ∃ t d, exec .rsamk s = .next t ∧ d < (p - 1) * (q - 1) * (r - 1) ∧
      65537 * d % ((p - 1) * (q - 1) * (r - 1)) = 1 % ((p - 1) * (q - 1) * (r - 1)) ∧
      SlotWritten t Slot.n (p * q * r) ∧ SlotWritten t Slot.e 65537 ∧ SlotWritten t Slot.d d ∧
      SlotValue t Slot.n (p * q * r) ∧ SlotValue t Slot.e 65537 ∧ SlotValue t Slot.d d ∧
      SlotFrame s t [Slot.n, Slot.e, Slot.d]

/-- R181, R237: `RSAMK` faults with code 8 when a prime slot holds 0 or 1; else with code 3 when 65537
divides `(p-1)(q-1)(r-1)`; else with code 9 when `n` does not fit its slot. -/
def Obligations.KeyDerivationFaults : Prop :=
  ∀ (s : State) (p q r : Nat), SlotValue s Slot.p p → SlotValue s Slot.q q → SlotValue s Slot.r r →
    (p < 2 ∨ q < 2 ∨ r < 2 → FaultsWith .rsamk s 8) ∧
    (2 ≤ p → 2 ≤ q → 2 ≤ r →
      (65537 ∣ (p - 1) * (q - 1) * (r - 1) → FaultsWith .rsamk s 3) ∧
      (¬ 65537 ∣ (p - 1) * (q - 1) * (r - 1) → 256 ^ 512 ≤ p * q * r → FaultsWith .rsamk s 9))

/-- R182: `RSAENC` writes `(m ^ e) mod n` to `Y` when the message is below `n`, and faults with code 8
when it is not. -/
def Obligations.PublicEncryptCommand : Prop :=
  encode .rsaenc = 0x00000041 ∧
  ∀ (s : State) (m n e : Nat), SlotValue s Slot.a m → SlotValue s Slot.n n → SlotValue s Slot.e e →
    (m < n → ∃ t, exec .rsaenc s = .next t ∧ SlotWritten t Slot.y (m ^ e % n) ∧
      SlotValue t Slot.y (m ^ e % n) ∧ SlotFrame s t [Slot.y]) ∧
    (n ≤ m → FaultsWith .rsaenc s 8)

/-- R183, R184: with `n >= 1` and pairwise coprime `p`, `q`, `r` of at least 2, `RSADEC` writes to `Y` the
recombination of the three powers of `c` to the reduced exponents, modulo `n`. With `n = p*q*r` that is
the one number below `n` whose remainders by the primes are those powers. -/
def Obligations.PrivateDecryptCommand : Prop :=
  encode .rsadec = 0x00000042 ∧
  ∀ (s : State) (c n d p q r : Nat), SlotValue s Slot.a c → SlotValue s Slot.n n →
    SlotValue s Slot.d d → SlotValue s Slot.p p → SlotValue s Slot.q q → SlotValue s Slot.r r →
    1 ≤ n → 2 ≤ p → 2 ≤ q → 2 ≤ r →
    Nat.Coprime p q → Nat.Coprime p r → Nat.Coprime q r →
    ∃ t x i1 i2 i3, exec .rsadec s = .next t ∧ SlotWritten t Slot.y x ∧ SlotValue t Slot.y x ∧
      SlotFrame s t [Slot.y] ∧ i1 < p ∧ i2 < q ∧ i3 < r ∧
      q * r * i1 % p = 1 ∧ p * r * i2 % q = 1 ∧ p * q * i3 % r = 1 ∧
      x = (c ^ (d % (p - 1)) % p * (q * r) * i1 + c ^ (d % (q - 1)) % q * (p * r) * i2 +
        c ^ (d % (r - 1)) % r * (p * q) * i3) % n ∧
      (n = p * q * r →
        x % p = c ^ (d % (p - 1)) % p ∧ x % q = c ^ (d % (q - 1)) % q ∧
        x % r = c ^ (d % (r - 1)) % r ∧
        ∀ y, y < n → y % p = x % p → y % q = x % q → y % r = x % r → y = x)

/-- R183, R237: `RSADEC` faults with code 8 when `n` is 0 or a prime slot holds 0 or 1; else with code 3
when two of `p`, `q`, `r` have a common divisor. -/
def Obligations.PrivateDecryptFaults : Prop :=
  ∀ (s : State) (c n d p q r : Nat), SlotValue s Slot.a c → SlotValue s Slot.n n →
    SlotValue s Slot.d d → SlotValue s Slot.p p → SlotValue s Slot.q q → SlotValue s Slot.r r →
    (n = 0 ∨ p < 2 ∨ q < 2 ∨ r < 2 → FaultsWith .rsadec s 8) ∧
    (1 ≤ n → 2 ≤ p → 2 ≤ q → 2 ≤ r →
      ¬ (Nat.Coprime p q ∧ Nat.Coprime p r ∧ Nat.Coprime q r) → FaultsWith .rsadec s 3)

/-- R185: with a valid key of odd primes, `RSAENC` of a message below `n` and then `RSADEC` of its result
give the message's value back. -/
def Obligations.RsaRoundTrip : Prop :=
  ∀ (k : TriplePrimeKey) (s : State) (m : Nat), k.Valid → Odd k.p → Odd k.q → Odd k.r → m < k.n →
    SlotValue s Slot.a m → SlotValue s Slot.n k.n → SlotValue s Slot.e k.e →
    ∃ t c, exec .rsaenc s = .next t ∧ SlotValue t Slot.y c ∧
      ∀ s' : State, SlotValue s' Slot.a c → SlotValue s' Slot.n k.n → SlotValue s' Slot.d k.d →
        SlotValue s' Slot.p k.p → SlotValue s' Slot.q k.q → SlotValue s' Slot.r k.r →
        ∃ u, exec .rsadec s' = .next u ∧ SlotValue u Slot.y m

/-! ### Faults, bus, reset -/

/-- R240: a write to `STATUS` clears `DONE` with bit 1 and `ERR` with `ERRCODE` with bit 2, at any time,
and does nothing else. -/
def Obligations.StatusWrite : Prop :=
  ∀ (s : State) (v : Word) (rest : List Turn),
    step (actsNext s (.write 0x10 4 v) rest) =
      .next { s with agenda := rest, response := some .written,
                     done := if v.getLsbD 1 then false else s.done,
                     err := if v.getLsbD 2 then false else s.err,
                     errCode := if v.getLsbD 2 then 0 else s.errCode }

/-- R34, R43, R260 to R262: a write to `CTRL` with bit 0 set, whatever the other bits and also while a
command is in flight, and the hard reset input leave every register at its reset value, no command in
flight and no byte of memory defined. Without bit 0 the write sets the two enables alone. The seed of
the open memory contents is the model's own (log entry 2), and so is the answer (log entry 1). -/
def Obligations.ResetAndControlWrite : Prop :=
  ∀ (s : State) (v : Word) (rest : List Turn),
    (v.getLsbD 0 = true → ∃ seed, step (actsNext s (.write 0x0C 4 v) rest) =
      .next { State.reset with agenda := rest, response := some .written, freeSeed := seed }) ∧
    (∃ seed, step (actsNext s .hardReset rest) =
      .next { State.reset with agenda := rest, freeSeed := seed }) ∧
    (v.getLsbD 0 = false → step (actsNext s (.write 0x0C 4 v) rest) =
      .next { s with agenda := rest, response := some .written,
                     ienDone := v.getLsbD 1, ienErr := v.getLsbD 2 })

/-- R68: no read of any place, of any width, at any time changes anything but the answer to the host. -/
def Obligations.ReadsChangeNothing : Prop :=
  ∀ (s : State) (a n : Nat) (rest : List Turn),
    ∃ r, step (actsNext s (.read a n) rest) = .next { s with agenda := rest, response := some r }

/-- R66: an access is refused, and then changes nothing, exactly when one of the five conditions of R66
holds; they are written out here from R61, R65 and R67. That a write to `ID`, `CAP0` or `CAP1` while
`BUSY` is 1 is none of them is the model's reading (log entry 7). -/
def Obligations.BusFaultExactly : Prop :=
  ∀ (s t : State) (a n : Nat) (v : Word) (isWrite : Bool) (rest : List Turn),
    step (actsNext s (if isWrite then .write a n v else .read a n) rest) = .next t →
    (t.response = some .busFault ↔
      (0x30000 ≤ a ∨
       (a < 0x100 ∧ ¬ (n = 4 ∧ a % 4 = 0)) ∨ (0x100 ≤ a ∧ n ≠ 1) ∨
       (a < 0x100 ∧ ¬ (a < 0x20 ∨ (0x40 ≤ a ∧ a < 0x68))) ∨
       (0x120 ≤ a ∧ a < 0x140) ∨ (0x180 ≤ a ∧ a < 0x200) ∨ (0x280 ≤ a ∧ a < 0x1000) ∨
       (0x3800 ≤ a ∧ a < 0x10000) ∨ (0x1000 ≤ a ∧ a < 0x3800 ∧ 0x200 ≤ (a - 0x1000) % 0x400) ∨
       (s.inFlight.isSome = true ∧
         (0x100 ≤ a ∨ (isWrite = true ∧ (0x14 ≤ a ∧ a < 0x20 ∨ 0x40 ≤ a ∧ a < 0x68)))) ∨
       (isWrite = true ∧ a = 0x14 ∧ s.err = true))) ∧
    (t.response = some .busFault → t = { s with agenda := rest, response := some .busFault })

/-- R31, R33, R35, R34, R36, R37, R38, R39: what a read of each register returns, at any time. -/
def Obligations.RegisterReads : Prop :=
  ∀ (s : State) (rest : List Turn),
    let reads := fun (a : Nat) (v : Word) => step (actsNext s (.read a 4) rest) =
      .next { s with agenda := rest, response := some (.word v) }
    reads 0x00 0x4D415201 ∧ reads 0x04 (0x04101007 + BitVec.ofNat 32 (min Config.hwPar 15 * 2 ^ 28)) ∧
    reads 0x08 0x10000200 ∧
    reads 0x0C ((if s.ienDone then 2 else 0) ||| (if s.ienErr then 4 else 0)) ∧
    reads 0x10 ((if s.inFlight.isSome then 1 else 0) ||| (if s.done then 2 else 0) |||
      (if s.err then 4 else 0) ||| (if s.keyValid then 8 else 0) ||| (s.errCode.setWidth 32 <<< 8)) ∧
    reads 0x14 s.lastCmd ∧ reads 0x18 s.len ∧ reads 0x1C s.keyLen ∧
    ∀ i : Fin 10, reads (0x40 + 4 * i.val) s.bnLen[i]

/-- R37, R38, R39, R30: on an idle engine a write to `LEN`, `KEYLEN` or `BNLEN[i]` stores the word there
and nothing else, and a write to `ID`, `CAP0` or `CAP1` is ignored without error. -/
def Obligations.RegisterWrites : Prop :=
  ∀ (s : State) (v : Word) (rest : List Turn), s.inFlight = none →
    let writes := fun (a : Nat) (t : State) => step (actsNext s (.write a 4 v) rest) =
      .next { t with agenda := rest, response := some .written }
    writes 0x18 { s with len := v } ∧ writes 0x1C { s with keyLen := v } ∧
    (∀ i : Fin 10, writes (0x40 + 4 * i.val) { s with bnLen := s.bnLen.set i v }) ∧
    writes 0x00 s ∧ writes 0x04 s ∧ writes 0x08 s

/-- R61, R64, R68, R74: at each offset of `ST`, `IV`, `KEY`, `BNDATA`, `IBUF` and `OBUF`, on an idle
engine: a byte write stores there, its next state as an equation, so that nothing else changes; a read
returns what stands there; a read right after the write returns the byte written. A byte of memory
stored leaves every other byte as it was. That a byte is written by the low 8 bits of the value is the
model's choice (log entry 6), and so are the turns and the answers (log entry 1). -/
def Obligations.ByteWriteThenRead : Prop :=
  ∀ (s : State) (v : Word) (rest : List Turn), s.inFlight = none →
    let b : Byte := v.setWidth 8
    let holds := fun (a : Nat) (old : Byte) (t : State) =>
      step (actsNext s (.write a 1 v) rest) = .next { t with agenda := rest, response := some .written } ∧
      step (actsNext s (.read a 1) rest) =
        .next { s with agenda := rest, response := some (.byte old) } ∧
      ∃ u, step (actsNext s (.write a 1 v) (.host (.read a 1) :: rest)) = .next u ∧
        step u = .next { t with agenda := rest, response := some (.byte b) }
    (∀ j : Fin 16,
      holds (0x100 + j.val) s.st[j] { s with st := s.st.set j b } ∧
      holds (0x110 + j.val) s.iv[j] { s with iv := s.iv.set j b } ∧
      holds (0x140 + j.val) s.key[j] { s with key := s.key.set j b }) ∧
    (∀ (i : Slot) (j : Nat), j < 512 →
      holds (0x1000 + 0x400 * i.val + j) (s.readByte (bnBase i + j)) (s.writeBytes (bnBase i + j) [b])) ∧
    (∀ j : Nat, j < 65536 →
      holds (0x10000 + j) (s.readByte (ibufBase + j)) (s.writeBytes (ibufBase + j) [b]) ∧
      holds (0x20000 + j) (s.readByte (obufBase + j)) (s.writeBytes (obufBase + j) [b])) ∧
    ∀ a x : Nat, (s.writeBytes a [b]).readByte x = if x = a then b else s.readByte x

/-- R24, R25: on an idle engine a byte written to `RK` or to the unused part of the `KEY` window is
ignored; the unused part reads as 0 and `RK[k][j]` as itself. -/
def Obligations.IgnoredByteWrites : Prop :=
  ∀ (s : State) (a : Nat) (v : Word) (rest : List Turn), s.inFlight = none →
    ((0x150 ≤ a ∧ a < 0x180) ∨ (0x200 ≤ a ∧ a < 0x280) →
      step (actsNext s (.write a 1 v) rest) =
        .next { s with agenda := rest, response := some .written }) ∧
    (0x150 ≤ a ∧ a < 0x180 → step (actsNext s (.read a 1) rest) =
      .next { s with agenda := rest, response := some (.byte 0) }) ∧
    ∀ (k : Fin 8) (j : Fin 16), step (actsNext s (.read (0x200 + 16 * k.val + j.val) 1) rest) =
      .next { s with agenda := rest, response := some (.byte s.rk[k][j]) }

/-- R43, R261: the registers at reset, as the spec gives them. -/
def Obligations.ResetValues : Prop :=
  (∀ j : Fin 16, State.reset.st[j] = 0 ∧ State.reset.iv[j] = 0 ∧ State.reset.key[j] = 0) ∧
  (∀ (k : Fin 8) (j : Fin 16), State.reset.rk[k][j] = 0) ∧ State.reset.keyValid = false ∧
  ctrlWord State.reset = 0 ∧ statusWord State.reset = 0 ∧ State.reset.lastCmd = 0 ∧
  State.reset.len = 0 ∧ State.reset.keyLen = 0 ∧ (∀ i : Fin 10, State.reset.bnLen[i] = 0) ∧
  (∀ i : Fin 10, SlotValue State.reset i 0) ∧ State.reset.inFlight = none ∧ irq State.reset = false

/-! ### The host's functions and the candidate configuration -/

/-- R202's first property, R204, R206 with R217: removing the padding and decoding the hex text restore
every byte string, and a key-exchange frame gives back the modulus and the exponent it was built of,
when their lengths fit a `u32`. -/
def Obligations.HostCodecsRoundTrip : Prop :=
  (∀ data : List Byte, (addPadding data 16).length % 16 = 0 ∧
    removePadding (addPadding data 16) = .ok data ∧ hexDecode (hexEncode data) = .ok data) ∧
  ∀ n e : Nat, (beBytes n).length < 2 ^ 32 → (beBytes e).length < 2 ^ 32 →
    readKeyExchange (keyExchangeFrame n e) = some (beBytes n, beBytes e)

/-- R210: the re-padded key has exactly 16 bytes and the value of the decrypted string modulo `256^16`. -/
def Obligations.KeyRepadding : Prop :=
  ∀ y : List Byte, repadKey y = beFixed (beNat y % 256 ^ 16) 16
end

