-- ==== Sys2Proof/Laws/Arith.lean ====
section
/-! SUPPORT. The values of modular power and inverse. -/

namespace Sys2Proof.Machine

/-! ### Modular power -/

theorem powMod_eq (m fuel base exp acc : Nat) (h : exp ≤ fuel) :
    powMod m fuel base exp acc = acc * base ^ exp % m := by
  induction fuel generalizing base exp acc with
  | zero =>
    obtain rfl : exp = 0 := by omega
    simp [powMod]
  | succ fuel ih =>
    by_cases he : exp = 0
    · simp [powMod, he]
    · rw [powMod, if_neg he, ih _ _ _ (by omega)]
      have hpow : (base * base % m) ^ (exp / 2) % m = base ^ (2 * (exp / 2)) % m := by
        rw [← Nat.pow_mod, pow_mul, pow_two]
      by_cases ho : exp % 2 = 1
      · rw [if_pos ho, Nat.mul_mod, hpow, Nat.mod_mod, ← Nat.mul_mod, mul_assoc, ← pow_succ']
        congr 3
        omega
      · rw [if_neg ho, Nat.mul_mod, hpow, ← Nat.mul_mod]
        congr 3
        omega

theorem modExp_eq (a b m : Nat) : modExp a b m = a ^ b % m := by
  rw [modExp, powMod_eq m b _ b 1 le_rfl, one_mul, ← Nat.pow_mod]

theorem modExp_lt (a b : Nat) {m : Nat} (h : 1 ≤ m) : modExp a b m < m := by
  rw [modExp_eq]; exact Nat.mod_lt _ h

/-! ### Modular inverse -/

/-- Euclid's algorithm: a greatest common divisor, and a coefficient of `a` that gives it modulo `m`. -/
theorem euclid_spec (m a : Int) (fuel r0 r1 : Nat) (t0 t1 : Int) (hf : r1 ≤ fuel)
    (h0 : m ∣ t0 * a - r0) (h1 : m ∣ t1 * a - r1) :
    (euclid fuel r0 r1 t0 t1).1 = Nat.gcd r0 r1 ∧
      m ∣ (euclid fuel r0 r1 t0 t1).2 * a - (euclid fuel r0 r1 t0 t1).1 := by
  induction fuel generalizing r0 r1 t0 t1 with
  | zero =>
    obtain rfl : r1 = 0 := by omega
    exact ⟨by simp [euclid], h0⟩
  | succ fuel ih =>
    by_cases hr : r1 = 0
    · subst hr
      exact ⟨by simp [euclid], by simpa [euclid] using h0⟩
    · have hlt : r0 % r1 < r1 := Nat.mod_lt _ (by omega)
      have hdiv : (r0 : Int) = r1 * (r0 / r1 : Nat) + (r0 % r1 : Nat) := by
        exact_mod_cast (Nat.div_add_mod r0 r1).symm
      have h2 : m ∣ (t0 - (r0 / r1 : Nat) * t1) * a - (r0 % r1 : Nat) := by
        have : (t0 - (r0 / r1 : Nat) * t1) * a - (r0 % r1 : Nat) =
            (t0 * a - r0) - (r0 / r1 : Nat) * (t1 * a - r1) := by
          rw [hdiv]; push_cast; ring
        rw [this]
        exact dvd_sub h0 (Dvd.dvd.mul_left h1 _)
      rw [euclid, if_neg hr]
      obtain ⟨hg, hd⟩ := ih r1 (r0 % r1) t1 (t0 - (r0 / r1 : Nat) * t1) (by omega) h1 h2
      refine ⟨?_, hd⟩
      rw [hg, Nat.gcd_comm r1, ← Nat.gcd_rec, Nat.gcd_comm]

/-- Two inverses of one number are equal. -/
theorem inverse_unique {a m y z : Nat} (hy : y < m) (hz : z < m) (h1 : a * y % m = 1 % m)
    (h2 : a * z % m = 1 % m) : y = z := by
  have e1 : a * y ≡ 1 [MOD m] := h1
  have e2 : a * z ≡ 1 [MOD m] := h2
  have : y ≡ z [MOD m] := by
    calc y = y * 1 := (mul_one y).symm
      _ ≡ y * (a * z) [MOD m] := (Nat.ModEq.refl y).mul e2.symm
      _ = z * (a * y) := by ring
      _ ≡ z * 1 [MOD m] := (Nat.ModEq.refl z).mul e1
      _ = z := mul_one z
  rwa [Nat.ModEq, Nat.mod_eq_of_lt hy, Nat.mod_eq_of_lt hz] at this

/-- What `modInv` answers: an inverse below `m`, or the failure exactly when there is none. -/
theorem modInv_cases (a m : Nat) (h : 1 ≤ m) :
    (Nat.gcd (a % m) m = 1 ∧ ∃ y, modInv a m = .ok y ∧ y < m ∧ a * y % m = 1 % m) ∨
      (Nat.gcd (a % m) m ≠ 1 ∧ modInv a m = .error .nonInvertibleModulus) := by
  have hd0 : (m : Int) ∣ 0 * (a : Int) - (m : Nat) := ⟨-1, by ring⟩
  have hd1 : (m : Int) ∣ 1 * (a : Int) - ((a % m : Nat) : Int) := by
    refine ⟨((a / m : Nat) : Int), ?_⟩
    have := Nat.div_add_mod a m
    have e : (a : Int) = m * (a / m : Nat) + (a % m : Nat) := by exact_mod_cast this.symm
    linarith
  obtain ⟨hg, hc⟩ := euclid_spec m a m m (a % m) 0 1 (Nat.mod_lt _ h).le hd0 hd1
  rw [Nat.gcd_comm] at hg
  have hm : (0 : Int) < m := by exact_mod_cast h
  by_cases h1 : Nat.gcd (a % m) m = 1
  · refine Or.inl ⟨h1, (euclid m m (a % m) 0 1).2 % (m : Int) |>.toNat, ?_, ?_, ?_⟩
    · simp only [modInv]
      rw [if_pos (hg.trans h1)]
    · have hlt := Int.emod_lt_of_pos (euclid m m (a % m) 0 1).2 hm
      omega
    · have hnn := Int.emod_nonneg (euclid m m (a % m) 0 1).2 hm.ne'
      rw [hg, h1] at hc
      refine (Int.natCast_modEq_iff (n := m)).mp (Int.ModEq.symm (Int.modEq_iff_dvd.mpr ?_))
      push_cast
      rw [Int.toNat_of_nonneg hnn, Int.emod_def]
      have split : (a : Int) * ((euclid m m (a % m) 0 1).2 - m * ((euclid m m (a % m) 0 1).2 / m)) - 1 =
          ((euclid m m (a % m) 0 1).2 * a - (1 : Nat)) -
            m * (a * ((euclid m m (a % m) 0 1).2 / m)) := by
        push_cast; ring
      rw [split]
      exact dvd_sub hc (Dvd.intro _ rfl)
  · refine Or.inr ⟨h1, ?_⟩
    simp only [modInv]
    rw [if_neg (by rw [hg]; exact h1)]

end Sys2Proof.Machine
end

