-- ==== Sys2Proof/Laws/State.lean ====
section
/-! SUPPORT. What each named update of the state leaves in each field: one lemma per field. -/

namespace Sys2Proof.Machine

/-! ### `complete` -/

@[simp] theorem complete_st (s : State) : (complete s).st = s.st := rfl
@[simp] theorem complete_iv (s : State) : (complete s).iv = s.iv := rfl
@[simp] theorem complete_key (s : State) : (complete s).key = s.key := rfl
@[simp] theorem complete_rk (s : State) : (complete s).rk = s.rk := rfl
@[simp] theorem complete_keyValid (s : State) : (complete s).keyValid = s.keyValid := rfl
@[simp] theorem complete_bnLen (s : State) : (complete s).bnLen = s.bnLen := rfl
@[simp] theorem complete_mem (s : State) : (complete s).mem = s.mem := rfl
@[simp] theorem complete_ienDone (s : State) : (complete s).ienDone = s.ienDone := rfl
@[simp] theorem complete_ienErr (s : State) : (complete s).ienErr = s.ienErr := rfl
@[simp] theorem complete_done (s : State) : (complete s).done = true := rfl
@[simp] theorem complete_err (s : State) : (complete s).err = s.err := rfl
@[simp] theorem complete_errCode (s : State) : (complete s).errCode = s.errCode := rfl
@[simp] theorem complete_lastCmd (s : State) : (complete s).lastCmd = s.lastCmd := rfl
@[simp] theorem complete_len (s : State) : (complete s).len = s.len := rfl
@[simp] theorem complete_keyLen (s : State) : (complete s).keyLen = s.keyLen := rfl
@[simp] theorem complete_inFlight (s : State) : (complete s).inFlight = none := rfl
@[simp] theorem complete_agenda (s : State) : (complete s).agenda = s.agenda := rfl
@[simp] theorem complete_response (s : State) : (complete s).response = s.response := rfl
@[simp] theorem complete_freeSeed (s : State) : (complete s).freeSeed = s.freeSeed := rfl

/-! ### `raise` -/

@[simp] theorem raise_st (e : ErrorKind) (s : State) : (raise e s).st = s.st := rfl
@[simp] theorem raise_iv (e : ErrorKind) (s : State) : (raise e s).iv = s.iv := rfl
@[simp] theorem raise_key (e : ErrorKind) (s : State) : (raise e s).key = s.key := rfl
@[simp] theorem raise_rk (e : ErrorKind) (s : State) : (raise e s).rk = s.rk := rfl
@[simp] theorem raise_keyValid (e : ErrorKind) (s : State) : (raise e s).keyValid = s.keyValid := rfl
@[simp] theorem raise_bnLen (e : ErrorKind) (s : State) : (raise e s).bnLen = s.bnLen := rfl
@[simp] theorem raise_mem (e : ErrorKind) (s : State) : (raise e s).mem = s.mem := rfl
@[simp] theorem raise_ienDone (e : ErrorKind) (s : State) : (raise e s).ienDone = s.ienDone := rfl
@[simp] theorem raise_ienErr (e : ErrorKind) (s : State) : (raise e s).ienErr = s.ienErr := rfl
@[simp] theorem raise_done (e : ErrorKind) (s : State) : (raise e s).done = s.done := rfl
@[simp] theorem raise_err (e : ErrorKind) (s : State) : (raise e s).err = true := rfl
@[simp] theorem raise_errCode (e : ErrorKind) (s : State) : (raise e s).errCode = e.code := rfl
@[simp] theorem raise_lastCmd (e : ErrorKind) (s : State) : (raise e s).lastCmd = s.lastCmd := rfl
@[simp] theorem raise_len (e : ErrorKind) (s : State) : (raise e s).len = s.len := rfl
@[simp] theorem raise_keyLen (e : ErrorKind) (s : State) : (raise e s).keyLen = s.keyLen := rfl
@[simp] theorem raise_inFlight (e : ErrorKind) (s : State) : (raise e s).inFlight = none := rfl
@[simp] theorem raise_agenda (e : ErrorKind) (s : State) : (raise e s).agenda = s.agenda := rfl
@[simp] theorem raise_response (e : ErrorKind) (s : State) : (raise e s).response = s.response := rfl
@[simp] theorem raise_freeSeed (e : ErrorKind) (s : State) : (raise e s).freeSeed = s.freeSeed := rfl

/-! ### `State.writeBytes` -/

@[simp] theorem State.writeBytes_st (s : State) (base : Nat) (vs : List Byte) : (s.writeBytes base vs).st = s.st := rfl
@[simp] theorem State.writeBytes_iv (s : State) (base : Nat) (vs : List Byte) : (s.writeBytes base vs).iv = s.iv := rfl
@[simp] theorem State.writeBytes_key (s : State) (base : Nat) (vs : List Byte) : (s.writeBytes base vs).key = s.key := rfl
@[simp] theorem State.writeBytes_rk (s : State) (base : Nat) (vs : List Byte) : (s.writeBytes base vs).rk = s.rk := rfl
@[simp] theorem State.writeBytes_keyValid (s : State) (base : Nat) (vs : List Byte) : (s.writeBytes base vs).keyValid = s.keyValid := rfl
@[simp] theorem State.writeBytes_bnLen (s : State) (base : Nat) (vs : List Byte) : (s.writeBytes base vs).bnLen = s.bnLen := rfl
@[simp] theorem State.writeBytes_mem (s : State) (base : Nat) (vs : List Byte) : (s.writeBytes base vs).mem = Memory.writeRange s.mem base vs := rfl
@[simp] theorem State.writeBytes_ienDone (s : State) (base : Nat) (vs : List Byte) : (s.writeBytes base vs).ienDone = s.ienDone := rfl
@[simp] theorem State.writeBytes_ienErr (s : State) (base : Nat) (vs : List Byte) : (s.writeBytes base vs).ienErr = s.ienErr := rfl
@[simp] theorem State.writeBytes_done (s : State) (base : Nat) (vs : List Byte) : (s.writeBytes base vs).done = s.done := rfl
@[simp] theorem State.writeBytes_err (s : State) (base : Nat) (vs : List Byte) : (s.writeBytes base vs).err = s.err := rfl
@[simp] theorem State.writeBytes_errCode (s : State) (base : Nat) (vs : List Byte) : (s.writeBytes base vs).errCode = s.errCode := rfl
@[simp] theorem State.writeBytes_lastCmd (s : State) (base : Nat) (vs : List Byte) : (s.writeBytes base vs).lastCmd = s.lastCmd := rfl
@[simp] theorem State.writeBytes_len (s : State) (base : Nat) (vs : List Byte) : (s.writeBytes base vs).len = s.len := rfl
@[simp] theorem State.writeBytes_keyLen (s : State) (base : Nat) (vs : List Byte) : (s.writeBytes base vs).keyLen = s.keyLen := rfl
@[simp] theorem State.writeBytes_inFlight (s : State) (base : Nat) (vs : List Byte) : (s.writeBytes base vs).inFlight = s.inFlight := rfl
@[simp] theorem State.writeBytes_agenda (s : State) (base : Nat) (vs : List Byte) : (s.writeBytes base vs).agenda = s.agenda := rfl
@[simp] theorem State.writeBytes_response (s : State) (base : Nat) (vs : List Byte) : (s.writeBytes base vs).response = s.response := rfl
@[simp] theorem State.writeBytes_freeSeed (s : State) (base : Nat) (vs : List Byte) : (s.writeBytes base vs).freeSeed = s.freeSeed := rfl

/-! ### `clearStatus` -/

@[simp] theorem clearStatus_st (v : Word) (s : State) : (clearStatus v s).st = s.st := rfl
@[simp] theorem clearStatus_iv (v : Word) (s : State) : (clearStatus v s).iv = s.iv := rfl
@[simp] theorem clearStatus_key (v : Word) (s : State) : (clearStatus v s).key = s.key := rfl
@[simp] theorem clearStatus_rk (v : Word) (s : State) : (clearStatus v s).rk = s.rk := rfl
@[simp] theorem clearStatus_keyValid (v : Word) (s : State) : (clearStatus v s).keyValid = s.keyValid := rfl
@[simp] theorem clearStatus_bnLen (v : Word) (s : State) : (clearStatus v s).bnLen = s.bnLen := rfl
@[simp] theorem clearStatus_mem (v : Word) (s : State) : (clearStatus v s).mem = s.mem := rfl
@[simp] theorem clearStatus_ienDone (v : Word) (s : State) : (clearStatus v s).ienDone = s.ienDone := rfl
@[simp] theorem clearStatus_ienErr (v : Word) (s : State) : (clearStatus v s).ienErr = s.ienErr := rfl
@[simp] theorem clearStatus_done (v : Word) (s : State) : (clearStatus v s).done = (s.done && !v.getLsbD 1) := rfl
@[simp] theorem clearStatus_err (v : Word) (s : State) : (clearStatus v s).err = (s.err && !v.getLsbD 2) := rfl
@[simp] theorem clearStatus_errCode (v : Word) (s : State) : (clearStatus v s).errCode = if v.getLsbD 2 then 0 else s.errCode := rfl
@[simp] theorem clearStatus_lastCmd (v : Word) (s : State) : (clearStatus v s).lastCmd = s.lastCmd := rfl
@[simp] theorem clearStatus_len (v : Word) (s : State) : (clearStatus v s).len = s.len := rfl
@[simp] theorem clearStatus_keyLen (v : Word) (s : State) : (clearStatus v s).keyLen = s.keyLen := rfl
@[simp] theorem clearStatus_inFlight (v : Word) (s : State) : (clearStatus v s).inFlight = s.inFlight := rfl
@[simp] theorem clearStatus_agenda (v : Word) (s : State) : (clearStatus v s).agenda = s.agenda := rfl
@[simp] theorem clearStatus_response (v : Word) (s : State) : (clearStatus v s).response = s.response := rfl
@[simp] theorem clearStatus_freeSeed (v : Word) (s : State) : (clearStatus v s).freeSeed = s.freeSeed := rfl

/-! ### `resetState` -/

@[simp] theorem resetState_st (s : State) : (resetState s).st = State.reset.st := rfl
@[simp] theorem resetState_iv (s : State) : (resetState s).iv = State.reset.iv := rfl
@[simp] theorem resetState_key (s : State) : (resetState s).key = State.reset.key := rfl
@[simp] theorem resetState_rk (s : State) : (resetState s).rk = State.reset.rk := rfl
@[simp] theorem resetState_keyValid (s : State) : (resetState s).keyValid = State.reset.keyValid := rfl
@[simp] theorem resetState_bnLen (s : State) : (resetState s).bnLen = State.reset.bnLen := rfl
@[simp] theorem resetState_mem (s : State) : (resetState s).mem = State.reset.mem := rfl
@[simp] theorem resetState_ienDone (s : State) : (resetState s).ienDone = State.reset.ienDone := rfl
@[simp] theorem resetState_ienErr (s : State) : (resetState s).ienErr = State.reset.ienErr := rfl
@[simp] theorem resetState_done (s : State) : (resetState s).done = State.reset.done := rfl
@[simp] theorem resetState_err (s : State) : (resetState s).err = State.reset.err := rfl
@[simp] theorem resetState_errCode (s : State) : (resetState s).errCode = State.reset.errCode := rfl
@[simp] theorem resetState_lastCmd (s : State) : (resetState s).lastCmd = State.reset.lastCmd := rfl
@[simp] theorem resetState_len (s : State) : (resetState s).len = State.reset.len := rfl
@[simp] theorem resetState_keyLen (s : State) : (resetState s).keyLen = State.reset.keyLen := rfl
@[simp] theorem resetState_inFlight (s : State) : (resetState s).inFlight = State.reset.inFlight := rfl
@[simp] theorem resetState_agenda (s : State) : (resetState s).agenda = s.agenda := rfl
@[simp] theorem resetState_response (s : State) : (resetState s).response = State.reset.response := rfl
@[simp] theorem resetState_freeSeed (s : State) : (resetState s).freeSeed = Config.reseed s.freeSeed s.mem := rfl

end Sys2Proof.Machine
end

