-- ==== Sys2Proof/Laws/Memory.lean ====
section
/-! SUPPORT. Byte memory: a read after a write, and the canonical form kept by every memory operation. -/

namespace Sys2Proof.Machine

/-! ### One write of consecutive bytes -/

theorem Memory.lookup_append (m m' : Memory) (a : Nat) :
    (m ++ m').lookup a = (m.lookup a).or (m'.lookup a) := by
  induction m with
  | nil => simp
  | cons c m ih =>
    obtain ⟨k, v⟩ := c
    by_cases h : a = k
    · subst h; simp
    · have h' : (a == k) = false := by simpa using h
      simp [List.lookup, h', ih]

/-- A filter on offsets keeps what it keeps and hides the rest. -/
theorem Memory.lookup_filter (m : Memory) (keep : Nat → Bool) (a : Nat) :
    (m.filter (fun c => keep c.1)).lookup a = if keep a then m.lookup a else none := by
  induction m with
  | nil => simp
  | cons c m ih =>
    obtain ⟨k, v⟩ := c
    by_cases h : a = k
    · subst h
      cases hk : keep a
      · simpa [hk] using ih
      · simp [hk]
    · have h' : (a == k) = false := by simpa using h
      cases hk : keep k <;> simp [hk, List.lookup, h', ih]

theorem Memory.lookup_cells (base : Nat) (vs : List Byte) (a : Nat) :
    (Memory.cells base vs).lookup a =
      if base ≤ a ∧ a < base + vs.length then vs[a - base]? else none := by
  induction vs generalizing base with
  | nil => simp [Memory.cells]
  | cons v vs ih =>
    by_cases h : a = base
    · subst h; simp [Memory.cells]
    · have h' : (a == base) = false := by simpa using h
      simp only [Memory.cells, List.lookup, h', ih, List.length_cons]
      by_cases hr : base + 1 ≤ a ∧ a < base + 1 + vs.length
      · rw [if_pos hr, if_pos (by omega)]
        obtain ⟨d, rfl⟩ : ∃ d, a = base + 1 + d := ⟨a - (base + 1), by omega⟩
        have e1 : base + 1 + d - (base + 1) = d := by omega
        have e2 : base + 1 + d - base = d + 1 := by omega
        rw [e1, e2, List.getElem?_cons_succ]
      · rw [if_neg hr, if_neg (by omega)]

/-- What a write of consecutive bytes leaves at each offset. -/
theorem Memory.read?_writeRange (m : Memory) (base : Nat) (vs : List Byte) (a : Nat) :
    Memory.read? (Memory.writeRange m base vs) a =
      if base ≤ a ∧ a < base + vs.length then vs[a - base]? else Memory.read? m a := by
  have hlow := Memory.lookup_filter m (fun k => decide (k < base)) a
  have hhigh := Memory.lookup_filter m (fun k => decide (base + vs.length ≤ k)) a
  simp only [Memory.read?, Memory.writeRange, Memory.lookup_append, Memory.lookup_cells] at *
  rw [hlow, hhigh]
  by_cases h : base ≤ a ∧ a < base + vs.length
  · have h1 : ¬ a < base := by omega
    have h2 : ¬ base + vs.length ≤ a := by omega
    have h3 : vs[a - base]? = some (vs[a - base]'(by omega)) := List.getElem?_eq_getElem _
    simp [h, h1, h2, h3]
  · by_cases h1 : a < base
    · have h2 : ¬ base + vs.length ≤ a := by omega
      have h3 : ¬ base ≤ a := by omega
      simp [h1, h2, h3]
    · have h2 : base + vs.length ≤ a := by omega
      have h3 : ¬ a < base + vs.length := by omega
      simp [h1, h2, h3]

/-- A byte inside the range written reads as written. -/
theorem readByte_writeBytes_inside (s : State) (base : Nat) (vs : List Byte) (j : Nat)
    (h : j < vs.length) : (s.writeBytes base vs).readByte (base + j) = vs[j] := by
  have h' : base ≤ base + j ∧ base + j < base + vs.length := by omega
  simp only [State.readByte, State.writeBytes_mem, Memory.read?_writeRange, if_pos h']
  simp [h]

/-- Every other byte reads as before. -/
theorem readByte_writeBytes_outside (s : State) (base : Nat) (vs : List Byte) (a : Nat)
    (h : a < base ∨ base + vs.length ≤ a) : (s.writeBytes base vs).readByte a = s.readByte a := by
  have h' : ¬ (base ≤ a ∧ a < base + vs.length) := by omega
  simp only [State.readByte, State.writeBytes_mem, State.writeBytes_freeSeed, Memory.read?_writeRange,
    if_neg h']

/-- Reading a byte depends on the memory and on the open contents alone. -/
theorem readByte_congr {s t : State} (hm : s.mem = t.mem) (hf : s.freeSeed = t.freeSeed) (a : Nat) :
    s.readByte a = t.readByte a := by
  simp only [State.readByte, hm, hf]

theorem readBytes_congr {s t : State} (hm : s.mem = t.mem) (hf : s.freeSeed = t.freeSeed)
    (base n : Nat) : s.readBytes base n = t.readBytes base n := by
  simp only [State.readBytes, readByte_congr hm hf]

@[simp] theorem readBytes_length (s : State) (base n : Nat) : (s.readBytes base n).length = n := by
  simp [State.readBytes]

/-! ### The canonical form -/

theorem Memory.mem_cells {base : Nat} {vs : List Byte} {c : Host.Cell} (h : c ∈ Memory.cells base vs) :
    base ≤ c.1 ∧ c.1 < base + vs.length := by
  induction vs generalizing base with
  | nil => simp [Memory.cells] at h
  | cons v vs ih =>
    simp only [Memory.cells, List.mem_cons] at h
    rcases h with rfl | h
    · simp
    · have := ih h
      simp only [List.length_cons]
      omega

theorem Memory.cells_rising (base : Nat) (vs : List Byte) :
    (Memory.cells base vs).Pairwise (fun c d => c.1 < d.1) := by
  induction vs generalizing base with
  | nil => simp [Memory.cells]
  | cons v vs ih =>
    refine List.pairwise_cons.mpr ⟨fun c hc => ?_, ih (base + 1)⟩
    have := Memory.mem_cells hc
    omega

theorem Memory.wf_nil : Memory.wf [] := by simp [Memory.wf]

/-- A write to offsets of a byte memory keeps the canonical form. -/
theorem Memory.wf_writeRange {m : Memory} {base : Nat} {vs : List Byte} (h : Memory.wf m)
    (hin : ∀ a, base ≤ a → a < base + vs.length → isMemory a = true) :
    Memory.wf (Memory.writeRange m base vs) := by
  obtain ⟨hp, hm⟩ := h
  constructor
  · refine List.pairwise_append.mpr ⟨List.pairwise_append.mpr ⟨hp.filter _, cells_rising _ _, ?_⟩,
      hp.filter _, ?_⟩
    · intro c hc d hd
      have h1 : c.1 < base := by simpa using (List.mem_filter.mp hc).2
      have h2 := mem_cells hd
      omega
    · intro c hc d hd
      have h2 : base + vs.length ≤ d.1 := by simpa using (List.mem_filter.mp hd).2
      rcases List.mem_append.mp hc with hc | hc
      · have h1 : c.1 < base := by simpa using (List.mem_filter.mp hc).2
        omega
      · have h1 := mem_cells hc
        omega
  · intro c hc
    rcases List.mem_append.mp hc with hc | hc
    · rcases List.mem_append.mp hc with hc | hc
      · exact hm c (List.mem_filter.mp hc).1
      · exact hin c.1 (mem_cells hc).1 (mem_cells hc).2
    · exact hm c (List.mem_filter.mp hc).1

/-! ### The offsets of the byte memories -/

theorem isMemory_slot (i : Slot) {a : Nat} (h1 : bnBase i ≤ a) (h2 : a < bnBase i + Config.bnBytes) :
    isMemory a = true := by
  have hi := i.isLt
  simp only [bnBase, Config.bnBytes] at *
  have h3 : (a - 0x1000) % 0x400 = a - 0x1000 - 0x400 * i.val := by omega
  simp only [isMemory, Config.bnBytes, Config.bufBytes, Bool.or_eq_true, Bool.and_eq_true,
    decide_eq_true_eq]
  omega

theorem isMemory_obuf {a : Nat} (h1 : obufBase ≤ a) (h2 : a < obufBase + Config.bufBytes) :
    isMemory a = true := by
  simp only [obufBase, Config.bufBytes] at *
  simp only [isMemory, Config.bnBytes, Config.bufBytes, Bool.or_eq_true, Bool.and_eq_true,
    decide_eq_true_eq]
  omega

theorem isMemory_ibuf {a : Nat} (h1 : ibufBase ≤ a) (h2 : a < ibufBase + Config.bufBytes) :
    isMemory a = true := by
  simp only [ibufBase, Config.bufBytes] at *
  simp only [isMemory, Config.bnBytes, Config.bufBytes, Bool.or_eq_true, Bool.and_eq_true,
    decide_eq_true_eq]
  omega

end Sys2Proof.Machine
end

