-- ==== Sys2Proof/Laws/Bus.lean ====
section
/-! SUPPORT. The bus: the address map by range, what an access can do, what the host's turn can do. -/

namespace Sys2Proof.Machine

/-! ### The address map -/

theorem isMemory_iff (a : Nat) : isMemory a = true ↔
    (0x1000 ≤ a ∧ a < 0x3800 ∧ (a - 0x1000) % 0x400 < 0x200) ∨ (0x10000 ≤ a ∧ a < 0x30000) := by
  simp only [isMemory, Config.bnBytes, Config.bufBytes, Bool.or_eq_true, Bool.and_eq_true,
    decide_eq_true_eq]
  omega

/-- What stands at an offset, by range (R61). -/
theorem place_cases (a : Nat) :
    (a < 0x100 ∧ place a = .csrRegion) ∨
    (0x100 ≤ a ∧ a < 0x110 ∧ place a = .st (byteIndex a)) ∨
    (0x110 ≤ a ∧ a < 0x120 ∧ place a = .iv (byteIndex a)) ∨
    (0x140 ≤ a ∧ a < 0x150 ∧ place a = .key (byteIndex a)) ∨
    (0x150 ≤ a ∧ a < 0x180 ∧ place a = .keyTail) ∨
    (0x200 ≤ a ∧ a < 0x280 ∧ place a = .rk (roundIndex a) (byteIndex a)) ∨
    (0x1000 ≤ a ∧ isMemory a = true ∧ place a = .memory) ∨
    ((0x120 ≤ a ∧ a < 0x140 ∨ 0x180 ≤ a ∧ a < 0x200 ∨ 0x280 ≤ a ∧ isMemory a = false) ∧
      place a = .unmapped) := by
  have hm := isMemory_iff a
  by_cases h0 : a < 0x100
  · exact Or.inl ⟨h0, if_pos h0⟩
  have e0 : place a = _ := if_neg h0
  by_cases h1 : a < 0x110
  · exact Or.inr (Or.inl ⟨by omega, h1, e0.trans (if_pos h1)⟩)
  have e1 := e0.trans (if_neg h1)
  by_cases h2 : a < 0x120
  · exact Or.inr (Or.inr (Or.inl ⟨by omega, h2, e1.trans (if_pos h2)⟩))
  have e2 := e1.trans (if_neg h2)
  by_cases h3 : a < 0x140
  · exact Or.inr (Or.inr (Or.inr (Or.inr (Or.inr (Or.inr (Or.inr
      ⟨Or.inl (by omega), e2.trans (if_pos h3)⟩))))))
  have e3 := e2.trans (if_neg h3)
  by_cases h4 : a < 0x140 + Config.keyBytes
  · exact Or.inr (Or.inr (Or.inr (Or.inl ⟨by omega, h4, e3.trans (if_pos h4)⟩)))
  have e4 := e3.trans (if_neg h4)
  simp only [Config.keyBytes] at h4
  by_cases h5 : a < 0x180
  · exact Or.inr (Or.inr (Or.inr (Or.inr (Or.inl ⟨by omega, h5, e4.trans (if_pos h5)⟩))))
  have e5 := e4.trans (if_neg h5)
  by_cases h6 : a < 0x200
  · exact Or.inr (Or.inr (Or.inr (Or.inr (Or.inr (Or.inr (Or.inr
      ⟨Or.inr (Or.inl (by omega)), e5.trans (if_pos h6)⟩))))))
  have e6 := e5.trans (if_neg h6)
  by_cases h7 : a < 0x280
  · exact Or.inr (Or.inr (Or.inr (Or.inr (Or.inr (Or.inl ⟨by omega, h7, e6.trans (if_pos h7)⟩)))))
  have e7 := e6.trans (if_neg h7)
  by_cases h8 : isMemory a = true
  · exact Or.inr (Or.inr (Or.inr (Or.inr (Or.inr (Or.inr (Or.inl
      ⟨by have := hm.mp h8; omega, h8, e7.trans (if_pos h8)⟩))))))
  · exact Or.inr (Or.inr (Or.inr (Or.inr (Or.inr (Or.inr (Or.inr
      ⟨Or.inr (Or.inr ⟨by omega, by simpa using h8⟩), e7.trans (if_neg h8)⟩))))))

/-- The byte memories lie where no register does. -/
theorem place_memory {a : Nat} (h : isMemory a = true) : place a = .memory := by
  have h' := (isMemory_iff a).mp h
  unfold place
  simp only [Config.keyBytes]
  repeat rw [if_neg (by omega)]
  rw [if_pos h]

theorem csrAt_bnLen (i : Slot) : csrAt (0x40 + 4 * i.val) = some (.bnLen i) := by
  have hi := i.isLt
  unfold csrAt
  repeat rw [if_neg (by omega)]
  rw [dif_pos (by omega)]
  congr 2
  exact Fin.ext (by show (0x40 + 4 * i.val - 0x40) / 4 = i.val; omega)

/-- Past the eight registers at 0x00 to 0x1C only the slot lengths are left. -/
theorem csrAt_above {a : Nat} (h : ∀ k < 8, a ≠ 4 * k) :
    csrAt a = if h : 0x40 ≤ a ∧ a < 0x68 ∧ a % 4 = 0 then some (.bnLen ⟨(a - 0x40) / 4, by omega⟩)
      else none := by
  have h0 := h 0 (by decide)
  have h1 := h 1 (by decide)
  have h2 := h 2 (by decide)
  have h3 := h 3 (by decide)
  have h4 := h 4 (by decide)
  have h5 := h 5 (by decide)
  have h6 := h 6 (by decide)
  have h7 := h 7 (by decide)
  unfold csrAt
  rw [if_neg h0, if_neg h1, if_neg h2, if_neg h3, if_neg h4, if_neg h5, if_neg h6, if_neg h7]

/-- The offsets of the registers (R29). -/
theorem csrAt_isSome_iff (a : Nat) :
    (csrAt a).isSome = true ↔ a % 4 = 0 ∧ (a < 0x20 ∨ 0x40 ≤ a ∧ a < 0x68) := by
  by_cases h : ∃ k < 8, a = 4 * k
  · obtain ⟨k, hk, rfl⟩ := h
    interval_cases k <;> decide
  · have h' : ∀ k < 8, a ≠ 4 * k := fun k hk e => h ⟨k, hk, e⟩
    have hlow : ¬ (a % 4 = 0 ∧ a < 0x20) := fun hc => h ⟨a / 4, by omega, by omega⟩
    rw [csrAt_above h']
    by_cases hb : 0x40 ≤ a ∧ a < 0x68 ∧ a % 4 = 0
    · rw [dif_pos hb]
      exact ⟨fun _ => ⟨hb.2.2, Or.inr ⟨hb.1, hb.2.1⟩⟩, fun _ => rfl⟩
    · rw [dif_neg hb]
      refine ⟨fun hn => (by cases hn), fun hc => ?_⟩
      omega

theorem csrAt_cmd_iff (a : Nat) : csrAt a = some .cmd ↔ a = 0x14 := by
  by_cases h : ∃ k < 8, a = 4 * k
  · obtain ⟨k, hk, rfl⟩ := h
    interval_cases k <;> decide
  · have h' : ∀ k < 8, a ≠ 4 * k := fun k hk e => h ⟨k, hk, e⟩
    rw [csrAt_above h']
    refine ⟨fun hc => ?_, fun hc => absurd hc (h' 5 (by decide))⟩
    split at hc <;> cases hc

/-- `CAP0` as its fixed fields plus `HW_PAR` in bits 31:28 (R32). -/
theorem cap0Word_eq (w : Nat) :
    cap0Word w = 0x04101007 + BitVec.ofNat 32 (min w 15 * 2 ^ 28) := by
  rw [cap0Word, BitVec.ofNat_add]
  rfl

/-! ### Accesses -/

/-- A read: the answer, and nothing else (R63, R68). -/
theorem memRead_cases (s : State) (a n : Nat) :
    (busRefuses s a n false = true ∧ memRead s a n = { s with response := some .busFault }) ∨
      (busRefuses s a n false = false ∧
        memRead s a n = { s with response := some (readPlace s a) }) := by
  cases h : busRefuses s a n false
  · exact Or.inr ⟨rfl, by simp [memRead, h]⟩
  · exact Or.inl ⟨rfl, by simp [memRead, h]⟩

/-- A write: refused with no effect, or the effect of the place written (R64, R66). -/
theorem memWrite_cases (s : State) (a n : Nat) (v : Word) :
    (busRefuses s a n true = true ∧ memWrite s a n v = { s with response := some .busFault }) ∨
      (busRefuses s a n true = false ∧
        memWrite s a n v = { writePlace s a v with response := some .written }) := by
  cases h : busRefuses s a n true
  · exact Or.inr ⟨rfl, by simp [memWrite, h]⟩
  · exact Or.inl ⟨rfl, by simp [memWrite, h]⟩

/-- What a write can do to the state, when it is admitted. -/
inductive Written (s : State) (a : Nat) (v : Word) : State → Prop where
  | ignored : Written s a v s
  | ctrl : Written s a v (writeCtrl v s)
  | status : Written s a v (clearStatus v s)
  | cmd (h : a = 0x14) : Written s a v (accept v s)
  | len : Written s a v { s with len := v }
  | keyLen : Written s a v { s with keyLen := v }
  | bnLen (i : Slot) : Written s a v { s with bnLen := s.bnLen.set i v }
  | st (j : Fin 16) : Written s a v { s with st := s.st.set j (v.setWidth 8) }
  | iv (j : Fin 16) : Written s a v { s with iv := s.iv.set j (v.setWidth 8) }
  | key (j : Fin 16) : Written s a v { s with key := s.key.set j (v.setWidth 8) }
  | memory (h : isMemory a = true) : Written s a v (s.writeBytes a [v.setWidth 8])

theorem writePlace_written (s : State) (a : Nat) (v : Word) : Written s a v (writePlace s a v) := by
  rcases place_cases a with ⟨_, hp⟩ | ⟨_, _, hp⟩ | ⟨_, _, hp⟩ | ⟨_, _, hp⟩ | ⟨_, _, hp⟩ | ⟨_, _, hp⟩ |
      ⟨_, hm, hp⟩ | ⟨_, hp⟩ <;> unfold writePlace <;> rw [hp]
  · cases hr : csrAt a with
    | none => exact .ignored
    | some r =>
      cases r with
      | id => exact .ignored
      | cap0 => exact .ignored
      | cap1 => exact .ignored
      | ctrl => exact .ctrl
      | status => exact .status
      | cmd => exact .cmd ((csrAt_cmd_iff a).mp hr)
      | len => exact .len
      | keyLen => exact .keyLen
      | bnLen i => exact .bnLen i
  · exact .st _
  · exact .iv _
  · exact .key _
  · exact .ignored
  · exact .ignored
  · exact .memory hm
  · exact .ignored

/-- A `CMD` write is admitted only on an engine that is neither busy nor in error (R36). -/
theorem busRefuses_cmd {s : State} {n : Nat} (h : busRefuses s 0x14 n true = false) :
    s.inFlight = none ∧ s.err = false := by
  simp only [busRefuses, Bool.or_eq_false_iff] at h
  obtain ⟨⟨_, hb⟩, he⟩ := h
  have h1 : lockedByBusy 0x14 true = true := by decide
  have h2 : (csrAt 0x14 == some Csr.cmd) = true := by decide
  rw [h1, Bool.and_true] at hb
  rw [h2, Bool.and_true, Bool.true_and] at he
  refine ⟨?_, he⟩
  simpa [State.busy] using hb

/-- Acceptance: a legal word in flight, or the fault at once (R36 (b)). -/
theorem accept_cases (w : Word) (s : State) :
    (∃ i, decode w = .ok i ∧
      accept w s = { s with lastCmd := w, done := false, inFlight := some w }) ∨
    (∃ e, decode w = .error e ∧
      accept w s = raise .illegalCommand { s with lastCmd := w, done := false }) := by
  cases h : decode w with
  | ok i => exact Or.inl ⟨i, rfl, by simp [accept, h]⟩
  | error e => exact Or.inr ⟨e, rfl, by simp [accept, h]⟩

/-- A write to `CTRL`: a reset, or the two enables (R34). -/
theorem writeCtrl_cases (v : Word) (s : State) :
    (v.getLsbD 0 = true ∧ writeCtrl v s = resetState s) ∨
      (v.getLsbD 0 = false ∧
        writeCtrl v s = { s with ienDone := v.getLsbD 1, ienErr := v.getLsbD 2 }) := by
  cases h : v.getLsbD 0
  · exact Or.inr ⟨rfl, by simp only [writeCtrl, h]; rfl⟩
  · exact Or.inl ⟨rfl, by simp only [writeCtrl, h]; rfl⟩

end Sys2Proof.Machine
end

