-- ==== Sys2Proof/Laws/Bytes.lean ====
section
/-! SUPPORT. Byte strings as numbers: values of the encodings and their lengths. -/

namespace Sys2Proof.Machine

/-! ### `beNat` -/

@[simp] theorem beNat_nil : beNat [] = 0 := rfl

theorem beNat_concat (bs : List Byte) (b : Byte) : beNat (bs ++ [b]) = beNat bs * 256 + b.toNat := by
  simp [beNat, List.foldl_append]

theorem beNat_append (as bs : List Byte) :
    beNat (as ++ bs) = beNat as * 256 ^ bs.length + beNat bs := by
  induction bs using List.reverseRecOn with
  | nil => simp
  | append_singleton bs b ih =>
    rw [← List.append_assoc, beNat_concat, ih, beNat_concat, List.length_append, List.length_singleton,
      pow_succ]
    ring

theorem beNat_cons (b : Byte) (bs : List Byte) :
    beNat (b :: bs) = b.toNat * 256 ^ bs.length + beNat bs := by
  have h := beNat_append [b] bs
  simpa [beNat] using h

theorem beNat_lt (bs : List Byte) : beNat bs < 256 ^ bs.length := by
  induction bs using List.reverseRecOn with
  | nil => simp
  | append_singleton bs b ih =>
    have hb : b.toNat < 256 := b.isLt
    rw [beNat_concat, List.length_append, List.length_singleton, pow_succ]
    omega

theorem beNat_replicate_zero (n : Nat) : beNat (List.replicate n 0) = 0 := by
  induction n with
  | zero => rfl
  | succ n ih => rw [List.replicate_succ', beNat_concat, ih]; rfl

/-- Two byte strings of one length with one value are equal. -/
theorem beNat_injective {as bs : List Byte} (hl : as.length = bs.length) (hv : beNat as = beNat bs) :
    as = bs := by
  induction as using List.reverseRecOn generalizing bs with
  | nil => simpa using hl.symm
  | append_singleton as a ih =>
    induction bs using List.reverseRecOn with
    | nil => simp at hl
    | append_singleton bs b _ =>
      rw [beNat_concat, beNat_concat] at hv
      have ha : a.toNat < 256 := a.isLt
      have hb : b.toNat < 256 := b.isLt
      have hab : a = b := BitVec.eq_of_toNat_eq (by omega)
      rw [ih (by simpa using hl) (by omega), hab]

/-! ### `beFixed` -/

@[simp] theorem beFixed_length (v n : Nat) : (beFixed v n).length = n := by
  induction n generalizing v with
  | zero => rfl
  | succ n ih => simp [beFixed, ih]

theorem beNat_beFixed (v n : Nat) : beNat (beFixed v n) = v % 256 ^ n := by
  induction n generalizing v with
  | zero => simp [beFixed, Nat.mod_one]
  | succ n ih =>
    rw [beFixed, beNat_concat, ih, BitVec.toNat_ofNat, pow_succ' 256 n, Nat.mod_mul]
    omega

/-! ### `beBytes` -/

theorem beDigits_append (fuel v : Nat) (acc : List Byte) :
    beDigits fuel v acc = beDigits fuel v [] ++ acc := by
  induction fuel generalizing v acc with
  | zero => simp [beDigits]
  | succ fuel ih =>
    by_cases h : v = 0
    · simp [beDigits, h]
    · simp only [beDigits, h, if_false]
      rw [ih, ih (v / 256) [_]]
      simp

/-- The digits of a positive number: those of its quotient, then its last. -/
theorem beDigits_step (fuel v : Nat) (h : v ≠ 0) :
    beDigits (fuel + 1) v [] = beDigits fuel (v / 256) [] ++ [BitVec.ofNat 8 v] := by
  simp only [beDigits, h, if_false]
  rw [beDigits_append]

/-- Enough fuel gives one answer. -/
theorem beDigits_fuel {fuel v : Nat} (h : v ≤ fuel) : beDigits fuel v [] = beBytes v := by
  unfold beBytes
  induction v using Nat.strongRecOn generalizing fuel with
  | ind v ih =>
    by_cases hv : v = 0
    · subst hv; cases fuel <;> simp [beDigits]
    · obtain ⟨f, rfl⟩ : ∃ f, fuel = f + 1 := ⟨fuel - 1, by omega⟩
      obtain ⟨w, rfl⟩ : ∃ w, v = w + 1 := ⟨v - 1, by omega⟩
      rw [beDigits_step _ _ hv, beDigits_step _ _ hv,
        ih ((w + 1) / 256) (by omega) (show (w + 1) / 256 ≤ f by omega),
        ih ((w + 1) / 256) (by omega) (show (w + 1) / 256 ≤ w by omega)]

@[simp] theorem beBytes_zero : beBytes 0 = [] := rfl

theorem beBytes_step {v : Nat} (h : v ≠ 0) : beBytes v = beBytes (v / 256) ++ [BitVec.ofNat 8 v] := by
  obtain ⟨w, rfl⟩ : ∃ w, v = w + 1 := ⟨v - 1, by omega⟩
  rw [beBytes, beDigits_step _ _ h, beDigits_fuel (by omega)]

theorem beNat_beBytes (v : Nat) : beNat (beBytes v) = v := by
  induction v using Nat.strongRecOn with
  | ind v ih =>
    by_cases h : v = 0
    · simp [h]
    · rw [beBytes_step h, beNat_concat, ih (v / 256) (by omega), BitVec.toNat_ofNat]
      omega

/-- An encoding fits in `n` bytes exactly when its value is below `256^n`. -/
theorem beBytes_length_le_iff (v n : Nat) : (beBytes v).length ≤ n ↔ v < 256 ^ n := by
  induction v using Nat.strongRecOn generalizing n with
  | ind v ih =>
    by_cases h : v = 0
    · simp [h]
    · rw [beBytes_step h, List.length_append, List.length_singleton]
      cases n with
      | zero => simp; omega
      | succ n =>
        rw [Nat.add_le_add_iff_right, ih (v / 256) (by omega), pow_succ,
          Nat.div_lt_iff_lt_mul (by decide)]

/-- No leading zero byte. -/
theorem beBytes_head (v : Nat) : (beBytes v).head? ≠ some 0 := by
  induction v using Nat.strongRecOn with
  | ind v ih =>
    by_cases h : v = 0
    · simp [h]
    · rw [beBytes_step h]
      by_cases h' : v / 256 = 0
      · rw [h']
        have : v < 256 := by omega
        simp only [beBytes_zero, List.nil_append, List.head?_cons, ne_eq, Option.some.injEq]
        intro h0
        have := congrArg BitVec.toNat h0
        simp at this
        omega
      · have hne : beBytes (v / 256) ≠ [] := by
          intro h0
          have := beNat_beBytes (v / 256)
          rw [h0] at this
          exact h' this.symm
        rw [List.head?_append_of_ne_nil _ hne]
        exact ih _ (by omega)

/-! ### Blocks -/

theorem blockOf_toList {bs : List Byte} (h : bs.length = 16) : (blockOf bs).toList = bs := by
  apply List.ext_getElem
  · simp [h]
  · intro i h1 h2
    simp [blockOf, h2]

theorem ceil16_spec (n a : Nat) (h : a < n) : a / 16 < ceil16 n := by
  unfold ceil16; omega

end Sys2Proof.Machine
end

