-- ==== Sys2Proof/Laws/Commands.lean ====
section
/-! SUPPORT. The shared operations of the commands: what each can do, said once. -/

namespace Sys2Proof.Machine

/-! ### Checks and conclusions -/

@[simp] theorem require_true (e : ErrorKind) : require true e = .ok () := rfl

@[simp] theorem require_false (e : ErrorKind) : require false e = .error e := rfl

@[simp] theorem ok_bind {α β : Type} (a : α) (f : α → Except ErrorKind β) :
    ((Except.ok a : Except ErrorKind α) >>= f) = f a := rfl

@[simp] theorem error_bind {α β : Type} (e : ErrorKind) (f : α → Except ErrorKind β) :
    ((Except.error e : Except ErrorKind α) >>= f) = .error e := rfl

@[simp] theorem conclude_ok (s t : State) : conclude s (.ok t) = .next (complete t) := rfl

@[simp] theorem conclude_error (s : State) (e : ErrorKind) :
    conclude s (.error e) = .next (raise e s) := rfl

/-- A passed check. -/
theorem bind_of_ok {α β : Type} {x : Except ErrorKind α} {a : α} (h : x = .ok a)
    (f : α → Except ErrorKind β) : (x >>= f) = f a := by rw [h]; rfl

/-- A failed check. -/
theorem bind_of_error {α β : Type} {x : Except ErrorKind α} {e : ErrorKind} (h : x = .error e)
    (f : α → Except ErrorKind β) : (x >>= f) = .error e := by rw [h]; rfl

/-- A bind that succeeds: each part did. -/
theorem bind_eq_ok {α β : Type} {x : Except ErrorKind α} {f : α → Except ErrorKind β} {b : β}
    (h : (x >>= f) = .ok b) : ∃ a, x = .ok a ∧ f a = .ok b := by
  cases x with
  | error e => cases h
  | ok a => exact ⟨a, rfl, h⟩

theorem require_eq_ok {b : Bool} {e : ErrorKind} {u : Unit} (h : require b e = .ok u) : b = true := by
  cases b with
  | false => cases h
  | true => rfl

/-- A conclusion is always a next state: the completion of a success, or the fault. -/
theorem conclude_cases (s : State) (x : Except ErrorKind State) :
    (∃ t, x = .ok t ∧ conclude s x = .next (complete t)) ∨
      (∃ e, x = .error e ∧ conclude s x = .next (raise e s)) := by
  cases x with
  | ok t => exact Or.inl ⟨t, rfl, rfl⟩
  | error e => exact Or.inr ⟨e, rfl, rfl⟩

/-! ### Slots -/

theorem readSlot_of_value {s : State} {i : Slot} {v : Nat} (h : SlotValue s i v) :
    readSlot s i = .ok v := by
  obtain ⟨hl, hv⟩ := h
  rw [readSlot, if_pos hl]
  exact congrArg _ hv

theorem readSlot_unreadable {s : State} {i : Slot} (h : ¬ SlotReadable s i) :
    readSlot s i = .error .badLength := if_neg h

theorem readSlot_readable {s : State} {i : Slot} (h : SlotReadable s i) :
    ∃ v, readSlot s i = .ok v ∧ SlotValue s i v :=
  ⟨_, if_pos h, h, rfl⟩

/-- A slot read answers a value or `BadLength`. -/
theorem readSlot_cases (s : State) (i : Slot) :
    (∃ v, readSlot s i = .ok v ∧ SlotValue s i v) ∨
      (readSlot s i = .error .badLength ∧ ¬ SlotReadable s i) := by
  by_cases h : SlotReadable s i
  · exact Or.inl (readSlot_readable h)
  · exact Or.inr ⟨readSlot_unreadable h, h⟩

/-- The bytes that a write of `v` stores in a slot. -/
theorem slotBytes_length {v : Nat} (h : v < 256 ^ 512) :
    (beBytes v ++ List.replicate (Config.bnBytes - (beBytes v).length) 0 : List Byte).length = 512 := by
  have := (beBytes_length_le_iff v 512).mpr h
  simp only [List.length_append, List.length_replicate, Config.bnBytes]
  omega

/-- What a slot write leaves, when the value fits. -/
structure SlotStored (s t : State) (i : Slot) (v : Nat) : Prop where
  eq : t = { s with bnLen := t.bnLen, mem := t.mem }
  written : SlotWritten t i v
  bnLen : ∀ j : Slot, j ≠ i → t.bnLen[j] = s.bnLen[j]
  outside : ∀ a, a < bnBase i ∨ bnBase i + Config.bnBytes ≤ a → t.readByte a = s.readByte a
  wf : Memory.wf s.mem → Memory.wf t.mem

theorem writeSlot_fits {s : State} {i : Slot} {v : Nat} (h : v < 256 ^ 512) :
    ∃ t, writeSlot s i v = .ok t ∧ SlotStored s t i v := by
  have hle : (beBytes v).length ≤ 512 := (beBytes_length_le_iff v 512).mpr h
  have hlen := slotBytes_length h
  refine ⟨_, if_pos hle, rfl, ⟨?_, ?_⟩, ?_, ?_, ?_⟩
  · have hi := i.isLt
    simp only [Fin.getElem_fin, Vector.getElem_set_self, BitVec.toNat_ofNat]
    exact Nat.mod_eq_of_lt (lt_of_le_of_lt hle (by decide))
  · intro j hj
    refine (readByte_writeBytes_inside s (bnBase i) _ j (by rw [hlen]; exact hj)).trans ?_
    by_cases hjl : j < (beBytes v).length
    · rw [List.getElem_append_left hjl, List.getD_eq_getElem?_getD, List.getElem?_eq_getElem hjl]
      rfl
    · rw [List.getElem_append_right (by omega), List.getD_eq_getElem?_getD,
        List.getElem?_eq_none (by omega)]
      simp
  · intro j hj
    have : i.val ≠ j.val := fun e => hj (Fin.ext e.symm)
    simp only [Fin.getElem_fin]
    exact Vector.getElem_set_ne _ _ this
  · intro a ha
    refine readByte_writeBytes_outside s (bnBase i) _ a ?_
    rw [hlen]
    exact ha
  · intro hm
    refine Memory.wf_writeRange hm fun a h1 h2 => ?_
    rw [hlen] at h2
    exact isMemory_slot i h1 h2

theorem writeSlot_overflow {s : State} {i : Slot} {v : Nat} (h : 256 ^ 512 ≤ v) :
    writeSlot s i v = .error .capacity := by
  refine if_neg fun hle => ?_
  have := (beBytes_length_le_iff v 512).mp hle
  omega

/-- A slot write answers the state with the value stored, or `Capacity`. -/
theorem writeSlot_cases (s : State) (i : Slot) (v : Nat) :
    (v < 256 ^ 512 ∧ ∃ t, writeSlot s i v = .ok t ∧ SlotStored s t i v) ∨
      (256 ^ 512 ≤ v ∧ writeSlot s i v = .error .capacity) := by
  by_cases h : v < 256 ^ 512
  · exact Or.inl ⟨h, writeSlot_fits h⟩
  · exact Or.inr ⟨by omega, writeSlot_overflow (by omega)⟩

/-- A slot that was written with `v` reads as `v`. -/
theorem slotValue_of_written {t : State} {i : Slot} {v : Nat} (hv : v < 256 ^ 512)
    (h : SlotWritten t i v) : SlotValue t i v := by
  have hle : (beBytes v).length ≤ 512 := (beBytes_length_le_iff v 512).mpr hv
  obtain ⟨hl, hb⟩ := h
  refine ⟨hl ▸ hle, ?_⟩
  rw [hl]
  have hbytes : ((List.range (beBytes v).length).map fun j => t.readByte (bnBase i + j)) =
      beBytes v := by
    apply List.ext_getElem
    · simp
    · intro j h1 h2
      rw [List.getElem_map, List.getElem_range, hb j (lt_of_lt_of_le h2 hle),
        List.getD_eq_getElem?_getD, List.getElem?_eq_getElem h2]
      rfl
  rw [hbytes, beNat_beBytes]

/-- Two slots share no byte. -/
theorem slots_disjoint {i j : Slot} (h : i ≠ j) :
    bnBase i + Config.bnBytes ≤ bnBase j ∨ bnBase j + Config.bnBytes ≤ bnBase i := by
  have : i.val ≠ j.val := fun e => h (Fin.ext e)
  simp only [bnBase, Config.bnBytes]
  omega

end Sys2Proof.Machine
end

