-- ==== Sys2Proof/Laws/Engine.lean ====
section
/-! SUPPORT. The shared forms of the commands, the arithmetic of M-RSA, and the two kinds of turn: what
each can do, said once. -/

namespace Sys2Proof.Machine

/-! ### Block commands -/

/-- A keyless block command completes, with `ST` replaced (R110). -/
theorem transformSt_eq (f : Block → Block) (s : State) :
    transformSt f s = .next (complete { s with st := f s.st }) := rfl

/-- A keyed block command completes with a key, and without one faults (R110). -/
theorem transformStKeyed_cases (f : Block → Block) (s : State) :
    (s.keyValid = true ∧ transformStKeyed f s = .next (complete { s with st := f s.st })) ∨
      (s.keyValid = false ∧ transformStKeyed f s = .next (raise .noKey s)) := by
  cases h : s.keyValid
  · exact Or.inr ⟨rfl, by simp [transformStKeyed, h]⟩
  · exact Or.inl ⟨rfl, by simp [transformStKeyed, h]⟩

/-- `LDKEY` completes for a key of `KEY_BYTES` bytes, and otherwise faults (R130). -/
theorem execLdkey_cases (s : State) :
    (s.keyLen.toNat = 16 ∧ execLdkey s =
        .next (complete { s with rk := expandKey Config.cipher s.key, keyValid := true })) ∨
      (s.keyLen.toNat ≠ 16 ∧ execLdkey s = .next (raise .keyLengthMismatch s)) := by
  by_cases h : s.keyLen.toNat = 16
  · exact Or.inl ⟨h, by simp [execLdkey, h]⟩
  · exact Or.inr ⟨h, by simp [execLdkey, h]⟩

/-! ### Chaining commands -/

/-- The checks of R140: passed, or `NoKey`, or `BadLength`. -/
theorem chainChecks_cases (s : State) :
    (s.keyValid = true ∧ s.len.toNat ≤ 65536 ∧ chainChecks s = .ok ()) ∨
    (s.keyValid = false ∧ chainChecks s = .error .noKey) ∨
    (s.keyValid = true ∧ 65536 < s.len.toNat ∧ chainChecks s = .error .badLength) := by
  cases hk : s.keyValid
  · exact Or.inr (Or.inl ⟨rfl, by simp [chainChecks, hk]⟩)
  · by_cases hl : s.len.toNat ≤ 65536
    · exact Or.inl ⟨rfl, hl, by simp [chainChecks, hk, hl]⟩
    · exact Or.inr (Or.inr ⟨rfl, by omega, by simp [chainChecks, hk, hl]⟩)

/-! ### M-RSA -/

/-- The arithmetic of `RSAMK` (R181): a key, or `OperandRange`, or `NonInvertibleModulus`. -/
theorem deriveKey_cases (p q r : Nat) :
    (2 ≤ p ∧ 2 ≤ q ∧ 2 ≤ r ∧
      Nat.gcd (65537 % ((p - 1) * (q - 1) * (r - 1))) ((p - 1) * (q - 1) * (r - 1)) = 1 ∧
      ∃ d, deriveKey p q r = .ok (p * q * r, 65537, d) ∧ d < (p - 1) * (q - 1) * (r - 1) ∧
        65537 * d % ((p - 1) * (q - 1) * (r - 1)) = 1 % ((p - 1) * (q - 1) * (r - 1))) ∨
    ((p < 2 ∨ q < 2 ∨ r < 2) ∧ deriveKey p q r = .error .operandRange) ∨
    (2 ≤ p ∧ 2 ≤ q ∧ 2 ≤ r ∧
      Nat.gcd (65537 % ((p - 1) * (q - 1) * (r - 1))) ((p - 1) * (q - 1) * (r - 1)) ≠ 1 ∧
      deriveKey p q r = .error .nonInvertibleModulus) := by
  by_cases h : 2 ≤ p ∧ 2 ≤ q ∧ 2 ≤ r
  · obtain ⟨hp, hq, hr⟩ := h
    have hreq : (decide (2 ≤ p) && decide (2 ≤ q) && decide (2 ≤ r)) = true := by simp [hp, hq, hr]
    have hpos : 1 ≤ (p - 1) * (q - 1) * (r - 1) :=
      Nat.mul_pos (Nat.mul_pos (by omega) (by omega)) (by omega)
    rcases modInv_cases 65537 _ hpos with ⟨hg, d, hd, hlt, hmul⟩ | ⟨hg, hd⟩
    · exact Or.inl ⟨hp, hq, hr, hg, d, by simp [deriveKey, hreq, hd], hlt, hmul⟩
    · exact Or.inr (Or.inr ⟨hp, hq, hr, hg, by simp [deriveKey, hreq, hd]⟩)
  · have hreq : (decide (2 ≤ p) && decide (2 ≤ q) && decide (2 ≤ r)) = false := by
      simp only [Bool.and_eq_false_iff, decide_eq_false_iff_not]
      tauto
    exact Or.inr (Or.inl ⟨by omega, by simp [deriveKey, hreq]⟩)

/-- An inverse of a product modulo a number of at least 2 coprime to both factors. -/
theorem modInv_product {a b m : Nat} (hm : 2 ≤ m) (ha : Nat.Coprime a m) (hb : Nat.Coprime b m) :
    ∃ y, modInv (a * b) m = .ok y ∧ y < m ∧ a * b * y % m = 1 := by
  have hc : Nat.gcd (a * b % m) m = 1 := by
    rw [← Nat.gcd_rec, Nat.gcd_comm]
    exact Nat.Coprime.mul_left ha hb
  rcases modInv_cases (a * b) m (by omega) with ⟨_, y, hy, hlt, hmul⟩ | ⟨hg, _⟩
  · exact ⟨y, hy, hlt, by rw [hmul]; exact Nat.mod_eq_of_lt hm⟩
  · exact absurd hc hg

/-- `crt3` of pairwise coprime moduli (R184). -/
theorem crt3_eq {p q r : Nat} (hp : 2 ≤ p) (hq : 2 ≤ q) (hr : 2 ≤ r) (hpq : Nat.Coprime p q)
    (hpr : Nat.Coprime p r) (hqr : Nat.Coprime q r) (m1 m2 m3 n : Nat) :
    ∃ i1 i2 i3, i1 < p ∧ i2 < q ∧ i3 < r ∧ q * r * i1 % p = 1 ∧ p * r * i2 % q = 1 ∧
      p * q * i3 % r = 1 ∧ crt3 m1 m2 m3 p q r n =
        .ok ((m1 * (q * r) * i1 + m2 * (p * r) * i2 + m3 * (p * q) * i3) % n) := by
  obtain ⟨i1, e1, l1, h1⟩ := modInv_product hp hpq.symm hpr.symm
  obtain ⟨i2, e2, l2, h2⟩ := modInv_product hq hpq hqr.symm
  obtain ⟨i3, e3, l3, h3⟩ := modInv_product hr hpr hqr
  exact ⟨i1, i2, i3, l1, l2, l3, h1, h2, h3, by simp [crt3, e1, e2, e3]⟩

theorem modInv_ok_or (a m : Nat) :
    (∃ y, modInv a m = .ok y) ∨ modInv a m = .error .nonInvertibleModulus := by
  unfold modInv
  simp only
  split
  · exact Or.inl ⟨_, rfl⟩
  · exact Or.inr rfl

/-- `crt3` answers a number or `NonInvertibleModulus`. -/
theorem crt3_cases (m1 m2 m3 p q r n : Nat) :
    (∃ y, crt3 m1 m2 m3 p q r n = .ok y) ∨
      crt3 m1 m2 m3 p q r n = .error .nonInvertibleModulus := by
  rcases modInv_ok_or (q * r) p with ⟨i1, e1⟩ | e1
  · rcases modInv_ok_or (p * r) q with ⟨i2, e2⟩ | e2
    · rcases modInv_ok_or (p * q) r with ⟨i3, e3⟩ | e3
      · exact Or.inl ⟨_, by simp only [crt3, e1, e2, e3, ok_bind]; rfl⟩
      · exact Or.inr (by simp [crt3, e1, e2, e3])
    · exact Or.inr (by simp [crt3, e1, e2])
  · exact Or.inr (by simp [crt3, e1])

/-! ### Turns -/

/-- The engine's turn: nothing in flight and nothing done, a command carried out, or an illegal word. -/
theorem engineTurn_cases (s : State) :
    (s.inFlight = none ∧ engineTurn s = .next s) ∨
    (∃ w i, s.inFlight = some w ∧ decode w = .ok i ∧ engineTurn s = exec i s) ∨
    (∃ w e, s.inFlight = some w ∧ decode w = .error e ∧
      engineTurn s = .next (raise .illegalCommand s)) := by
  cases hf : s.inFlight with
  | none => exact Or.inl ⟨rfl, by simp [engineTurn, hf]⟩
  | some w =>
    cases hd : decode w with
    | ok i => exact Or.inr (Or.inl ⟨w, i, rfl, hd, by simp [engineTurn, hf, hd]⟩)
    | error e => exact Or.inr (Or.inr ⟨w, e, rfl, hd, by simp [engineTurn, hf, hd]⟩)

/-- One step: the engine's turn, or one action of the host. -/
theorem step_cases (s : State) :
    (s.agenda = [] ∧ step s = engineTurn s) ∨
    (∃ rest, s.agenda = .engine :: rest ∧ step s = engineTurn { s with agenda := rest }) ∨
    (∃ act rest, s.agenda = .host act :: rest ∧
      step s = .next (hostAct { s with agenda := rest } act)) := by
  cases ha : s.agenda with
  | nil => exact Or.inl ⟨rfl, by simp [step, takeTurn, ha]⟩
  | cons t rest =>
    cases t with
    | engine => exact Or.inr (Or.inl ⟨rest, rfl, by simp [step, takeTurn, ha]⟩)
    | host act => exact Or.inr (Or.inr ⟨act, rest, rfl, by simp [step, takeTurn, ha]⟩)

end Sys2Proof.Machine
end

