-- ==== Sys2Proof/Laws/Host.lean ====
section
/-! SUPPORT. The host's side: wire fields, pieces of a long buffer, what a generated key gives, and that
the number of polls of a `WAIT` does not show in the state it ends in. -/

namespace Sys2Proof.Machine

/-! ### Wire fields (R205 to R207) -/

@[simp] theorem wireWord_length (v : Nat) : (wireWord v).length = 4 := beFixed_length _ 4

theorem lengthWord_toNat {v : Nat} (h : v < 2 ^ 32) : (lengthWord v).toNat = v := by
  rw [lengthWord, if_pos h, BitVec.toNat_ofNat, Nat.mod_eq_of_lt h]

theorem beNat_wireWord {v : Nat} (h : v < 2 ^ 32) : beNat (wireWord v) = v := by
  rw [wireWord, lengthWord_toNat h, beNat_beFixed]
  exact Nat.mod_eq_of_lt h

/-- A field with its length in front of it is read back, whatever follows. -/
theorem takeField_wire (body rest : List Byte) (h : body.length < 2 ^ 32) :
    takeField (wireWord body.length ++ (body ++ rest)) = some (body, rest) := by
  simp [takeField, beNat_wireWord h]

/-- A payload frame gives its record back (R207). -/
theorem readPayload_payloadFrame (f : Payload) (hk : f.encKey.length < 2 ^ 32)
    (hd : f.encData.length < 2 ^ 32) : readPayload (payloadFrame f) = some f := by
  have h3 : f.iv.toList.length = 16 := by simp
  have e1 : (payloadFrame f).take 4 = wireWord f.encKey.length := by
    simp [payloadFrame]
  have e2 : (payloadFrame f).drop 4 =
      wireWord f.encData.length ++ (f.iv.toList ++ (f.encKey ++ f.encData)) := by
    simp [payloadFrame]
  have e3 : (payloadFrame f).drop 8 = f.iv.toList ++ (f.encKey ++ f.encData) := by
    rw [show 8 = 4 + 4 from rfl, ← List.drop_drop, e2]
    simp
  have e4 : (payloadFrame f).drop 24 = f.encKey ++ f.encData := by
    rw [show 24 = 8 + 16 from rfl, ← List.drop_drop, e3]
    exact List.drop_left' h3
  have e5 : blockOf (f.iv.toList ++ (f.encKey ++ f.encData)) = f.iv := by
    apply Vector.ext
    intro j hj
    simp [blockOf, List.getElem?_append_left (h3.symm ▸ hj), hj]
  have e6 : 24 ≤ (payloadFrame f).length := by simp [payloadFrame]; omega
  simp only [readPayload, e1, e2, e3, e4, e5, e6, beNat_wireWord hk]
  simp [beNat_wireWord hd]

/-! ### Pieces (R211) -/

theorem pieceBytes_spec (k : Nat) :
    16 ≤ Config.pieceBytes k ∧ Config.pieceBytes k ≤ Config.bufBytes ∧
      Config.pieceBytes k % 16 = 0 := by
  have := Nat.mod_lt (Config.pieceChoice k) (show 0 < Config.bufBytes / 16 by decide)
  simp only [Config.pieceBytes, Config.bufBytes] at *
  omega

/-- Pieces that are never empty join up to the string that was cut. -/
theorem cutPieces_flatten {size : Nat → Nat} (hs : ∀ k, 1 ≤ size k) :
    ∀ (fuel k : Nat) (data : List Byte), data.length ≤ fuel →
      (cutPieces size fuel k data).flatten = data
  | 0, _, data, h => by
    rw [List.eq_nil_of_length_eq_zero (Nat.le_zero.mp h)]
    rfl
  | fuel + 1, k, data, h => by
    by_cases hd : data = []
    · simp [cutPieces, hd]
    · have := hs k
      rw [cutPieces, if_neg hd, List.flatten_cons,
        cutPieces_flatten hs fuel (k + 1) _ (by rw [List.length_drop]; omega), List.take_append_drop]

theorem cutPieces_length {size : Nat → Nat} {n : Nat} (hs : ∀ k, size k ≤ n) :
    ∀ (fuel k : Nat) (data : List Byte), ∀ x ∈ cutPieces size fuel k data, x.length ≤ n
  | 0, _, _, x, h => by simp [cutPieces] at h
  | fuel + 1, k, data, x, h => by
    rw [cutPieces] at h
    split at h
    · simp at h
    · rcases List.mem_cons.mp h with rfl | h
      · exact (List.length_take_le _ _).trans (hs k)
      · exact cutPieces_length hs fuel (k + 1) _ x h

/-- The pieces of a buffer join up to it, and each fits `IBUF`. -/
theorem bulkPieces_spec (data : List Byte) :
    (bulkPieces data).flatten = data ∧ ∀ x ∈ bulkPieces data, x.length ≤ Config.bufBytes := by
  unfold bulkPieces
  split
  · rename_i h
    exact ⟨by simp, by simpa using h⟩
  · exact ⟨cutPieces_flatten (fun k => by have := pieceBytes_spec k; omega) _ _ _ le_rfl,
      cutPieces_length (fun k => (pieceBytes_spec k).2.1) _ _ _⟩

/-- The first piece takes the call's own `IV`, in either mode (R143, R211). -/
theorem pieceIv_first (m : Mode) (iv : Block) : pieceIv m iv 0 iv = iv := by
  cases m with
  | chained => rfl
  | counter =>
    have hlt : beNat iv.toList < 256 ^ 16 := by simpa using beNat_lt iv.toList
    have e : beFixed ((beNat iv.toList + 0) % 2 ^ 128) 16 = iv.toList := by
      apply beNat_injective
      · simp
      · rw [beNat_beFixed]; omega
    apply Vector.toList_inj.mp
    rw [pieceIv, counterBlock, e, blockOf_toList (by simp)]

/-! ### Key generation (R208, R209) -/

/-- What may be relied on of a generated key, once its `n` is the product that `RSAMK` writes (R181). -/
theorem generateKey_ofBitLength {bitLength : Nat} {k : TriplePrimeKey} {t : State} :
    ∀ (retries : Nat) (draws : List (KeyDraw bitLength)) (s : State),
      generateKey retries draws s = (t, .ok k) → k.n = k.p * k.q * k.r → k.OfBitLength bitLength
  | 0, _, _, h, _ => by simp [generateKey] at h
  | _ + 1, [], _, h, _ => by simp [generateKey] at h
  | retries + 1, ⟨p, q, r, fits⟩ :: draws, s, h, hn => by
    simp only [generateKey] at h
    split at h
    · split at h
      · exact generateKey_ofBitLength retries draws _ h hn
      · cases (Prod.mk.inj h).2
    · obtain rfl := Except.ok.inj (Prod.mk.inj h).2
      exact ⟨fits.primes, fits.distinct, (congrArg bitLen hn).trans fits.product⟩

/-! ### The polls of a `WAIT` -/

/-- The outcome with another answer to the host. -/
def withResponse (r : Option Response) :
    Host.Outcome State Fault Refusal → Host.Outcome State Fault Refusal
  | .next t => .next { t with response := r }
  | .fault e => .fault e
  | .refused e => .refused e

/-- A command's writes with another answer to the host. -/
def responseResult (r : Option Response) : Except ErrorKind State → Except ErrorKind State
  | .ok t => .ok { t with response := r }
  | .error e => .error e

theorem conclude_withResponse (r : Option Response) (s : State) (x : Except ErrorKind State) :
    conclude { s with response := r } (responseResult r x) = withResponse r (conclude s x) := by
  cases x <;> rfl

theorem responseResult_bind {α : Type} (r : Option Response) (x : Except ErrorKind α)
    (f : α → Except ErrorKind State) :
    responseResult r (x >>= f) = x >>= fun a => responseResult r (f a) := by
  cases x <;> rfl

theorem writeSlot_withResponse (r : Option Response) (s : State) (i : Slot) (v : Nat) :
    writeSlot { s with response := r } i v = responseResult r (writeSlot s i v) := by
  unfold writeSlot
  split <;> rfl

/-- The writes of a slot after another. -/
theorem writeSlot_bind_withResponse (r : Option Response) (s : State) (i : Slot) (v : Nat)
    {f g : State → Except ErrorKind State}
    (h : ∀ t, g { t with response := r } = f t) :
    (writeSlot { s with response := r } i v >>= g) = (writeSlot s i v >>= f) := by
  rw [writeSlot_withResponse]
  cases writeSlot s i v with
  | ok t => exact h t
  | error e => rfl

/-- No command reads the last answer to the host, or changes it. -/
theorem exec_withResponse (r : Option Response) (i : Instr) (s : State) :
    exec i { s with response := r } = withResponse r (exec i s) := by
  have chain : chainChecks { s with response := r } = chainChecks s := rfl
  have slot : ∀ j, readSlot { s with response := r } j = readSlot s j := fun _ => rfl
  cases i with
  | nop => rfl
  | subb => rfl
  | isubb => rfl
  | shrow => rfl
  | ishrow => rfl
  | mixc => rfl
  | imixc => rfl
  | ark k =>
    simp only [exec, execArk]
    split
    · exact (conclude_withResponse r s _).symm ▸ by
        simp only [transformStKeyed, responseResult_bind]; rfl
    · rfl
  | ldkey => simp only [exec, execLdkey, ← conclude_withResponse, responseResult_bind]; rfl
  | encb => simp only [exec, execEncb, transformStKeyed, ← conclude_withResponse, responseResult_bind]; rfl
  | decb => simp only [exec, execDecb, transformStKeyed, ← conclude_withResponse, responseResult_bind]; rfl
  | ctr => simp only [exec, execCtr, ← conclude_withResponse, responseResult_bind]; rfl
  | cbce => simp only [exec, execCbce, ← conclude_withResponse, responseResult_bind]; rfl
  | cbcd => simp only [exec, execCbcd, ← conclude_withResponse, responseResult_bind]; rfl
  | bnmul =>
    simp only [exec, execBnmul, ← conclude_withResponse, responseResult_bind, slot,
      writeSlot_withResponse]
  | bnmod =>
    simp only [exec, execBnmod, ← conclude_withResponse, responseResult_bind, slot,
      writeSlot_withResponse]
  | bnmodexp =>
    simp only [exec, execBnmodexp, ← conclude_withResponse, responseResult_bind, slot,
      writeSlot_withResponse]
  | bnmodinv =>
    simp only [exec, execBnmodinv, ← conclude_withResponse, responseResult_bind, slot,
      writeSlot_withResponse]
  | rsamk =>
    simp only [exec, execRsamk, ← conclude_withResponse, responseResult_bind, slot]
    refine congrArg _ (bind_congr fun p => bind_congr fun q => bind_congr fun x =>
      bind_congr fun k => ?_)
    exact writeSlot_bind_withResponse r s _ _ fun t =>
      writeSlot_bind_withResponse r t _ _ fun u => writeSlot_withResponse r u _ _
  | rsaenc =>
    simp only [exec, execRsaenc, ← conclude_withResponse, responseResult_bind, slot,
      writeSlot_withResponse]
  | rsadec =>
    simp only [exec, execRsadec, ← conclude_withResponse, responseResult_bind, slot,
      writeSlot_withResponse]

theorem engineTurn_withResponse (r : Option Response) (s : State) :
    engineTurn { s with response := r } = withResponse r (engineTurn s) := by
  rcases engineTurn_cases s with ⟨hf, he⟩ | ⟨w, i, hf, hd, he⟩ | ⟨w, e, hf, hd, he⟩
  · simp [engineTurn, hf, withResponse]
  · rw [he, ← exec_withResponse]
    simp [engineTurn, hf, hd]
  · rw [he]
    simp only [engineTurn, hf, hd]
    rfl

theorem runScript_append (ts us : List Turn) (s : State) :
    (runScript (ts ++ us) s).1 = (runScript us (runScript ts s).1).1 := by
  induction ts generalizing s with
  | nil => rfl
  | cons t ts ih =>
    have h : ∀ vs, (runScript (t :: vs) s).1 = (runScript vs (afterTurn s t)).1 := fun vs => by
      simp only [runScript]
      split <;> rfl
    rw [List.cons_append, h, h, ih]

/-- Reading `STATUS` any number of times changes the answer to the host alone. -/
theorem runScript_polls (n : Nat) (s : State) :
    ∃ r, (runScript (List.replicate n (rd32 0x10)).flatten s).1 = { s with response := r } := by
  induction n generalizing s with
  | zero => exact ⟨s.response, rfl⟩
  | succ n ih =>
    rw [List.replicate_succ, List.flatten_cons, runScript_append]
    obtain ⟨r, h⟩ := ih (runScript (rd32 0x10) s).1
    have hr : ∃ r', (runScript (rd32 0x10) s).1 = { s with response := r' } := by
      rcases memRead_cases s 0x10 4 with ⟨_, e⟩ | ⟨_, e⟩ <;>
        exact ⟨_, (show (runScript (rd32 0x10) s).1 = memRead s 0x10 4 by
          simp only [runScript, rd32, afterTurn, hostAct]; split <;> rfl).trans e⟩
    obtain ⟨r', hr'⟩ := hr
    exact ⟨r, h.trans (by rw [hr'])⟩

/-- However many polls of a `WAIT` still show `BUSY`, it ends in the same state (log entry 13). -/
theorem wait_polls (n : Nat) (s : State) : (runScript (wait n) s).1 = (runScript (wait 0) s).1 := by
  have last : ∀ (r : Option Response) (t : State),
      (runScript (rd32 0x10) { t with response := r }).1 = (runScript (rd32 0x10) t).1 := fun r t => by
    have e : ∀ u : State, (runScript (rd32 0x10) u).1 = memRead u 0x10 4 := fun u => by
      simp only [runScript, rd32, afterTurn, hostAct]
      split <;> rfl
    rw [e, e]
    rfl
  have engine : ∀ (r : Option Response) (t : State),
      afterTurn { t with response := r } .engine = { afterTurn t .engine with response := r } ∨
        afterTurn { t with response := r } .engine = { t with response := r } ∧
          afterTurn t .engine = t := fun r t => by
    simp only [afterTurn, engineTurn_withResponse]
    cases engineTurn t with
    | next u => exact Or.inl rfl
    | fault f => exact Or.inr ⟨rfl, rfl⟩
    | refused f => exact Or.inr ⟨rfl, rfl⟩
  obtain ⟨r, h⟩ := runScript_polls n s
  have split : ∀ t : State, (runScript ([.engine] ++ rd32 0x10) t).1 =
      (runScript (rd32 0x10) (afterTurn t .engine)).1 := fun t => rfl
  rw [wait, wait, List.append_assoc, List.append_assoc, runScript_append, h, split]
  show _ = (runScript ([.engine] ++ rd32 0x10) s).1
  rw [split]
  rcases engine r s with e | ⟨e, e'⟩
  · rw [e, last]
  · rw [e, e', last]

end Sys2Proof.Machine
end

