-- ==== Sys2Proof/Laws/PerInstr.lean ====
section
/-! SUPPORT. A statement per command: the encoding of a command lies in its row of R91's table. -/

namespace Sys2Proof.Laws.EncodeRow

/-- The encoding of a well-formed command, under its row's mask, is its row's match word (R91, R95). -/
def Statement (i : Instr) : Prop :=
  i.wellFormed = true → encode i &&& i.rowMask = i.rowMatch

theorem nop : Statement .nop := fun _ => by decide
theorem subb : Statement .subb := fun _ => by decide
theorem isubb : Statement .isubb := fun _ => by decide
theorem shrow : Statement .shrow := fun _ => by decide
theorem ishrow : Statement .ishrow := fun _ => by decide
theorem mixc : Statement .mixc := fun _ => by decide
theorem imixc : Statement .imixc := fun _ => by decide

theorem ark (k : Nat) : Statement (.ark k) := by
  intro h
  have hk : k < 8 := by simpa [Instr.wellFormed] using h
  interval_cases k <;> decide

theorem ldkey : Statement .ldkey := fun _ => by decide
theorem encb : Statement .encb := fun _ => by decide
theorem decb : Statement .decb := fun _ => by decide
theorem ctr : Statement .ctr := fun _ => by decide
theorem cbce : Statement .cbce := fun _ => by decide
theorem cbcd : Statement .cbcd := fun _ => by decide
theorem bnmul : Statement .bnmul := fun _ => by decide
theorem bnmod : Statement .bnmod := fun _ => by decide
theorem bnmodexp : Statement .bnmodexp := fun _ => by decide
theorem bnmodinv : Statement .bnmodinv := fun _ => by decide
theorem rsamk : Statement .rsamk := fun _ => by decide
theorem rsaenc : Statement .rsaenc := fun _ => by decide
theorem rsadec : Statement .rsadec := fun _ => by decide

end Sys2Proof.Laws.EncodeRow
end

