-- ==== Sys2Proof/Tests/Slice0.lean ====
section
/-! SUPPORT. Tests: the well-formedness check, words of the opcode table, vectors of
95_test_vectors.md (named V<n> there), and for each statement with hypotheses a witness that meets them. -/

namespace Sys2Proof.Tests

-- One kernel evaluation at a time: many at once need more threads than the check's memory limit
-- has room for.
set_option Elab.async false

open Machine

/-! ### Helpers -/

/-- A number put in a slot: a byte string and its length. -/
def putSlot (s : State) (i : Slot) (bs : List Byte) : State :=
  { s.writeBytes (bnBase i) bs with bnLen := s.bnLen.set i (BitVec.ofNat 32 bs.length) }

/-- Reset, then numbers in slots. -/
def slots (l : List (Slot × List Byte)) : State :=
  l.foldl (fun s x => putSlot s x.1 x.2) State.reset

/-- The number in a slot with its length, after a step that answered a next state. -/
def slotAfter (o : Host.Outcome State Fault Refusal) (i : Slot) : Option (Nat × Nat) :=
  match o with
  | .next t => some (t.bnLen[i].toNat, beNat (t.readBytes (bnBase i) t.bnLen[i].toNat))
  | .fault _ => none
  | .refused _ => none

/-- `STATUS` after a step that answered a next state. -/
def statusAfter (o : Host.Outcome State Fault Refusal) : Option Word :=
  match o with
  | .next t => some (statusWord t)
  | .fault _ => none
  | .refused _ => none

/-- The answer to the host after a step that answered a next state. -/
def answerAfter (o : Host.Outcome State Fault Refusal) : Option Response :=
  match o with
  | .next t => t.response
  | .fault _ => none
  | .refused _ => none

/-- `ST` after a step that answered a next state. -/
def stAfter (o : Host.Outcome State Fault Refusal) : Option (List Byte) :=
  match o with
  | .next t => some t.st.toList
  | .fault _ => none
  | .refused _ => none

/-- The step that runs a command word in state `s`. -/
def runs (s : State) (w : Nat) : Host.Outcome State Fault Refusal := step (s.withFetchWord 32 w)

/-- A step whose turn is the host's, after which nothing else is on the agenda. -/
def acts (s : State) (act : HostAction) : Host.Outcome State Fault Refusal :=
  step { s with agenda := [.host act] }

/-- A state with a key loaded. -/
def keyed : State := { State.reset with keyValid := true }

/-- The block 00 01 .. 0f. -/
def countBlock : Block := blockOf (beFixed 0x000102030405060708090a0b0c0d0e0f 16)

/-! ### Well-formedness: the one check, R92 -/

theorem test_wellFormed_refuses_index_8 : (Instr.ark 8).wellFormed = false := by decide
theorem test_wellFormed_admits_index_7 : (Instr.ark 7).wellFormed = true := by decide

/-! ### Decoding: one word of every row, written out from R91's table -/

theorem test_decode_blockCore :
    decode 0x00000001 = .ok .subb ∧ decode 0x00000002 = .ok .isubb ∧
    decode 0x00000003 = .ok .shrow ∧ decode 0x00000004 = .ok .ishrow ∧
    decode 0x00000005 = .ok .mixc ∧ decode 0x00000006 = .ok .imixc := by decide

theorem test_decode_ark :
    decode 0x00000007 = .ok (.ark 0) ∧ decode 0x00000107 = .ok (.ark 1) ∧
    decode 0x00000507 = .ok (.ark 5) ∧ decode 0x00000707 = .ok (.ark 7) := by decide

theorem test_decode_cipher :
    decode 0x00000000 = .ok .nop ∧ decode 0x00000010 = .ok .ldkey ∧
    decode 0x00000011 = .ok .encb ∧ decode 0x00000012 = .ok .decb := by decide

theorem test_decode_chaining :
    decode 0x00000020 = .ok .ctr ∧ decode 0x00000021 = .ok .cbce ∧
    decode 0x00000022 = .ok .cbcd := by decide

theorem test_decode_bigInt :
    decode 0x00000030 = .ok .bnmul ∧ decode 0x00000031 = .ok .bnmod ∧
    decode 0x00000032 = .ok .bnmodexp ∧ decode 0x00000033 = .ok .bnmodinv := by decide

theorem test_decode_mrsa :
    decode 0x00000040 = .ok .rsamk ∧ decode 0x00000041 = .ok .rsaenc ∧
    decode 0x00000042 = .ok .rsadec := by decide

/-- V4 to V7, V9. -/
theorem test_decode_refuses :
    decode 0x00000807 = .error .zeroFieldNotZero ∧ decode 0x00000111 = .error .indexFieldNotZero ∧
    decode 0x00000008 = .error .unassignedOp ∧ decode 0x80000001 = .error .zeroFieldNotZero ∧
    decode 0x00000043 = .error .unassignedOp := by decide

theorem test_tableWord_encb : decodeTableWord 32 0x11 = some .encb := by decide

/-! ### Block commands -/

/-- V21j. -/
theorem test_nop : statusAfter (runs State.reset 0x00) = some 0x02 := by decide +kernel

/-- V22. -/
theorem test_shrow : stAfter (runs { State.reset with st := countBlock } 0x03) =
    some (beFixed 0x00050a0f04090e03080d02070c01060b 16) := by decide +kernel

/-- V23. -/
theorem test_ishrow : stAfter (runs { State.reset with st := countBlock } 0x04) =
    some (beFixed 0x000d0a0704010e0b0805020f0c090603 16) := by decide +kernel

/-- V26 and V28 for one byte, under `AESP`. -/
theorem test_sbox_aesp : aesp.sbox 0x04 = 0xf2 ∧ aesp.invSbox 0xf2 = 0x04 := by decide +kernel

/-- V29, second column, under `AESP`: `MixColumns` and back. -/
theorem test_mixColumns_aesp :
    (aesp.mixcol #v[0xf2, 0x0a, 0x22, 0x5c]).toList = [0x9f, 0xdc, 0x58, 0x9d] ∧
    (aesp.invMixcol #v[0x9f, 0xdc, 0x58, 0x9d]).toList = [0xf2, 0x0a, 0x22, 0x5c] := by
  decide +kernel

/-- R117 by hand: `ARK 3` with `RK[3]` all 0xff complements `ST`. -/
theorem test_ark :
    stAfter (runs { keyed with rk := keyed.rk.set 3 (Vector.replicate 16 0xff), st := countBlock } 0x307) =
      some (beFixed 0xfffefdfcfbfaf9f8f7f6f5f4f3f2f1f0 16) := by decide +kernel

/-- V29g. -/
theorem test_ark_noKey : statusAfter (runs State.reset 0x07) = some 0x604 := by decide +kernel

/-- V21e. -/
theorem test_ldkey_length : statusAfter (runs { State.reset with keyLen := 0x18 } 0x10) = some 0x104 := by
  decide +kernel

/-- R130: `LDKEY` sets `KEYVALID`. -/
theorem test_ldkey : statusAfter (runs { State.reset with keyLen := 16 } 0x10) = some 0x0A := by
  decide +kernel

/-- V20: the first round key of the zero key under `AESP`, byte 0 to 3 of `RK[1]`. -/
theorem test_expand_aesp : ((expandKey aesp (Vector.replicate 16 0))[1]).toList.take 4 =
    [0x62, 0x63, 0x63, 0x63] := by decide +kernel

/-- V21d. -/
theorem test_encb_noKey : statusAfter (runs State.reset 0x11) = some 0x604 := by decide +kernel

/-- R132: with a key `ENCB` completes. -/
theorem test_encb : statusAfter (runs keyed 0x11) = some 0x0A := by decide +kernel

/-- R134: with a key `DECB` completes. -/
theorem test_decb : statusAfter (runs keyed 0x12) = some 0x0A := by decide +kernel

/-- V20, last full round: one round of R131 under `AESP`, first column. -/
theorem test_encRound_aesp_column :
    (aesp.mixcol #v[0x48, 0x6c, 0xea, 0x26]).toList = [0xe8, 0x93, 0x81, 0x12] := by decide +kernel

/-! ### Chaining -/

/-- V30b, V30f, V30e. -/
theorem test_counterBlock :
    beNat (counterBlock (blockOf (beFixed 0xff 16)) 1).toList = 0x100 ∧
    beNat (counterBlock (blockOf (beFixed 0x00ffffffffffffffffffffffffffffff 16)) 1).toList =
      0x01000000000000000000000000000000 ∧
    beNat (counterBlock (blockOf (beFixed 0xfffffffffffffffffffffffffffffffe 16)) 2).toList = 0 := by
  decide +kernel

/-- V36a. -/
theorem test_ctr_empty : statusAfter (runs keyed 0x20) = some 0x0A := by decide +kernel

/-- V36d. -/
theorem test_ctr_length : statusAfter (runs { keyed with len := 0x10001 } 0x20) = some 0x70C := by
  decide +kernel

/-- V36b. -/
theorem test_cbce_length : statusAfter (runs { keyed with len := 20 } 0x21) = some 0x70C := by
  decide +kernel

/-- V36f: `NoKey` before `BadLength`. -/
theorem test_cbce_noKey : statusAfter (runs { State.reset with len := 20 } 0x21) = some 0x604 := by
  decide +kernel

/-- R148 by hand, with the identity as block cipher: each block is combined with the output before it. -/
theorem test_cbceChain :
    (cbceChain id (Vector.replicate 16 1) [Vector.replicate 16 2, Vector.replicate 16 4]).map
      (fun b => b[15]) = [3, 7] := by decide +kernel

/-- V36c. -/
theorem test_cbcd_length : statusAfter (runs { keyed with len := 15 } 0x22) = some 0x70C := by
  decide +kernel

/-- R146: `CBCD` of one block completes. -/
theorem test_cbcd : statusAfter (runs { keyed with len := 16 } 0x22) = some 0x0A := by decide +kernel

/-- R142's example: ten blocks for four workers. -/
theorem test_defaultPartition :
    defaultPartition 10 (workerCount 4 10) = [(0, 3), (3, 6), (6, 8), (8, 10)] := by decide

/-! ### Big integers and M-RSA -/

/-- V37b. -/
theorem test_bnmul :
    slotAfter (runs (slots [(Slot.a, beFixed 0x0123456789abcdef 8), (Slot.b, beFixed 0xfedcba9876543210 8)])
      0x30) Slot.y = some (16, 0x0121fa00ad77d7422236d88fe5618cf0) := by decide +kernel

/-- V37d. -/
theorem test_bnmul_empty : slotAfter (runs (slots [(Slot.b, [0xff])]) 0x30) Slot.y = some (0, 0) := by
  decide +kernel

/-- V38b. -/
theorem test_bnmod :
    slotAfter (runs (slots [(Slot.a, [0x12, 0x35]), (Slot.m, [0x12, 0x35])]) 0x31) Slot.y = some (0, 0) := by
  decide +kernel

/-- V38e. -/
theorem test_bnmod_zero : statusAfter (runs (slots [(Slot.a, [5]), (Slot.m, [0, 0])]) 0x31) = some 0x804 := by
  decide +kernel

/-- V39b. -/
theorem test_bnmodexp :
    slotAfter (runs (slots [(Slot.a, [2]), (Slot.b, [3, 0xe8]), (Slot.m, beFixed 0xffffffffffffffc5 8)]) 0x32)
      Slot.y = some (8, 0xfd6598166f0cf3d8) := by decide +kernel

/-- V39d. -/
theorem test_bnmodexp_one :
    slotAfter (runs (slots [(Slot.a, [5]), (Slot.m, [1])]) 0x32) Slot.y = some (0, 0) := by decide +kernel

/-- V40b. -/
theorem test_bnmodinv :
    slotAfter (runs (slots [(Slot.a, [0x11]), (Slot.m, [0x0c, 0x30])]) 0x33) Slot.y = some (2, 0x0ac1) := by
  decide +kernel

/-- V40d. -/
theorem test_bnmodinv_none : statusAfter (runs (slots [(Slot.a, [6]), (Slot.m, [9])]) 0x33) = some 0x304 := by
  decide +kernel

/-- V41. -/
theorem test_rsamk :
    let o := runs (slots [(Slot.p, [0x0b]), (Slot.q, [0x0d]), (Slot.r, [0x11])]) 0x40
    slotAfter o Slot.n = some (2, 0x097f) ∧ slotAfter o Slot.e = some (3, 0x010001) ∧
      slotAfter o Slot.d = some (2, 0x0701) := by decide +kernel

/-- V41x. -/
theorem test_rsamk_none :
    statusAfter (runs (slots [(Slot.p, [0x0e, 0, 0x0f]), (Slot.q, [0x0d]), (Slot.r, [0x11])]) 0x40) =
      some 0x304 := by decide +kernel

/-- V41a. -/
theorem test_rsaenc :
    slotAfter (runs (slots [(Slot.a, [0x2a]), (Slot.n, [9, 0x7f]), (Slot.e, [1, 0, 1])]) 0x41) Slot.y =
      some (2, 0x026c) := by decide +kernel

/-- V41g. -/
theorem test_rsaenc_reset : statusAfter (runs State.reset 0x41) = some 0x804 := by decide +kernel

/-- V43, last row. -/
theorem test_rsadec :
    slotAfter (runs (slots [(Slot.a, [2, 0x6c]), (Slot.n, [9, 0x7f]), (Slot.d, [7, 1]), (Slot.p, [0x0b]),
      (Slot.q, [0x0d]), (Slot.r, [0x11])]) 0x42) Slot.y = some (1, 0x2a) := by decide +kernel

/-- V46f: `OperandRange` before `NonInvertibleModulus`. -/
theorem test_rsadec_range :
    statusAfter (runs (slots [(Slot.a, [2]), (Slot.n, [9, 0x7f]), (Slot.p, [0x0b]), (Slot.q, [0x0b])]) 0x42) =
      some 0x804 := by decide +kernel

/-! ### The bus -/

/-- V10, V12. -/
theorem test_read_constants :
    answerAfter (acts State.reset (.read 0x00 4)) = some (.word 0x4D415201) ∧
    answerAfter (acts State.reset (.read 0x08 4)) = some (.word 0x10000200) := by decide +kernel

/-- V11. -/
theorem test_cap0 : cap0Word 4 = 0x44101007 := by decide +kernel

/-- V13 to V16, V19a. -/
theorem test_bus_faults :
    answerAfter (acts State.reset (.read 0x02 4)) = some .busFault ∧
    answerAfter (acts State.reset (.read 0x10 1)) = some .busFault ∧
    answerAfter (acts State.reset (.read 0x100 4)) = some .busFault ∧
    answerAfter (acts State.reset (.read 0x20 4)) = some .busFault ∧
    answerAfter (acts State.reset (.read 0x1200 1)) = some .busFault := by decide +kernel

/-- V17, V18: writes that are ignored. -/
theorem test_ignored_writes :
    ((runScript (wrb 0x200 [0xff] ++ rdb 0x200 1) State.reset).2 = [.written, .byte 0]) ∧
    ((runScript (wrb 0x150 [0xaa] ++ rdb 0x150 1) State.reset).2 = [.written, .byte 0]) := by
  decide +kernel

/-- V19c, V19d. -/
theorem test_status_write :
    statusAfter (acts { keyed with done := true } (.write 0x10 4 0xFF09)) = some 0x0A ∧
    statusAfter (acts { keyed with done := true } (.write 0x10 4 2)) = some 0x08 := by decide +kernel

/-- R36: acceptance of a legal and of an illegal word. -/
theorem test_command_write :
    statusAfter (acts State.reset (.write 0x14 4 0x11)) = some 0x01 ∧
    statusAfter (acts State.reset (.write 0x14 4 0x43)) = some 0x504 := by decide +kernel

/-- R202: a byte 0, a byte above 16, unequal bytes. -/
theorem test_padding_refused :
    removePadding [1, 0] = .error .invalidPadding ∧ removePadding [17] = .error .invalidPadding ∧
    removePadding [1, 2] = .error .invalidPadding ∧ removePadding [] = .error .invalidPadding := by
  decide +kernel

/-- R206's example, and the frame read back. -/
theorem test_keyExchange :
    keyExchangeFrame 0x097f 0x010001 = [0, 0, 0, 2, 9, 0x7f, 0, 0, 0, 3, 1, 0, 1] ∧
    readKeyExchange [0, 0, 0, 2, 9, 0x7f, 0, 0, 0, 3, 1, 0, 1] = some ([9, 0x7f], [1, 0, 1]) ∧
    readKeyExchange [0, 0, 0, 2, 9] = none := by decide +kernel

/-- R211: pieces of 16 and 32 bytes, the last of what is left. -/
theorem test_cutPieces :
    (cutPieces (fun k => 16 * (k + 1)) 50 0 (List.replicate 50 0)).map List.length = [16, 32, 2] := by
  decide +kernel

/-- R211: the third piece after two of 16 bytes starts at block 2, in counter mode. -/
theorem test_pieceIv :
    beNat (pieceIv .counter (blockOf (beFixed 0xff 16)) 2 (Vector.replicate 16 0)).toList = 0x101 := by
  decide +kernel

/-- The primes 11, 13, 17 as a draw for a key of 12 bits. -/
def smallDraw : KeyDraw 12 where
  p := 11
  q := 13
  r := 17
  fits := ⟨by norm_num, by decide, by decide, by decide⟩

/-- V41 through the host's procedure: the script from reset, one draw. -/
theorem test_generateKey :
    (generateKey 1 [smallDraw] State.reset).2.toOption =
      some { n := 0x097f, e := 0x010001, d := 0x0701, p := 11, q := 13, r := 17 } := by decide +kernel

/-! ### Witnesses: the hypotheses of the statements, met -/

theorem putSlot_value (s : State) (i : Slot) (bs : List Byte) (h : bs.length ≤ 512) :
    SlotValue (putSlot s i bs) i (beNat bs) := by
  have hl : ((putSlot s i bs).bnLen[i]).toNat = bs.length := by
    simp only [putSlot, Fin.getElem_fin, Vector.getElem_set_self, BitVec.toNat_ofNat]
    exact Nat.mod_eq_of_lt (lt_of_le_of_lt h (by decide))
  refine ⟨hl ▸ h, congrArg beNat ?_⟩
  rw [hl]
  apply List.ext_getElem
  · simp
  · intro j h1 h2
    rw [List.getElem_map, List.getElem_range]
    exact readByte_writeBytes_inside s (bnBase i) bs j h2

theorem putSlot_other (s : State) {i j : Slot} {v : Nat} (bs : List Byte) (h : bs.length ≤ 512)
    (hij : i ≠ j) (hv : SlotValue s j v) : SlotValue (putSlot s i bs) j v := by
  have hl : (putSlot s i bs).bnLen[j] = s.bnLen[j] := by
    have : i.val ≠ j.val := fun e => hij (Fin.ext e)
    simp only [putSlot, Fin.getElem_fin]
    exact Vector.getElem_set_ne _ _ this
  obtain ⟨h1, h2⟩ := hv
  refine ⟨hl ▸ h1, ?_⟩
  rw [hl]
  refine Eq.trans (congrArg beNat (List.map_congr_left fun k hk => ?_)) h2
  have hk' : k < 512 := lt_of_lt_of_le (List.mem_range.mp hk) h1
  have hd := slots_disjoint hij
  simp only [Config.bnBytes] at hd
  exact readByte_writeBytes_outside s (bnBase i) bs (bnBase j + k) (by omega)

/-- Two numbers in two slots, each of any size that fits. -/
theorem two_slots (i j : Slot) (v w : Nat) (hij : j ≠ i) (hv : v < 256 ^ 512) (hw : w < 256 ^ 512) :
    ∃ s, SlotValue s i v ∧ SlotValue s j w := by
  have e1 := (beBytes_length_le_iff v 512).mpr hv
  have e2 := (beBytes_length_le_iff w 512).mpr hw
  refine ⟨putSlot (putSlot State.reset i (beBytes v)) j (beBytes w),
    putSlot_other _ _ e2 hij ?_, ?_⟩
  · have := putSlot_value State.reset i (beBytes v) e1
    rwa [beNat_beBytes] at this
  · have := putSlot_value (putSlot State.reset i (beBytes v)) j (beBytes w) e2
    rwa [beNat_beBytes] at this

/-- Three numbers in three slots. -/
theorem three_slots (i j k : Slot) (u v w : Nat) (hij : j ≠ i) (hik : k ≠ i) (hjk : k ≠ j)
    (hu : u < 256 ^ 512) (hv : v < 256 ^ 512) (hw : w < 256 ^ 512) :
    ∃ s, SlotValue s i u ∧ SlotValue s j v ∧ SlotValue s k w := by
  obtain ⟨s, h1, h2⟩ := two_slots i j u v hij hu hv
  have e := (beBytes_length_le_iff w 512).mpr hw
  refine ⟨putSlot s k (beBytes w), putSlot_other _ _ e hik h1, putSlot_other _ _ e hjk h2, ?_⟩
  have := putSlot_value s k (beBytes w) e
  rwa [beNat_beBytes] at this

/-- A state with a command in flight. -/
def busyState : State := { State.reset with inFlight := some 0x11 }

/-- A state after a fault. -/
def errorState : State := { State.reset with err := true, errCode := 8 }

theorem witness_DecodeOfEncode : (Instr.ark 7).wellFormed = true ∧ Instr.rsadec.wellFormed = true := by
  decide

theorem witness_EncodeOfDecode : decode 0x707 = .ok (.ark 7) ∧ decode 0 = .ok .nop := by decide

/-- Both clauses: a row, and a word that no row matches. -/
theorem witness_DecodeSelectsTableRow : (Instr.ark 0).wellFormed = true ∧
    ∀ i : Instr, i.wellFormed = true →
      ¬ ((0x43 : Word) &&& i.rowMask = i.rowMatch ∧ ((0x43 : Word).extractLsb' 8 3).toNat = i.index) := by
  refine ⟨by decide, fun i _ h => ?_⟩
  cases i <;> simp only [Instr.rowMask, Instr.rowMatch] at h <;> exact absurd h.1 (by decide)

theorem witness_StepRunsDecodedCommand :
    busyState.inFlight = some 0x11 ∧ decode 0x11 = .ok .encb ∧ Instr.encb.wellFormed = true ∧
    busyState.agenda = [] ∧ { busyState with agenda := [.engine] }.agenda = .engine :: [] := by
  decide

theorem witness_FetchWordIsRun : (Instr.ark 7).wellFormed = true := by decide

theorem witness_CommandAcceptance :
    State.reset.inFlight = none ∧ State.reset.err = false ∧ decode 0x11 = .ok .encb ∧
    decode 0x43 = .error .unassignedOp := by decide

theorem witness_CommandWriteRefused : busyState.inFlight.isSome = true ∧ errorState.err = true := by
  decide

theorem witness_CommandCompletesOrFaults : (Instr.ark 7).wellFormed = true := by decide

/-- A sound state other than the one after reset, with a command in flight, whose step answers. -/
theorem witness_StepKeepsSound :
    let s := { State.reset with lastCmd := 0, inFlight := some 0 }
    Sound s ∧ step s = .next (complete s) := by
  refine ⟨⟨Memory.wf_nil, ⟨fun _ => ⟨rfl, rfl⟩, by decide⟩, ⟨fun _ => rfl, nofun⟩,
    ⟨fun _ => rfl, nofun⟩, ?_⟩, rfl⟩
  intro w hw
  cases hw
  exact ⟨rfl, .nop, by decide⟩

theorem witness_ReachableStatus :
    Reachable { State.reset with agenda := [.host (.write 0x14 4 0x11)] } ∧
    State.reset.keyValid = false := ⟨.turns _ .reset, rfl⟩

theorem witness_ReachableStatus_busy : ∃ s, Reachable s ∧ s.busy = true := by
  have h : Reachable { State.reset with agenda := [.host (.write 0x14 4 0x11)] } := .turns _ .reset
  exact ⟨_, .step h rfl, by decide +kernel⟩

theorem witness_CommandsKeepInputs :
    exec .nop State.reset = .next (complete State.reset) ∧ Instr.nop ≠ .ldkey ∧ 65535 < Config.bufBytes := by
  exact ⟨rfl, by decide, by decide⟩

/-- Both clauses: a command with source slots, one without, each with a next state. -/
theorem witness_CommandFamiliesAreSeparate :
    (sourceSlots .rsaenc ≠ [] ∧ exec .rsaenc State.reset = .next (raise .operandRange State.reset)) ∧
    (sourceSlots .nop = [] ∧ exec .nop State.reset = .next (complete State.reset)) := by
  exact ⟨⟨by decide, rfl⟩, by decide, rfl⟩

theorem witness_NoKeyFault :
    (Instr.ark 7).wellFormed = true ∧ readsRoundKeys (.ark 7) = true ∧ readsRoundKeys .cbcd = true ∧
    State.reset.keyValid = false := by decide

theorem witness_SlotLengthFault :
    let s := { State.reset with bnLen := State.reset.bnLen.set 9 513 }
    Slot.r ∈ sourceSlots .rsadec ∧ ¬ SlotReadable s Slot.r := by
  unfold SlotReadable
  decide

theorem witness_ColumnMixCommands : State.reset.st = Vector.replicate 16 0 := rfl

theorem witness_RoundKeyCommand : keyed.keyValid = true ∧ State.reset.keyValid = false := by decide

theorem witness_IndexAboveNrIsNoCommand : 8 ≤ 8 := by decide

theorem witness_LoadKeyCommand :
    { State.reset with keyLen := 0x10 }.keyLen = 0x10 ∧ { State.reset with keyLen := 0x11 }.keyLen ≠ 0x10 := by
  decide

theorem witness_BlockCipherCommands : keyed.keyValid = true := by decide

theorem witness_BlockCipherInverse : keyed.keyValid = true := by decide

theorem witness_PrimitivesRefineBlockCipher : keyed.keyValid = true := by decide

/-- A key, and `LEN` at its largest, with block and byte of the last input byte. -/
theorem witness_CounterModeCommand :
    let s := { keyed with len := 0x10000 }
    s.keyValid = true ∧ s.len.toNat ≤ 65536 ∧ 16 * 4095 + (15 : Fin 16).val < s.len.toNat := by decide

theorem witness_ChainedEncryptCommand :
    let s := { keyed with len := 0x10000 }
    s.keyValid = true ∧ s.len.toNat ≤ 65536 ∧ s.len.toNat % 16 = 0 ∧ 4095 < s.len.toNat / 16 := by decide

theorem witness_ChainedDecryptCommand :
    let s := { keyed with len := 0x10000 }
    s.keyValid = true ∧ s.len.toNat ≤ 65536 ∧ s.len.toNat % 16 = 0 ∧ 4095 < s.len.toNat / 16 := by decide

/-- Both clauses: a `LEN` just above `BUF_BYTES`, and one that is no multiple of 16. -/
theorem witness_ChainLengthFaults :
    keyed.keyValid = true ∧ 65536 < ({ keyed with len := 0x10001 }.len).toNat ∧
    ({ keyed with len := 15 }.len).toNat % 16 ≠ 0 := by decide

/-- The fewest blocks and workers, and the last of four workers. -/
theorem witness_DefaultPartitionLawful : 1 ≤ 1 ∧ 1 ≤ Config.hwPar ∧ 3 < 4 :=
  ⟨le_rfl, Nat.le_add_left _ _, by decide⟩

/-- Two workers, one block each, the second first. -/
theorem witness_WorkersDoNotMatter :
    LawfulPartition (ceil16 32) 2 [(0, 1), (1, 2)] ∧
    Interleaving ([(0, 1), (1, 2)].map rangeBlocks) [1, 0] ∧ 32 ≤ 65536 ∧ 32 % 16 = 0 := by
  refine ⟨⟨rfl, rfl, by decide, rfl, by decide, rfl⟩, ?_, by decide, rfl⟩
  refine .step 1 (by decide) 1 [] rfl (.step 0 (by decide) 0 [] rfl (.joined ?_))
  decide

/-- For every state and every block of bytes there is a state whose `IBUF` holds them: the copy that the
round trips of R149 speak of. -/
theorem witness_copyToIbuf (s t : State) (n : Nat) :
    ∃ s' : State, s'.keyValid = s.keyValid ∧ s'.rk = s.rk ∧ s'.iv = s.iv ∧ s'.len = s.len ∧
      ∀ a, a < n → s'.readByte (ibufBase + a) = t.readByte (obufBase + a) := by
  refine ⟨s.writeBytes ibufBase (t.readBytes obufBase n), rfl, rfl, rfl, rfl, fun a ha => ?_⟩
  rw [readByte_writeBytes_inside s ibufBase _ a (by simpa using ha)]
  simp [State.readBytes]

theorem witness_CounterModeRoundTrip :
    let s := { keyed with len := 0x10000 }
    s.keyValid = true ∧ s.len.toNat ≤ 65536 ∧ ∀ t : State, ∃ s' : State, s'.keyValid = true ∧
      s'.rk = s.rk ∧ s'.iv = s.iv ∧ s'.len = s.len ∧
      ∀ a, a < s.len.toNat → s'.readByte (ibufBase + a) = t.readByte (obufBase + a) :=
  ⟨rfl, by decide, fun t => witness_copyToIbuf { keyed with len := 0x10000 } t 0x10000⟩

theorem witness_ChainedModeRoundTrip :
    let s := { keyed with len := 16 }
    s.keyValid = true ∧ s.len.toNat ≤ 65536 ∧ s.len.toNat % 16 = 0 ∧ ∀ t : State, ∃ s' : State,
      s'.keyValid = true ∧ s'.rk = s.rk ∧ s'.iv = s.iv ∧ s'.len = s.len ∧
      ∀ a, a < s.len.toNat → s'.readByte (ibufBase + a) = t.readByte (obufBase + a) :=
  ⟨rfl, by decide, by decide, fun t => witness_copyToIbuf { keyed with len := 16 } t 16⟩

theorem witness_CanonicalEncoding : beNat [0, 1] = 1 := by decide

/-- Both clauses: the product 0, and the product `256^512`, the first that does not fit (V37e). -/
theorem witness_ProductCommand :
    (∃ s, SlotValue s Slot.a 0 ∧ SlotValue s Slot.b 0 ∧ 0 * 0 < 256 ^ 512) ∧
    (∃ s, SlotValue s Slot.a (256 ^ 256) ∧ SlotValue s Slot.b (256 ^ 256) ∧
      256 ^ 512 ≤ 256 ^ 256 * 256 ^ 256) := by
  have hp : 256 ^ 256 < 256 ^ 512 := Nat.pow_lt_pow_right (by decide) (by decide)
  obtain ⟨s, h1, h2⟩ := two_slots Slot.a Slot.b 0 0 (by decide) (by positivity) (by positivity)
  obtain ⟨t, h3, h4⟩ := two_slots Slot.a Slot.b (256 ^ 256) (256 ^ 256) (by decide) hp hp
  exact ⟨⟨s, h1, h2, by positivity⟩, t, h3, h4, by rw [← pow_add]⟩

/-- A number below 65536 fits a slot. -/
theorem small_fits {v : Nat} (h : v < 256 ^ 2) : v < 256 ^ 512 :=
  lt_trans h (Nat.pow_lt_pow_right (by decide) (by decide))

theorem witness_ReductionCommand :
    (∃ s, SlotValue s Slot.a 5 ∧ SlotValue s Slot.m 1 ∧ 1 ≤ 1) ∧
    (∃ s, SlotValue s Slot.a 5 ∧ SlotValue s Slot.m 0) := by
  obtain ⟨s, h1, h2⟩ := two_slots Slot.a Slot.m 5 1 (by decide) (small_fits (by decide)) (small_fits (by decide))
  obtain ⟨t, h3, h4⟩ := two_slots Slot.a Slot.m 5 0 (by decide) (small_fits (by decide)) (small_fits (by decide))
  exact ⟨⟨s, h1, h2, le_rfl⟩, t, h3, h4⟩

theorem witness_PowerCommand :
    (∃ s, SlotValue s Slot.a 0 ∧ SlotValue s Slot.b 0 ∧ SlotValue s Slot.m 1) ∧
    (∃ s, SlotValue s Slot.a 5 ∧ SlotValue s Slot.b 2 ∧ SlotValue s Slot.m 0) := by
  refine ⟨three_slots _ _ _ 0 0 1 (by decide) (by decide) (by decide) ?_ ?_ ?_,
    three_slots _ _ _ 5 2 0 (by decide) (by decide) (by decide) ?_ ?_ ?_⟩ <;>
  exact small_fits (by decide)

/-- The three clauses: 3 modulo 11, 6 modulo 9, and the modulus 0. -/
theorem witness_InverseCommand :
    ((∃ s, SlotValue s Slot.a 3 ∧ SlotValue s Slot.m 11) ∧ Nat.gcd (3 % 11) 11 = 1) ∧
    ((∃ s, SlotValue s Slot.a 6 ∧ SlotValue s Slot.m 9) ∧ Nat.gcd (6 % 9) 9 ≠ 1) ∧
    (∃ s, SlotValue s Slot.a 5 ∧ SlotValue s Slot.m 0) := by
  refine ⟨⟨two_slots _ _ 3 11 (by decide) ?_ ?_, by decide⟩,
    ⟨two_slots _ _ 6 9 (by decide) ?_ ?_, by decide⟩, two_slots _ _ 5 0 (by decide) ?_ ?_⟩ <;>
  exact small_fits (by decide)

/-- The smallest primes, and the key K1 (V41z, V41). -/
theorem witness_KeyDerivationCommand :
    (∃ s, SlotValue s Slot.p 2 ∧ SlotValue s Slot.q 2 ∧ SlotValue s Slot.r 2) ∧
    Nat.gcd (65537 % ((2 - 1) * (2 - 1) * (2 - 1))) ((2 - 1) * (2 - 1) * (2 - 1)) = 1 ∧
    (∃ s, SlotValue s Slot.p 11 ∧ SlotValue s Slot.q 13 ∧ SlotValue s Slot.r 17) ∧
    Nat.gcd (65537 % ((11 - 1) * (13 - 1) * (17 - 1))) ((11 - 1) * (13 - 1) * (17 - 1)) = 1 ∧
    11 * 13 * 17 < 256 ^ 512 := by
  refine ⟨three_slots _ _ _ 2 2 2 (by decide) (by decide) (by decide) ?_ ?_ ?_, by decide,
    three_slots _ _ _ 11 13 17 (by decide) (by decide) (by decide) ?_ ?_ ?_, by decide, ?_⟩ <;>
  exact small_fits (by decide)

/-- The three clauses: a slot with 1, a factor 65537, and a product of exactly `256^512`. -/
theorem witness_KeyDerivationFaults :
    (∃ s, SlotValue s Slot.p 1 ∧ SlotValue s Slot.q 13 ∧ SlotValue s Slot.r 17) ∧
    ((∃ s, SlotValue s Slot.p 65538 ∧ SlotValue s Slot.q 2 ∧ SlotValue s Slot.r 2) ∧
      65537 ∣ (65538 - 1) * (2 - 1) * (2 - 1)) ∧
    ((∃ s, SlotValue s Slot.p (256 ^ 511) ∧ SlotValue s Slot.q 128 ∧ SlotValue s Slot.r 2) ∧
      ¬ 65537 ∣ (256 ^ 511 - 1) * (128 - 1) * (2 - 1) ∧ 256 ^ 512 ≤ 256 ^ 511 * 128 * 2) := by
  refine ⟨three_slots _ _ _ 1 13 17 (by decide) (by decide) (by decide) ?_ ?_ ?_,
    ⟨three_slots _ _ _ 65538 2 2 (by decide) (by decide) (by decide) ?_ ?_ ?_, by decide⟩,
    three_slots _ _ _ (256 ^ 511) 128 2 (by decide) (by decide) (by decide) ?_ ?_ ?_,
    by decide +kernel, by decide +kernel⟩
  · exact small_fits (by decide)
  · exact small_fits (by decide)
  · exact small_fits (by decide)
  · exact lt_trans (show 65538 < 256 ^ 3 by decide) (Nat.pow_lt_pow_right (by decide) (by decide))
  · exact small_fits (by decide)
  · exact small_fits (by decide)
  · exact Nat.pow_lt_pow_right (by decide) (by decide)
  · exact small_fits (by decide)
  · exact small_fits (by decide)

/-- Both clauses: the largest message, and the message equal to the modulus (V41c, V41d). -/
theorem witness_PublicEncryptCommand :
    (∃ s, SlotValue s Slot.a 0x97e ∧ SlotValue s Slot.n 0x97f ∧ SlotValue s Slot.e 3) ∧
    (∃ s, SlotValue s Slot.a 0x97f ∧ SlotValue s Slot.n 0x97f ∧ SlotValue s Slot.e 3) := by
  refine ⟨three_slots _ _ _ _ _ _ (by decide) (by decide) (by decide) ?_ ?_ ?_,
    three_slots _ _ _ _ _ _ (by decide) (by decide) (by decide) ?_ ?_ ?_⟩ <;>
  exact small_fits (by decide)

/-- A ciphertext, a modulus, a private exponent and three primes, in their slots. -/
def decryptSlots (c n d p q r : Byte) : State :=
  slots [(Slot.a, [c]), (Slot.n, [n]), (Slot.d, [d]), (Slot.p, [p]), (Slot.q, [q]), (Slot.r, [r])]

theorem decryptSlots_values (c n d p q r : Byte) :
    let s := decryptSlots c n d p q r
    SlotValue s Slot.a c.toNat ∧ SlotValue s Slot.n n.toNat ∧ SlotValue s Slot.d d.toNat ∧
      SlotValue s Slot.p p.toNat ∧ SlotValue s Slot.q q.toNat ∧ SlotValue s Slot.r r.toNat := by
  have one : ∀ (s : State) (i : Slot) (b : Byte), SlotValue (putSlot s i [b]) i b.toNat := fun s i b => by
    have := putSlot_value s i [b] (by simp)
    rwa [show beNat [b] = b.toNat by simp [beNat]] at this
  have keep : ∀ {s : State} {i j : Slot} {v : Nat} (b : Byte), i ≠ j → SlotValue s j v →
      SlotValue (putSlot s i [b]) j v := fun b h hv => putSlot_other _ [b] (by simp) h hv
  simp only [decryptSlots, slots, List.foldl_cons, List.foldl_nil]
  refine ⟨?_, ?_, ?_, ?_, ?_, one _ _ _⟩
  · exact keep _ (by decide) (keep _ (by decide) (keep _ (by decide) (keep _ (by decide)
      (keep _ (by decide) (one _ _ _)))))
  · exact keep _ (by decide) (keep _ (by decide) (keep _ (by decide) (keep _ (by decide) (one _ _ _))))
  · exact keep _ (by decide) (keep _ (by decide) (keep _ (by decide) (one _ _ _)))
  · exact keep _ (by decide) (keep _ (by decide) (one _ _ _))
  · exact keep _ (by decide) (one _ _ _)

/-- All six numbers, in their slots of one state. -/
def DecryptValues (s : State) (c n d p q r : Nat) : Prop :=
  SlotValue s Slot.a c ∧ SlotValue s Slot.n n ∧ SlotValue s Slot.d d ∧ SlotValue s Slot.p p ∧
    SlotValue s Slot.q q ∧ SlotValue s Slot.r r

/-- With `n = p*q*r`, and with another `n` of at least 1. -/
theorem witness_PrivateDecryptCommand :
    (∃ s, DecryptValues s 7 30 3 2 3 5) ∧ (∃ s, DecryptValues s 7 1 3 2 3 5) ∧
    Nat.Coprime 2 3 ∧ Nat.Coprime 2 5 ∧ Nat.Coprime 3 5 ∧ 30 = 2 * 3 * 5 := by
  exact ⟨⟨_, decryptSlots_values 7 30 3 2 3 5⟩, ⟨_, decryptSlots_values 7 1 3 2 3 5⟩,
    by decide, by decide, by decide, by decide⟩

/-- Both clauses: `n` = 0, `r` = 1, and two equal primes with `n` = 1. -/
theorem witness_PrivateDecryptFaults :
    (∃ s, DecryptValues s 7 0 3 2 3 5) ∧ (∃ s, DecryptValues s 7 30 3 2 3 1) ∧
    (∃ s, DecryptValues s 7 1 3 2 2 5) ∧
    ¬ (Nat.Coprime 2 2 ∧ Nat.Coprime 2 5 ∧ Nat.Coprime 2 5) := by
  exact ⟨⟨_, decryptSlots_values 7 0 3 2 3 5⟩, ⟨_, decryptSlots_values 7 30 3 2 3 1⟩,
    ⟨_, decryptSlots_values 7 1 3 2 2 5⟩, by decide⟩

/-- The key of the primes 3, 5, 7: the inverse of 65537 modulo 48 is 17. -/
def smallKey : TriplePrimeKey := { n := 105, e := 65537, d := 17, p := 3, q := 5, r := 7 }

/-- The message 2 under the small key, encrypted and in the slots of a decryption. -/
theorem witness_RsaRoundTrip :
    smallKey.Valid ∧ Odd smallKey.p ∧ Odd smallKey.q ∧ Odd smallKey.r ∧ 2 < smallKey.n ∧
    (∃ s, SlotValue s Slot.a 2 ∧ SlotValue s Slot.n smallKey.n ∧ SlotValue s Slot.e smallKey.e) ∧
    2 ^ 65537 % 105 = 32 ∧
    (∃ s, DecryptValues s 32 smallKey.n smallKey.d smallKey.p smallKey.q smallKey.r) := by
  refine ⟨⟨by norm_num [smallKey], by norm_num [smallKey], by norm_num [smallKey], by decide, by decide,
    rfl, by decide⟩, by decide, by decide, by decide, by decide, ?_, by decide +kernel,
    ⟨_, decryptSlots_values 32 105 17 3 5 7⟩⟩
  refine three_slots Slot.a Slot.n Slot.e 2 105 65537 (by decide) (by decide) (by decide) ?_ ?_ ?_
  · exact small_fits (by decide)
  · exact small_fits (by decide)
  · exact lt_trans (show 65537 < 256 ^ 3 by decide) (Nat.pow_lt_pow_right (by decide) (by decide))

/-- Both clauses on `v`: bit 0 set with every other bit, and both enables without bit 0. -/
theorem witness_ResetAndControlWrite :
    (0xFFFFFFFF : Word).getLsbD 0 = true ∧ (0x00000006 : Word).getLsbD 0 = false := by decide

/-- The edges of the windows: the last admitted and the first refused offset, read on an idle engine. -/
theorem witness_BusFaultExactly :
    answerAfter (acts State.reset (.read 0x67 1)) = some .busFault ∧
    answerAfter (acts State.reset (.read 0x64 4)) = some (.word 0) ∧
    answerAfter (acts State.reset (.read 0x68 4)) = some .busFault ∧
    answerAfter (acts State.reset (.read 0x11F 1)) = some (.byte 0) ∧
    answerAfter (acts State.reset (.read 0x120 1)) = some .busFault ∧
    answerAfter (acts State.reset (.read 0x180 1)) = some .busFault ∧
    answerAfter (acts State.reset (.read 0x280 1)) = some .busFault ∧
    answerAfter (acts State.reset (.read 0x35FF 1)) ≠ some .busFault ∧
    answerAfter (acts State.reset (.read 0x3600 1)) = some .busFault ∧
    answerAfter (acts State.reset (.read 0x2FFFF 1)) ≠ some .busFault ∧
    answerAfter (acts State.reset (.read 0x30000 1)) = some .busFault := by
  refine ⟨?_, ?_, ?_, ?_, ?_, ?_, ?_, nofun, ?_, nofun, ?_⟩ <;> decide +kernel

theorem witness_BusFaultExactly_busy :
    answerAfter (acts busyState (.read 0x10000 1)) = some .busFault ∧
    answerAfter (acts busyState (.write 0x64 4 0)) = some .busFault ∧
    answerAfter (acts busyState (.write 0x10 4 0)) = some .written ∧
    answerAfter (acts errorState (.write 0x14 4 0)) = some .busFault := by decide +kernel

theorem witness_RegisterWrites : State.reset.inFlight = none := by decide

/-- An idle engine, and the last byte of each kind of window. -/
theorem witness_ByteWriteThenRead :
    State.reset.inFlight = none ∧ (15 : Fin 16).val < 16 ∧ 511 < 512 ∧ 65535 < 65536 ∧
    answerAfter (acts State.reset (.read (0x140 + (15 : Fin 16).val) 1)) = some (.byte 0) ∧
    answerAfter (acts State.reset (.write (0x1000 + 0x400 * Slot.r.val + 511) 1 0)) = some .written ∧
    answerAfter (acts State.reset (.write (0x20000 + 65535) 1 0)) = some .written := by decide +kernel

theorem witness_HostCodecsRoundTrip :
    (beBytes 0x097f).length < 2 ^ 32 ∧ (beBytes 0x010001).length < 2 ^ 32 := by decide

/-- Both ranges at both ends. -/
theorem witness_IgnoredByteWrites :
    State.reset.inFlight = none ∧ (0x150 ≤ 0x150 ∧ 0x17F < 0x180) ∧ (0x200 ≤ 0x200 ∧ 0x27F < 0x280) := by
  decide

end Sys2Proof.Tests
end

/-! PROOFS. Every command ends in one of two ways and every step in a next state (00_scope.md R14), and the
canonical encoding of a number is its shortest (R10). -/

namespace Sys2Proof.Machine

/-! ### What the checks and writes of a command can answer -/

/-- The error kinds that the rule of some command raises: every kind of R231 but the host's two and
`IllegalCommand`, which the acceptance of a word raises and no command does (R93, R233). -/
def ErrorKind.ofCommand : ErrorKind → Bool
  | .keyLengthMismatch | .nonInvertibleModulus | .noKey | .badLength | .operandRange | .capacity => true
  | .invalidPadding | .malformedHex | .illegalCommand => false

theorem ErrorKind.code_mem_of_ofCommand {e : ErrorKind} (h : e.ofCommand = true) :
    e.code ∈ ([1, 3, 6, 7, 8, 9] : List Byte) := by
  revert h
  cases e <;> decide

/-- A part of a command's rule answers a value with `P`, or one of the errors that commands raise. -/
def Yields {α : Type} (x : Except ErrorKind α) (P : α → Prop) : Prop :=
  match x with
  | .ok a => P a
  | .error e => e.ofCommand = true

@[simp] theorem yields_ok {α : Type} {a : α} {P : α → Prop} :
    Yields (.ok a : Except ErrorKind α) P ↔ P a := Iff.rfl

@[simp] theorem yields_error {α : Type} {e : ErrorKind} {P : α → Prop} :
    Yields (.error e : Except ErrorKind α) P ↔ e.ofCommand = true := Iff.rfl

/-- The parts of a rule in sequence: each answers for itself. -/
theorem Yields.bind {α β : Type} {x : Except ErrorKind α} {f : α → Except ErrorKind β}
    {P : α → Prop} {Q : β → Prop} (hx : Yields x P) (hf : ∀ a, P a → Yields (f a) Q) :
    Yields (x >>= f) Q := by
  cases x with
  | ok a => exact hf a hx
  | error e => exact hx

theorem Yields.mono {α : Type} {x : Except ErrorKind α} {P Q : α → Prop} (hx : Yields x P)
    (h : ∀ a, P a → Q a) : Yields x Q := by
  cases x with
  | ok a => exact h a hx
  | error e => exact hx

theorem yields_require (b : Bool) {e : ErrorKind} (he : e.ofCommand = true) :
    Yields (require b e) fun _ => True := by
  cases b with
  | true => trivial
  | false => exact he

theorem yields_readSlot (s : State) (i : Slot) : Yields (readSlot s i) fun _ => True := by
  rcases readSlot_cases s i with ⟨v, hv, -⟩ | ⟨he, -⟩
  · simp [hv]
  · simp [he, ErrorKind.ofCommand]

theorem yields_modInv (a m : Nat) : Yields (modInv a m) fun _ => True := by
  rcases modInv_ok_or a m with ⟨y, hy⟩ | he
  · simp [hy]
  · simp [he, ErrorKind.ofCommand]

theorem yields_deriveKey (p q r : Nat) : Yields (deriveKey p q r) fun _ => True :=
  (yields_require _ rfl).bind fun _ _ => (yields_modInv _ _).bind fun _ _ => trivial

theorem yields_crtDecrypt (c d p q r n : Nat) : Yields (crtDecrypt c d p q r n) fun _ => True := by
  unfold crtDecrypt
  rcases crt3_cases (modExp c (d % (p - 1)) p) (modExp c (d % (q - 1)) q)
    (modExp c (d % (r - 1)) r) p q r n with ⟨y, hy⟩ | he
  · simp [hy]
  · simp [he, ErrorKind.ofCommand]

theorem yields_chainChecks (s : State) : Yields (chainChecks s) fun _ => True :=
  (yields_require _ rfl).bind fun _ _ => yields_require _ rfl

/-- `t` is `s` but for the fields that some command writes: `ST`, `RK` with `KEYVALID`, `BNLEN`, and the
byte memories. -/
def WritesResults (s t : State) : Prop :=
  t = { s with st := t.st, rk := t.rk, keyValid := t.keyValid, bnLen := t.bnLen, mem := t.mem }

theorem WritesResults.trans {s t u : State} (h : WritesResults s t) (h' : WritesResults t u) :
    WritesResults s u := by
  unfold WritesResults at h h' ⊢
  rw [h', h]

theorem yields_writeSlot (s : State) (i : Slot) (v : Nat) :
    Yields (writeSlot s i v) (WritesResults s) := by
  rcases writeSlot_cases s i v with ⟨-, t, ht, hst⟩ | ⟨-, he⟩
  · rw [ht, yields_ok, WritesResults, hst.eq]
  · simp [he, ErrorKind.ofCommand]

/-- The completion of a command that wrote results alone has the common frame (R36). -/
theorem WritesResults.completes {s t : State} (h : WritesResults s t) : Completes s (complete t) := by
  rw [h]
  constructor <;> rfl

/-! ### Every command concludes -/

/-- The outcome is the conclusion of a command that wrote results alone or raised an error of its rule. -/
def Concludes (s : State) (o : Host.Outcome State Fault Refusal) : Prop :=
  ∃ x, o = conclude s x ∧ Yields x (WritesResults s)

theorem transformSt_concludes (f : Block → Block) (s : State) : Concludes s (transformSt f s) :=
  ⟨_, rfl, rfl⟩

theorem transformStKeyed_concludes (f : Block → Block) (s : State) :
    Concludes s (transformStKeyed f s) :=
  ⟨_, rfl, (yields_require _ rfl).bind fun _ _ => rfl⟩

theorem execArk_concludes {k : Nat} (hk : k < 8) (s : State) : Concludes s (execArk k s) := by
  rw [execArk, dif_pos hk]
  exact transformStKeyed_concludes _ s

theorem execLdkey_concludes (s : State) : Concludes s (execLdkey s) :=
  ⟨_, rfl, (yields_require _ rfl).bind fun _ _ => rfl⟩

theorem execNop_concludes (s : State) : Concludes s (execNop s) := ⟨_, rfl, rfl⟩

theorem execCtr_concludes (s : State) : Concludes s (execCtr s) :=
  ⟨_, rfl, (yields_chainChecks s).bind fun _ _ => rfl⟩

theorem execCbce_concludes (s : State) : Concludes s (execCbce s) :=
  ⟨_, rfl, (yields_chainChecks s).bind fun _ _ => (yields_require _ rfl).bind fun _ _ => rfl⟩

theorem execCbcd_concludes (s : State) : Concludes s (execCbcd s) :=
  ⟨_, rfl, (yields_chainChecks s).bind fun _ _ => (yields_require _ rfl).bind fun _ _ => rfl⟩

theorem execBnmul_concludes (s : State) : Concludes s (execBnmul s) :=
  ⟨_, rfl, (yields_readSlot s _).bind fun _ _ => (yields_readSlot s _).bind fun _ _ =>
    yields_writeSlot s _ _⟩

theorem execBnmod_concludes (s : State) : Concludes s (execBnmod s) :=
  ⟨_, rfl, (yields_readSlot s _).bind fun _ _ => (yields_readSlot s _).bind fun _ _ =>
    (yields_require _ rfl).bind fun _ _ => yields_writeSlot s _ _⟩

theorem execBnmodexp_concludes (s : State) : Concludes s (execBnmodexp s) :=
  ⟨_, rfl, (yields_readSlot s _).bind fun _ _ => (yields_readSlot s _).bind fun _ _ =>
    (yields_readSlot s _).bind fun _ _ => (yields_require _ rfl).bind fun _ _ =>
    yields_writeSlot s _ _⟩

theorem execBnmodinv_concludes (s : State) : Concludes s (execBnmodinv s) :=
  ⟨_, rfl, (yields_readSlot s _).bind fun _ _ => (yields_readSlot s _).bind fun _ _ =>
    (yields_require _ rfl).bind fun _ _ => (yields_modInv _ _).bind fun _ _ =>
    yields_writeSlot s _ _⟩

theorem execRsamk_concludes (s : State) : Concludes s (execRsamk s) :=
  ⟨_, rfl, (yields_readSlot s _).bind fun _ _ => (yields_readSlot s _).bind fun _ _ =>
    (yields_readSlot s _).bind fun _ _ => (yields_deriveKey _ _ _).bind fun _ _ =>
    (yields_writeSlot s _ _).bind fun s1 h1 => (yields_writeSlot s1 _ _).bind fun s2 h2 =>
    (yields_writeSlot s2 _ _).mono fun _ h3 => (h1.trans h2).trans h3⟩

theorem execRsaenc_concludes (s : State) : Concludes s (execRsaenc s) :=
  ⟨_, rfl, (yields_readSlot s _).bind fun _ _ => (yields_readSlot s _).bind fun _ _ =>
    (yields_readSlot s _).bind fun _ _ => (yields_require _ rfl).bind fun _ _ =>
    yields_writeSlot s _ _⟩

theorem execRsadec_concludes (s : State) : Concludes s (execRsadec s) :=
  ⟨_, rfl, (yields_readSlot s _).bind fun _ _ => (yields_readSlot s _).bind fun _ _ =>
    (yields_readSlot s _).bind fun _ _ => (yields_readSlot s _).bind fun _ _ =>
    (yields_readSlot s _).bind fun _ _ => (yields_readSlot s _).bind fun _ _ =>
    (yields_require _ rfl).bind fun _ _ => (yields_crtDecrypt _ _ _ _ _ _).bind fun _ _ =>
    yields_writeSlot s _ _⟩

/-- A well-formed command concludes from every state: the index of `ARK` is the one thing that could
have been refused (R92). -/
theorem exec_concludes {i : Instr} (hw : i.wellFormed = true) (s : State) : Concludes s (exec i s) := by
  cases i with
  | nop => exact execNop_concludes s
  | subb => exact transformSt_concludes _ s
  | isubb => exact transformSt_concludes _ s
  | shrow => exact transformSt_concludes _ s
  | ishrow => exact transformSt_concludes _ s
  | mixc => exact transformSt_concludes _ s
  | imixc => exact transformSt_concludes _ s
  | ark k => exact execArk_concludes (of_decide_eq_true hw) s
  | ldkey => exact execLdkey_concludes s
  | encb => exact transformStKeyed_concludes _ s
  | decb => exact transformStKeyed_concludes _ s
  | ctr => exact execCtr_concludes s
  | cbce => exact execCbce_concludes s
  | cbcd => exact execCbcd_concludes s
  | bnmul => exact execBnmul_concludes s
  | bnmod => exact execBnmod_concludes s
  | bnmodexp => exact execBnmodexp_concludes s
  | bnmodinv => exact execBnmodinv_concludes s
  | rsamk => exact execRsamk_concludes s
  | rsaenc => exact execRsaenc_concludes s
  | rsadec => exact execRsadec_concludes s

/-- A conclusion is a completion with the common frame, or the fault of a command and nothing else. -/
theorem Concludes.completes_or_raises {s : State} {o : Host.Outcome State Fault Refusal}
    (h : Concludes s o) :
    (∃ t, o = .next t ∧ Completes s t) ∨ ∃ e : ErrorKind, e.ofCommand = true ∧ o = .next (raise e s) := by
  obtain ⟨x, rfl, hx⟩ := h
  cases x with
  | ok t => exact Or.inl ⟨complete t, rfl, WritesResults.completes hx⟩
  | error e => exact Or.inr ⟨e, hx, rfl⟩

/-- Settles O11: a well-formed command concludes, and a conclusion is a completion or a fault. -/
theorem commandCompletesOrFaults : Obligations.CommandCompletesOrFaults := by
  intro i s hw
  rcases (exec_concludes hw s).completes_or_raises with hcomp | ⟨e, he, hfault⟩
  · exact Or.inl hcomp
  · exact Or.inr ⟨e.code, ErrorKind.code_mem_of_ofCommand he, hfault⟩

/-! ### Every step answers -/

/-- Only `ARK` has an operand, so a command read from `OP` alone is well-formed (R90). -/
theorem plainCommand_wellFormed {op : Nat} {i : Instr} (h : plainCommand op = some i) :
    i.wellFormed = true := by
  unfold plainCommand at h
  split at h <;> cases h <;> rfl

theorem kField_lt (w : Word) : kField w < 8 := (w.extractLsb' 8 3).isLt

/-- What the decoder reads is a command of the engine: the `K` field has three bits (R90, R92). -/
theorem decode_wellFormed {w : Word} {i : Instr} (h : decode w = .ok i) : i.wellFormed = true := by
  unfold decode at h
  split at h
  · cases h
  split at h
  · cases h
    exact decide_eq_true (kField_lt w)
  split at h
  next => cases h
  next j hj =>
    split at h
    · cases h
    · cases h
      exact plainCommand_wellFormed hj

theorem engineTurn_answers (s : State) : ∃ t, engineTurn s = .next t := by
  rcases engineTurn_cases s with ⟨-, he⟩ | ⟨w, i, -, hd, he⟩ | ⟨w, e, -, -, he⟩
  · exact ⟨s, he⟩
  · rcases (exec_concludes (decode_wellFormed hd) s).completes_or_raises with ⟨t, ht, -⟩ | ⟨e, -, ht⟩
    · exact ⟨t, he.trans ht⟩
    · exact ⟨_, he.trans ht⟩
  · exact ⟨_, he⟩

/-- Settles O10: the host's turn always answers, and so does the engine's, since a word in flight that
decodes is a well-formed command. -/
theorem stepAlwaysAnswers : Obligations.StepAlwaysAnswers := by
  intro s
  rcases step_cases s with ⟨-, hs⟩ | ⟨rest, -, hs⟩ | ⟨act, rest, -, hs⟩
  · exact hs ▸ engineTurn_answers s
  · exact hs ▸ engineTurn_answers { s with agenda := rest }
  · exact ⟨_, hs⟩

/-! ### The canonical encoding -/

/-- Every byte string of a value is at least as long as the canonical encoding of that value. -/
theorem beBytes_length_le (bs : List Byte) : (beBytes (beNat bs)).length ≤ bs.length :=
  (beBytes_length_le_iff _ _).mpr (beNat_lt bs)

/-- Settles O39: value and head of the encoding, and its length against the bound `beNat_lt`. -/
theorem canonicalEncoding : Obligations.CanonicalEncoding := by
  intro v
  refine ⟨beNat_beBytes v, beBytes_head v, fun bs hbs => ?_⟩
  subst hbs
  exact beBytes_length_le bs

end Sys2Proof.Machine

/-! PROOFS. The state (10_state.md) as the accesses of the host see it: what each register reads as, what a
write to it does, which accesses are refused, and the engine's turn. -/

namespace Sys2Proof.Machine

/-! ### One access of the host (R63, R64, R66) -/

/-- The host's turn, when the agenda puts an action first. -/
theorem step_actsNext (s : State) (act : HostAction) (rest : List Turn) :
    step (actsNext s act rest) = .next (hostAct { s with agenda := rest } act) := rfl

/-- No access depends on the turns to come. -/
theorem busRefuses_agenda (s : State) (ts : List Turn) (a n : Nat) (isWrite : Bool) :
    busRefuses { s with agenda := ts } a n isWrite = busRefuses s a n isWrite := rfl

theorem step_read_admitted {s : State} {a n : Nat} (h : busRefuses s a n false = false)
    (rest : List Turn) : step (actsNext s (.read a n) rest) =
      .next { s with agenda := rest, response := some (readPlace s a) } := by
  rw [step_actsNext, hostAct, memRead, busRefuses_agenda, h]
  rfl

theorem step_write_admitted {s : State} {a n : Nat} (h : busRefuses s a n true = false) (v : Word)
    (rest : List Turn) : step (actsNext s (.write a n v) rest) =
      .next { writePlace { s with agenda := rest } a v with response := some .written } := by
  rw [step_actsNext, hostAct, memWrite, busRefuses_agenda, h]
  rfl

theorem step_write_refused {s : State} {a n : Nat} (h : busRefuses s a n true = true) (v : Word)
    (rest : List Turn) : step (actsNext s (.write a n v) rest) =
      .next { s with agenda := rest, response := some .busFault } := by
  rw [step_actsNext, hostAct, memWrite, busRefuses_agenda, h]
  rfl

/-! ### Register accesses (R29, R67) -/

theorem place_of_csrAt {a : Nat} {r : Csr} (hr : csrAt a = some r) : place a = .csrRegion := by
  obtain ⟨-, hrange⟩ := (csrAt_isSome_iff a).mp (by rw [hr]; rfl)
  exact if_pos (by omega)

/-- Which accesses to a register are refused: only writes, while busy by R67, in error to `CMD`. -/
theorem busRefuses_csr {a : Nat} {r : Csr} (hr : csrAt a = some r) (s : State) (isWrite : Bool) :
    busRefuses s a 4 isWrite =
      (isWrite && (s.busy && r.writeLockedByBusy || s.err && r == .cmd)) := by
  obtain ⟨halign, hrange⟩ := (csrAt_isSome_iff a).mp (by rw [hr]; rfl)
  have hwin : ¬ 0x30000 ≤ a := by omega
  have hcmd : (some r == some Csr.cmd) = (r == .cmd) := rfl
  simp only [busRefuses, widthFits, isMapped, lockedByBusy, place_of_csrAt hr, hr, halign, hwin, hcmd]
  cases isWrite <;> cases s.busy <;> simp

/-- A read of a register is admitted at any time (R67, R68). -/
theorem step_read_csr {a : Nat} {r : Csr} (hr : csrAt a = some r) {s : State} {v : Word}
    (hv : csrRead s r = v) (rest : List Turn) : step (actsNext s (.read a 4) rest) =
      .next { s with agenda := rest, response := some (.word v) } := by
  have hread : readPlace s a = .word v := by simp only [readPlace, place_of_csrAt hr, hr, hv]
  rw [step_read_admitted (busRefuses_csr hr s false), hread]

/-- A write to a register that R67 and R36 (a) do not refuse has the effect of that register. -/
theorem step_write_csr {a : Nat} {r : Csr} (hr : csrAt a = some r) {s : State}
    (hbusy : r.writeLockedByBusy = true → s.inFlight = none) (herr : r = .cmd → s.err = false)
    (v : Word) (rest : List Turn) : step (actsNext s (.write a 4 v) rest) =
      .next { csrWrite { s with agenda := rest } v r with response := some .written } := by
  have hlock : (s.busy && r.writeLockedByBusy) = false := by
    cases hl : r.writeLockedByBusy with
    | false => exact Bool.and_false _
    | true => rw [State.busy, hbusy hl]; rfl
  have hcmd : (s.err && r == .cmd) = false := by
    by_cases hc : r = .cmd
    · rw [herr hc, Bool.false_and]
    · rw [beq_false_of_ne hc, Bool.and_false]
  have hadm : busRefuses s a 4 true = false := by rw [busRefuses_csr hr, hlock, hcmd]; rfl
  have hwrite : writePlace { s with agenda := rest } a v = csrWrite { s with agenda := rest } v r := by
    simp only [writePlace, place_of_csrAt hr, hr]
  rw [step_write_admitted hadm, hwrite]

theorem csrAt_cmd : csrAt 0x14 = some .cmd := (csrAt_cmd_iff _).mpr rfl

/-- Settles O8: the write is admitted, and acceptance has its two cases. -/
theorem commandAcceptance : Obligations.CommandAcceptance := by
  intro s w rest hidle herr
  have hstep := step_write_csr csrAt_cmd (fun _ => hidle) (fun _ => herr) w rest
  refine ⟨fun i hi => ?_, fun e he => ?_⟩
  · rw [hstep, csrWrite, accept, hi]
  · rw [hstep, csrWrite, accept, he]
    rfl

/-- Settles O9: `BUSY` locks `CMD` by R67, and `ERR` locks it by R36 (a). -/
theorem commandWriteRefused : Obligations.CommandWriteRefused := by
  intro s w rest h
  have href : busRefuses s 0x14 4 true = true := by
    rw [busRefuses_csr csrAt_cmd]
    simpa [State.busy, Csr.writeLockedByBusy] using h
  exact step_write_refused href w rest

/-- Settles O51: `CTRL` can be written at any time, and the write is a reset or sets the enables. -/
theorem resetAndControlWrite : Obligations.ResetAndControlWrite := by
  intro s v rest
  have hstep := step_write_csr (a := 0x0C) (r := .ctrl) rfl (s := s) nofun nofun v rest
  refine ⟨fun hv => ⟨Config.reseed s.freeSeed s.mem, ?_⟩, ⟨_, rfl⟩, fun hv => ?_⟩
  · rw [hstep, csrWrite, writeCtrl, if_pos hv]
    rfl
  · rw [hstep, csrWrite, writeCtrl, if_neg (ne_true_of_eq_false hv)]

/-- Settles O55: none of these registers is `CMD`, and the engine is idle. -/
theorem registerWrites : Obligations.RegisterWrites := by
  intro s v rest hidle
  refine ⟨?_, ?_, fun i => ?_, ?_, ?_, ?_⟩
  · exact step_write_csr (r := .len) rfl (fun _ => hidle) nofun v rest
  · exact step_write_csr (r := .keyLen) rfl (fun _ => hidle) nofun v rest
  · exact step_write_csr (csrAt_bnLen i) (fun _ => hidle) nofun v rest
  · exact step_write_csr (r := .id) rfl nofun nofun v rest
  · exact step_write_csr (r := .cap0) rfl nofun nofun v rest
  · exact step_write_csr (r := .cap1) rfl nofun nofun v rest

/-! ### The words of the registers (R31 to R39) -/

/-- `CTRL` by its two bits (R34). -/
theorem ctrlWord_eq (s : State) :
    ctrlWord s = (if s.ienDone then 2 else 0) ||| (if s.ienErr then 4 else 0) := by
  unfold ctrlWord
  cases s.ienDone <;> cases s.ienErr <;> rfl

/-- `STATUS` as a number: four bits, and the error code above them (R35). -/
theorem statusWord_toNat (s : State) : (statusWord s).toNat =
    256 * s.errCode.toNat + (8 * s.keyValid.toNat + 4 * s.err.toNat + 2 * s.done.toNat + s.busy.toNat) := by
  have hcode : (0#16 ++ s.errCode ++ 0#4).toNat = 16 * s.errCode.toNat := by
    rw [BitVec.toNat_append, BitVec.toNat_append]
    simp [Nat.shiftLeft_eq, Nat.mul_comm]
  unfold statusWord
  simp only [BitVec.append_ofBool]
  repeat rw [BitVec.toNat_concat]
  rw [hcode]
  omega

/-- The four low bits of `STATUS`, each a summand at its place. -/
theorem statusFlags_toNat : ∀ b d e k : Bool,
    (((if b then 1 else 0 : Nat) : Word) ||| ((if d then 2 else 0 : Nat) : Word) |||
      ((if e then 4 else 0 : Nat) : Word) ||| ((if k then 8 else 0 : Nat) : Word)).toNat =
      8 * k.toNat + 4 * e.toNat + 2 * d.toNat + b.toNat := by
  decide

/-- A byte placed in bits 15:8 beside a value of bits 7:0. -/
theorem or_byte_shiftLeft_toNat {f : Word} (hf : f.toNat < 256) (c : Byte) :
    (f ||| c.setWidth 32 <<< 8).toNat = 256 * c.toNat + f.toNat := by
  have hc := c.isLt
  have hhigh : (c.setWidth 32 <<< 8).toNat = c.toNat <<< 8 := by
    rw [BitVec.toNat_shiftLeft, BitVec.toNat_setWidth, Nat.shiftLeft_eq, Nat.shiftLeft_eq]
    omega
  rw [BitVec.toNat_or, hhigh, Nat.or_comm, ← Nat.shiftLeft_add_eq_or_of_lt hf, Nat.shiftLeft_eq]
  omega

/-- `STATUS` by its four bits and its byte (R35). -/
theorem statusWord_eq (s : State) :
    statusWord s = (if s.inFlight.isSome then 1 else 0) ||| (if s.done then 2 else 0) |||
      (if s.err then 4 else 0) ||| (if s.keyValid then 8 else 0) ||| (s.errCode.setWidth 32 <<< 8) := by
  have hflags := statusFlags_toNat s.inFlight.isSome s.done s.err s.keyValid
  have hb := s.inFlight.isSome.toNat_le
  have hd := s.done.toNat_le
  have he := s.err.toNat_le
  have hk := s.keyValid.toNat_le
  apply BitVec.eq_of_toNat_eq
  rw [statusWord_toNat, or_byte_shiftLeft_toNat (by omega), hflags]
  rfl

theorem cap1Word_eq : cap1Word = 0x10000200 := rfl

/-- Settles O54: a read of a register is admitted at any time, and answers its word. -/
theorem registerReads : Obligations.RegisterReads := by
  intro s rest
  refine ⟨?_, ?_, ?_, ?_, ?_, ?_, ?_, ?_, fun i => ?_⟩
  · exact step_read_csr (r := .id) rfl rfl rest
  · exact step_read_csr (r := .cap0) rfl (cap0Word_eq _) rest
  · exact step_read_csr (r := .cap1) rfl cap1Word_eq rest
  · exact step_read_csr (r := .ctrl) rfl (ctrlWord_eq s) rest
  · exact step_read_csr (r := .status) rfl (statusWord_eq s) rest
  · exact step_read_csr (r := .cmd) rfl rfl rest
  · exact step_read_csr (r := .len) rfl rfl rest
  · exact step_read_csr (r := .keyLen) rfl rfl rest
  · exact step_read_csr (csrAt_bnLen i) rfl rest

/-! ### Byte accesses on an idle engine (R61, R65, R66) -/

/-- An idle engine admits a byte access to a mapped place above the CSR region. -/
theorem busRefuses_byte {s : State} (hidle : s.inFlight = none) {a : Nat}
    (hrange : 0x100 ≤ a ∧ a < 0x30000) (hwidth : widthFits a 1 = true) (hmap : isMapped a = true)
    (isWrite : Bool) : busRefuses s a 1 isWrite = false := by
  have hwin : ¬ 0x30000 ≤ a := by omega
  have hcmd : ¬ csrAt a = some .cmd := fun h => by
    have := (csrAt_cmd_iff a).mp h
    omega
  simp [busRefuses, hwin, hwidth, hmap, hcmd, State.busy, hidle]

theorem place_keyTail {a : Nat} (h : 0x150 ≤ a ∧ a < 0x180) : place a = .keyTail := by
  unfold place
  simp only [Config.keyBytes]
  repeat rw [if_neg (by omega)]
  rw [if_pos h.2]

theorem place_rk {a : Nat} (h : 0x200 ≤ a ∧ a < 0x280) :
    place a = .rk (roundIndex a) (byteIndex a) := by
  unfold place
  simp only [Config.keyBytes]
  repeat rw [if_neg (by omega)]
  rw [if_pos h.2]

theorem busRefuses_keyTail {s : State} (hidle : s.inFlight = none) {a : Nat}
    (h : 0x150 ≤ a ∧ a < 0x180) (isWrite : Bool) : busRefuses s a 1 isWrite = false :=
  busRefuses_byte hidle (by omega) (by simp [widthFits, place_keyTail h])
    (by simp [isMapped, place_keyTail h]) isWrite

theorem busRefuses_rk {s : State} (hidle : s.inFlight = none) {a : Nat}
    (h : 0x200 ≤ a ∧ a < 0x280) (isWrite : Bool) : busRefuses s a 1 isWrite = false :=
  busRefuses_byte hidle (by omega) (by simp [widthFits, place_rk h])
    (by simp [isMapped, place_rk h]) isWrite

/-- Byte `j` of `RK[k]` stands at 0x200 + 16k + j (R61). -/
theorem readPlace_rk (s : State) (k : Fin 8) (j : Fin 16) :
    readPlace s (0x200 + 16 * k.val + j.val) = .byte s.rk[k][j] := by
  have hround : roundIndex (0x200 + 16 * k.val + j.val) = k :=
    Fin.ext (by show (0x200 + 16 * k.val + j.val) / 16 % 8 = k.val; omega)
  have hbyte : byteIndex (0x200 + 16 * k.val + j.val) = j :=
    Fin.ext (by show (0x200 + 16 * k.val + j.val) % 16 = j.val; omega)
  rw [readPlace, place_rk (by omega), hround, hbyte]

/-- Settles O57: the accesses are admitted, and these two places ignore a write. -/
theorem ignoredByteWrites : Obligations.IgnoredByteWrites := by
  intro s a v rest hidle
  refine ⟨?_, fun h => ?_, fun k j => ?_⟩
  · rintro (h | h)
    · rw [step_write_admitted (busRefuses_keyTail hidle h true), writePlace, place_keyTail h]
    · rw [step_write_admitted (busRefuses_rk hidle h true), writePlace, place_rk h]
  · rw [step_read_admitted (busRefuses_keyTail hidle h false), readPlace, place_keyTail h]
  · rw [step_read_admitted (busRefuses_rk hidle (by omega) false), readPlace_rk]

/-! ### The engine's turn and the state after reset -/

theorem engineTurn_of_decode {s : State} {w : Word} {i : Instr} (hf : s.inFlight = some w)
    (hd : decode w = .ok i) : engineTurn s = exec i s := by
  simp only [engineTurn, hf, hd]

/-- Settles O6: with either agenda the engine moves, and its turn is the command of the word in flight. -/
theorem stepRunsDecodedCommand : Obligations.StepRunsDecodedCommand := by
  intro s w i hf hd _
  refine ⟨fun ha => ?_, fun rest ha => ?_⟩
  · rw [step, takeTurn, ha]
    exact engineTurn_of_decode hf hd
  · rw [step, takeTurn, ha]
    exact engineTurn_of_decode (s := { s with agenda := rest }) hf hd

/-- Settles O58: each value stands in the table, and a slot of length 0 holds the empty string's 0. -/
theorem resetValues : Obligations.ResetValues := by
  have hlen : ∀ i : Fin 10, State.reset.bnLen[i] = 0 := by decide
  refine ⟨by decide, by decide, rfl, rfl, rfl, rfl, rfl, rfl, hlen, fun i => ?_, rfl, rfl⟩
  rw [SlotValue, hlen i]
  exact ⟨by decide, rfl⟩

end Sys2Proof.Machine

/-! PROOFS. What a completed command has written (10_state.md R21 to R26), and the invariant that every step
keeps (R25, R35, R36). -/

namespace Sys2Proof.Machine

/-! ### What a command writes -/

/-- `t` is `s` but for the contents of slots: `BNLEN`, and bytes of memory that lie in a slot. -/
structure WritesSlots (s t : State) : Prop where
  eq : t = { s with bnLen := t.bnLen, mem := t.mem }
  outside : ∀ a, (∀ i : Slot, a < bnBase i ∨ bnBase i + Config.bnBytes ≤ a) →
    t.readByte a = s.readByte a
  wf : Memory.wf s.mem → Memory.wf t.mem

theorem SlotStored.writesSlots {s t : State} {i : Slot} {v : Nat} (h : SlotStored s t i v) :
    WritesSlots s t :=
  ⟨h.eq, fun a ha => h.outside a (ha i), h.wf⟩

theorem WritesSlots.trans {s t u : State} (h : WritesSlots s t) (h' : WritesSlots t u) :
    WritesSlots s u where
  eq := by rw [h'.eq, h.eq]
  outside a ha := (h'.outside a ha).trans (h.outside a ha)
  wf hm := h'.wf (h.wf hm)

theorem yields_writeSlot_slots (s : State) (i : Slot) (v : Nat) :
    Yields (writeSlot s i v) (WritesSlots s) := by
  rcases writeSlot_cases s i v with ⟨-, t, ht, hst⟩ | ⟨-, he⟩
  · rw [ht, yields_ok]
    exact hst.writesSlots
  · rw [he, yields_error]
    rfl

/-- The writes of a command that succeeds, before its completion. Only commands with source slots write
slots, and only those write neither `ST` nor `OBUF`; only `LDKEY` writes the round keys. -/
inductive CommandWrites (s : State) : Instr → State → Prop where
  | block {i : Instr} (hi : sourceSlots i = []) (x : Block) : CommandWrites s i { s with st := x }
  | roundKeys : CommandWrites s .ldkey
      { s with rk := expandKey Config.cipher s.key, keyValid := true }
  | output {i : Instr} (hi : sourceSlots i = []) (vs : List Byte) (hvs : vs.length ≤ Config.bufBytes) :
      CommandWrites s i (s.writeBytes obufBase vs)
  | slots {i : Instr} (hi : sourceSlots i ≠ []) {t : State} (ht : WritesSlots s t) :
      CommandWrites s i t

/-! ### The output of a chaining command fits `OBUF` (R140, R144 to R146) -/

theorem flatMap_length_le {α : Type} (f : α → List Byte) (l : List α) (k : Nat)
    (h : ∀ x ∈ l, (f x).length ≤ k) : (l.flatMap f).length ≤ l.length * k := by
  rw [List.length_flatMap]
  calc (l.map fun x => (f x).length).sum
      ≤ (l.map fun x => (f x).length).length • k :=
        List.sum_le_card_nsmul _ _ fun n hn => by
          obtain ⟨x, hx, rfl⟩ := List.mem_map.mp hn
          exact h x hx
    _ = l.length * k := by rw [List.length_map, smul_eq_mul]

theorem cbceChain_length (enc : Block → Block) (prev : Block) (xs : List Block) :
    (cbceChain enc prev xs).length = xs.length := by
  induction xs generalizing prev with
  | nil => rfl
  | cons x xs ih => exact congrArg (· + 1) (ih _)

/-- `ceil16(n)` blocks of at most 16 bytes fit the buffer when `n` bytes do. -/
theorem blocks_length_le {n len : Nat} (hn : n ≤ Config.bufBytes) (h : len ≤ ceil16 n * 16) :
    len ≤ Config.bufBytes := by
  simp only [ceil16, Config.bufBytes] at *
  omega

theorem ctrOutput_length_le (c : Config.Cipher) (s : State) {n : Nat} (hn : n ≤ Config.bufBytes) :
    (ctrOutput c s n).length ≤ Config.bufBytes := by
  refine blocks_length_le hn ((flatMap_length_le _ _ 16 fun i _ => ?_).trans_eq (by simp))
  simp [ctrStep]

theorem cbceOutput_length_le (c : Config.Cipher) (s : State) {n : Nat} (hn : n ≤ Config.bufBytes) :
    (cbceOutput c s n).length ≤ Config.bufBytes := by
  refine blocks_length_le hn ((flatMap_length_le _ _ 16 fun y _ => ?_).trans_eq ?_)
  · simp
  · simp [cbceChain_length]

theorem cbcdOutput_length_le (c : Config.Cipher) (s : State) {n : Nat} (hn : n ≤ Config.bufBytes) :
    (cbcdOutput c s n).length ≤ Config.bufBytes := by
  refine blocks_length_le hn ((flatMap_length_le _ _ 16 fun i _ => ?_).trans_eq (by simp))
  simp [cbcdStep]

/-- A chaining command that passes its checks works on at most a buffer (R140). -/
theorem yields_chainChecks_len (s : State) :
    Yields (chainChecks s) fun _ => s.len.toNat ≤ Config.bufBytes := by
  rcases chainChecks_cases s with ⟨-, hl, hc⟩ | ⟨-, hc⟩ | ⟨-, -, hc⟩
  · rwa [hc, yields_ok]
  · rw [hc, yields_error]
    rfl
  · rw [hc, yields_error]
    rfl

/-! ### Every command writes as its family may -/

/-- The outcome is the conclusion of a rule that writes as command `i` may, or raises an error of commands. -/
def ConcludesWrites (i : Instr) (s : State) (o : Host.Outcome State Fault Refusal) : Prop :=
  ∃ x, o = conclude s x ∧ Yields x (CommandWrites s i)

theorem transformSt_concludesWrites {i : Instr} (hi : sourceSlots i = []) (f : Block → Block)
    (s : State) : ConcludesWrites i s (transformSt f s) :=
  ⟨_, rfl, .block hi _⟩

theorem transformStKeyed_concludesWrites {i : Instr} (hi : sourceSlots i = []) (f : Block → Block)
    (s : State) : ConcludesWrites i s (transformStKeyed f s) :=
  ⟨_, rfl, (yields_require _ rfl).bind fun _ _ => .block hi _⟩

theorem slotRule_concludesWrites {i : Instr} (hi : sourceSlots i ≠ []) {s : State}
    {x : Except ErrorKind State} (hx : Yields x (WritesSlots s)) : ConcludesWrites i s (conclude s x) :=
  ⟨x, rfl, hx.mono fun _ ht => .slots hi ht⟩

theorem execBnmul_writes (s : State) : ConcludesWrites .bnmul s (execBnmul s) :=
  slotRule_concludesWrites (by decide) <| (yields_readSlot s _).bind fun _ _ =>
    (yields_readSlot s _).bind fun _ _ => yields_writeSlot_slots s _ _

theorem execBnmod_writes (s : State) : ConcludesWrites .bnmod s (execBnmod s) :=
  slotRule_concludesWrites (by decide) <| (yields_readSlot s _).bind fun _ _ =>
    (yields_readSlot s _).bind fun _ _ => (yields_require _ rfl).bind fun _ _ =>
    yields_writeSlot_slots s _ _

theorem execBnmodexp_writes (s : State) : ConcludesWrites .bnmodexp s (execBnmodexp s) :=
  slotRule_concludesWrites (by decide) <| (yields_readSlot s _).bind fun _ _ =>
    (yields_readSlot s _).bind fun _ _ => (yields_readSlot s _).bind fun _ _ =>
    (yields_require _ rfl).bind fun _ _ => yields_writeSlot_slots s _ _

theorem execBnmodinv_writes (s : State) : ConcludesWrites .bnmodinv s (execBnmodinv s) :=
  slotRule_concludesWrites (by decide) <| (yields_readSlot s _).bind fun _ _ =>
    (yields_readSlot s _).bind fun _ _ => (yields_require _ rfl).bind fun _ _ =>
    (yields_modInv _ _).bind fun _ _ => yields_writeSlot_slots s _ _

theorem execRsamk_writes (s : State) : ConcludesWrites .rsamk s (execRsamk s) :=
  slotRule_concludesWrites (by decide) <| (yields_readSlot s _).bind fun _ _ =>
    (yields_readSlot s _).bind fun _ _ => (yields_readSlot s _).bind fun _ _ =>
    (yields_deriveKey _ _ _).bind fun _ _ =>
    (yields_writeSlot_slots s _ _).bind fun s1 h1 =>
    (yields_writeSlot_slots s1 _ _).bind fun s2 h2 =>
    (yields_writeSlot_slots s2 _ _).mono fun _ h3 => (h1.trans h2).trans h3

theorem execRsaenc_writes (s : State) : ConcludesWrites .rsaenc s (execRsaenc s) :=
  slotRule_concludesWrites (by decide) <| (yields_readSlot s _).bind fun _ _ =>
    (yields_readSlot s _).bind fun _ _ => (yields_readSlot s _).bind fun _ _ =>
    (yields_require _ rfl).bind fun _ _ => yields_writeSlot_slots s _ _

theorem execRsadec_writes (s : State) : ConcludesWrites .rsadec s (execRsadec s) :=
  slotRule_concludesWrites (by decide) <| (yields_readSlot s _).bind fun _ _ =>
    (yields_readSlot s _).bind fun _ _ => (yields_readSlot s _).bind fun _ _ =>
    (yields_readSlot s _).bind fun _ _ => (yields_readSlot s _).bind fun _ _ =>
    (yields_readSlot s _).bind fun _ _ => (yields_require _ rfl).bind fun _ _ =>
    (yields_crtDecrypt _ _ _ _ _ _).bind fun _ _ => yields_writeSlot_slots s _ _

theorem execCtr_writes (s : State) : ConcludesWrites .ctr s (execCtr s) :=
  ⟨_, rfl, (yields_chainChecks_len s).bind fun _ hl => .output rfl _ (ctrOutput_length_le _ s hl)⟩

theorem execCbce_writes (s : State) : ConcludesWrites .cbce s (execCbce s) :=
  ⟨_, rfl, (yields_chainChecks_len s).bind fun _ hl => (yields_require _ rfl).bind fun _ _ =>
    .output rfl _ (cbceOutput_length_le _ s hl)⟩

theorem execCbcd_writes (s : State) : ConcludesWrites .cbcd s (execCbcd s) :=
  ⟨_, rfl, (yields_chainChecks_len s).bind fun _ hl => (yields_require _ rfl).bind fun _ _ =>
    .output rfl _ (cbcdOutput_length_le _ s hl)⟩

theorem execLdkey_writes (s : State) : ConcludesWrites .ldkey s (execLdkey s) :=
  ⟨_, rfl, (yields_require _ rfl).bind fun _ _ => .roundKeys⟩

/-- `NOP` is the block command that leaves `ST` as it is. -/
theorem execNop_writes (s : State) : ConcludesWrites .nop s (execNop s) :=
  transformSt_concludesWrites rfl id s

theorem execArk_writes {k : Nat} (hk : k < 8) (s : State) : ConcludesWrites (.ark k) s (execArk k s) := by
  rw [execArk, dif_pos hk]
  exact transformStKeyed_concludesWrites rfl _ s

theorem exec_writes {i : Instr} (hw : i.wellFormed = true) (s : State) :
    ConcludesWrites i s (exec i s) := by
  cases i with
  | nop => exact execNop_writes s
  | subb => exact transformSt_concludesWrites rfl _ s
  | isubb => exact transformSt_concludesWrites rfl _ s
  | shrow => exact transformSt_concludesWrites rfl _ s
  | ishrow => exact transformSt_concludesWrites rfl _ s
  | mixc => exact transformSt_concludesWrites rfl _ s
  | imixc => exact transformSt_concludesWrites rfl _ s
  | ark k => exact execArk_writes (of_decide_eq_true hw) s
  | ldkey => exact execLdkey_writes s
  | encb => exact transformStKeyed_concludesWrites rfl _ s
  | decb => exact transformStKeyed_concludesWrites rfl _ s
  | ctr => exact execCtr_writes s
  | cbce => exact execCbce_writes s
  | cbcd => exact execCbcd_writes s
  | bnmul => exact execBnmul_writes s
  | bnmod => exact execBnmod_writes s
  | bnmodexp => exact execBnmodexp_writes s
  | bnmodinv => exact execBnmodinv_writes s
  | rsamk => exact execRsamk_writes s
  | rsaenc => exact execRsaenc_writes s
  | rsadec => exact execRsadec_writes s

/-- The one term that `exec` refuses has no next state (R92). -/
theorem wellFormed_of_exec {i : Instr} {s t : State} (h : exec i s = .next t) :
    i.wellFormed = true := by
  cases i with
  | ark k =>
    by_contra hw
    have hk : ¬ k < 8 := fun hk => hw (decide_eq_true hk)
    rw [exec, execArk, dif_neg hk] at h
    cases h
  | _ => rfl

/-- What a command leaves: its writes and its completion, or a fault and nothing else (R36, R236). -/
theorem exec_next_cases {i : Instr} {s t : State} (h : exec i s = .next t) :
    (∃ u, CommandWrites s i u ∧ t = complete u) ∨
      ∃ e : ErrorKind, e.ofCommand = true ∧ t = raise e s := by
  obtain ⟨x, hx, hy⟩ := exec_writes (wellFormed_of_exec h) s
  rw [hx] at h
  cases x with
  | ok u =>
    cases h
    exact Or.inl ⟨u, hy, rfl⟩
  | error e =>
    cases h
    exact Or.inr ⟨e, hy, rfl⟩

/-! ### The inputs, and the two families of commands -/

theorem slot_below_ibuf {a : Nat} (ha : ibufBase ≤ a) (i : Slot) :
    a < bnBase i ∨ bnBase i + Config.bnBytes ≤ a := by
  have hi := i.isLt
  simp only [ibufBase, bnBase, Config.bnBytes] at *
  omega

/-- The inputs of a command are not among its writes. -/
theorem CommandWrites.keeps_inputs {i : Instr} {s u : State} (h : CommandWrites s i u) :
    u.iv = s.iv ∧ u.key = s.key ∧ u.len = s.len ∧ u.keyLen = s.keyLen ∧
    (∀ a, a < Config.bufBytes → u.readByte (ibufBase + a) = s.readByte (ibufBase + a)) ∧
    (i ≠ .ldkey → u.rk = s.rk ∧ u.keyValid = s.keyValid) := by
  cases h with
  | block hi x => exact ⟨rfl, rfl, rfl, rfl, fun _ _ => rfl, fun _ => ⟨rfl, rfl⟩⟩
  | roundKeys => exact ⟨rfl, rfl, rfl, rfl, fun _ _ => rfl, fun hne => absurd rfl hne⟩
  | output hi vs hvs =>
    refine ⟨rfl, rfl, rfl, rfl, fun a ha => ?_, fun _ => ⟨rfl, rfl⟩⟩
    refine readByte_writeBytes_outside s obufBase vs _ (Or.inl ?_)
    simp only [ibufBase, obufBase, Config.bufBytes] at *
    omega
  | slots hi ht =>
    have hmem : ∀ a, u.readByte (ibufBase + a) = s.readByte (ibufBase + a) := fun a =>
      ht.outside _ (slot_below_ibuf (Nat.le_add_right _ a))
    refine ⟨?_, ?_, ?_, ?_, fun a _ => hmem a, fun _ => ⟨?_, ?_⟩⟩ <;> rw [ht.eq]

/-- Settles O15: no command's writes reach an input, and a completion or fault moves only status fields. -/
theorem commandsKeepInputs : Obligations.CommandsKeepInputs := by
  intro i s t h
  rcases exec_next_cases h with ⟨u, hu, rfl⟩ | ⟨e, -, rfl⟩
  · exact hu.keeps_inputs
  · exact ⟨rfl, rfl, rfl, rfl, fun _ _ => rfl, fun _ => ⟨rfl, rfl⟩⟩

/-- A command with source slots writes slots alone. -/
theorem CommandWrites.of_sourceSlots {i : Instr} {s u : State} (h : CommandWrites s i u)
    (hi : sourceSlots i ≠ []) : WritesSlots s u := by
  cases h with
  | block hi' x => exact absurd hi' hi
  | roundKeys => exact absurd rfl hi
  | output hi' vs hvs => exact absurd hi' hi
  | slots _ ht => exact ht

/-- A command without source slots writes no slot: `OBUF` lies above them all. -/
theorem CommandWrites.keeps_slots {i : Instr} {s u : State} (h : CommandWrites s i u)
    (hi : sourceSlots i = []) : u.bnLen = s.bnLen ∧
      ∀ (b : Slot) (j : Nat), j < Config.bnBytes →
        u.readByte (bnBase b + j) = s.readByte (bnBase b + j) := by
  cases h with
  | block _ x => exact ⟨rfl, fun _ _ _ => rfl⟩
  | roundKeys => exact ⟨rfl, fun _ _ _ => rfl⟩
  | output _ vs hvs =>
    refine ⟨rfl, fun b j hj => readByte_writeBytes_outside s obufBase vs _ (Or.inl ?_)⟩
    have hb := b.isLt
    simp only [bnBase, obufBase, Config.bnBytes] at *
    omega
  | slots hi' ht => exact absurd hi hi'

/-- Settles O16: by the family of the command; a fault writes neither. -/
theorem commandFamiliesAreSeparate : Obligations.CommandFamiliesAreSeparate := by
  intro i s t h
  rcases exec_next_cases h with ⟨u, hu, rfl⟩ | ⟨e, -, rfl⟩
  · refine ⟨fun hi => ?_, fun hi => hu.keeps_slots hi⟩
    have hw := hu.of_sourceSlots hi
    have hst : u.st = s.st := by rw [hw.eq]
    refine ⟨hst, fun a _ => hw.outside _ (slot_below_ibuf ?_)⟩
    simp only [ibufBase, obufBase]
    omega
  · exact ⟨fun _ => ⟨rfl, fun _ _ => rfl⟩, fun _ => ⟨rfl, fun _ _ _ => rfl⟩⟩

/-! ### The invariant: what each part of a step does to it -/

/-- Settles O13: no byte of memory is listed, no flag is set, `RK` is zero, and nothing is in flight. -/
theorem resetIsSound : Obligations.ResetIsSound where
  memWf := Memory.wf_nil
  oneFlag := ⟨nofun, nofun⟩
  errCode := ⟨fun _ => rfl, nofun⟩
  roundKeys := ⟨fun _ => rfl, nofun⟩
  inFlight := nofun

theorem resetState_sound (s : State) : Sound (resetState s) where
  memWf := resetIsSound.memWf
  oneFlag := resetIsSound.oneFlag
  errCode := resetIsSound.errCode
  roundKeys := resetIsSound.roundKeys
  inFlight := resetIsSound.inFlight

/-- The invariant says nothing of the turns and of the answer. -/
theorem withTurns_sound {s : State} (h : Sound s) (ts : List Turn) (r : Option Response) :
    Sound { s with agenda := ts, response := r } :=
  ⟨h.memWf, h.oneFlag, h.errCode, h.roundKeys, h.inFlight⟩

theorem engineErrorCode_of_ofCommand {e : ErrorKind} (h : e.ofCommand = true) :
    engineErrorCode e.code := by
  refine ⟨e, ?_, ?_, rfl⟩ <;> rintro rfl <;> cases h

theorem engineErrorCode_illegalCommand : engineErrorCode ErrorKind.illegalCommand.code :=
  ⟨.illegalCommand, nofun, nofun, rfl⟩

/-- A fault keeps the invariant: `DONE` was cleared at acceptance (R236). -/
theorem raise_sound {s : State} (h : Sound s) (hdone : s.done = false) {e : ErrorKind}
    (he : engineErrorCode e.code) : Sound (raise e s) where
  memWf := h.memWf
  oneFlag := ⟨nofun, fun hd => absurd (hdone.symm.trans hd) Bool.false_ne_true⟩
  errCode := ⟨nofun, fun _ => he⟩
  roundKeys := h.roundKeys
  inFlight := nofun

/-- A completion keeps the invariant, whatever the command wrote as its family may. -/
theorem complete_sound {s u : State} {i : Instr} (h : Sound s) (herr : s.err = false)
    (hu : CommandWrites s i u) : Sound (complete u) := by
  cases hu with
  | block hi x =>
    exact ⟨h.memWf, ⟨nofun, fun _ => herr⟩, h.errCode, h.roundKeys, nofun⟩
  | roundKeys =>
    exact ⟨h.memWf, ⟨nofun, fun _ => herr⟩, h.errCode, ⟨nofun, fun _ => ⟨s.key, rfl⟩⟩, nofun⟩
  | output hi vs hvs =>
    have hwf : Memory.wf (s.writeBytes obufBase vs).mem :=
      Memory.wf_writeRange h.memWf fun a h1 h2 => isMemory_obuf h1 (by omega)
    exact ⟨hwf, ⟨nofun, fun _ => herr⟩, h.errCode, h.roundKeys, nofun⟩
  | slots hi ht =>
    have herr' : u.err = false := by rw [ht.eq]; exact herr
    have hcode : ErrCodeFits u := by rw [ht.eq]; exact h.errCode
    have hkeys : RoundKeysFit u := by rw [ht.eq]; exact h.roundKeys
    exact ⟨ht.wf h.memWf, ⟨nofun, fun _ => herr'⟩, hcode, hkeys, nofun⟩

/-- Acceptance keeps the invariant on an engine neither busy nor in error (R36). -/
theorem accept_sound {s : State} (h : Sound s) (hidle : s.inFlight = none) (herr : s.err = false)
    (w : Word) : Sound (accept w s) := by
  rcases accept_cases w s with ⟨i, hi, ha⟩ | ⟨e, -, ha⟩ <;> rw [ha]
  · exact ⟨h.memWf, ⟨fun _ => ⟨rfl, herr⟩, nofun⟩, h.errCode, h.roundKeys,
      fun w' hw' => by cases hw'; exact ⟨rfl, i, hi⟩⟩
  · have hcleared : Sound { s with lastCmd := w, done := false } :=
      ⟨h.memWf, ⟨fun _ => ⟨rfl, herr⟩, nofun⟩, h.errCode, h.roundKeys,
        fun w' hw' => nomatch hidle.symm.trans hw'⟩
    exact raise_sound hcleared rfl engineErrorCode_illegalCommand

/-- A write to `STATUS` only clears flags, and `ERRCODE` with `ERR` (R240). -/
theorem clearStatus_sound {s : State} (h : Sound s) (v : Word) : Sound (clearStatus v s) where
  memWf := h.memWf
  oneFlag := by
    obtain ⟨hbusy, hdone⟩ := h.oneFlag
    refine ⟨fun hb => ?_, fun hd => ?_⟩
    · obtain ⟨hd, he⟩ := hbusy hb
      simp [hd, he]
    · have hd' : s.done = true := (Bool.and_eq_true_iff.mp hd).1
      simp [hdone hd']
  errCode := by
    obtain ⟨hclear, hset⟩ := h.errCode
    rw [ErrCodeFits, clearStatus_err, clearStatus_errCode]
    cases v.getLsbD 2 with
    | true => simp
    | false => simpa using ⟨hclear, hset⟩
  roundKeys := h.roundKeys
  inFlight := h.inFlight

/-- An admitted write keeps the invariant. -/
theorem Written.sound {s t : State} {a : Nat} {v : Word} (ht : Written s a v t) (h : Sound s)
    (hcmd : a = 0x14 → s.inFlight = none ∧ s.err = false) : Sound t := by
  cases ht with
  | ignored => exact h
  | ctrl =>
    rcases writeCtrl_cases v s with ⟨-, hw⟩ | ⟨-, hw⟩ <;> rw [hw]
    · exact resetState_sound s
    · exact ⟨h.memWf, h.oneFlag, h.errCode, h.roundKeys, h.inFlight⟩
  | status => exact clearStatus_sound h v
  | cmd ha =>
    obtain ⟨hidle, herr⟩ := hcmd ha
    exact accept_sound h hidle herr v
  | memory hm =>
    have hwf : Memory.wf (s.writeBytes a [v.setWidth 8]).mem :=
      Memory.wf_writeRange h.memWf fun x h1 h2 => by
        rw [List.length_singleton] at h2
        rwa [show x = a by omega]
    exact ⟨hwf, h.oneFlag, h.errCode, h.roundKeys, h.inFlight⟩
  | len | keyLen | bnLen _ | st _ | iv _ | key _ =>
    exact ⟨h.memWf, h.oneFlag, h.errCode, h.roundKeys, h.inFlight⟩

theorem hostAct_sound {s : State} (h : Sound s) (act : HostAction) : Sound (hostAct s act) := by
  cases act with
  | read a n =>
    rcases memRead_cases s a n with ⟨-, hr⟩ | ⟨-, hr⟩ <;> rw [hostAct, hr] <;>
      exact withTurns_sound h s.agenda _
  | write a n v =>
    rcases memWrite_cases s a n v with ⟨-, hw⟩ | ⟨hadm, hw⟩ <;> rw [hostAct, hw]
    · exact withTurns_sound h s.agenda _
    · have hcmd : a = 0x14 → s.inFlight = none ∧ s.err = false := by
        rintro rfl
        exact busRefuses_cmd hadm
      exact withTurns_sound ((writePlace_written s a v).sound h hcmd) _ _
  | hardReset => exact resetState_sound s

/-- The engine's turn keeps the invariant: with a word in flight, which is legal, `DONE` and `ERR` are 0. -/
theorem engineTurn_sound {s t : State} (h : Sound s) (ht : engineTurn s = .next t) : Sound t := by
  rcases engineTurn_cases s with ⟨-, hs⟩ | ⟨w, i, hf, -, hs⟩ | ⟨w, e, hf, hd, -⟩
  · rw [hs] at ht
    cases ht
    exact h
  · obtain ⟨hdone, herr⟩ := h.oneFlag.1 (by rw [State.busy, hf]; rfl)
    rcases exec_next_cases (hs.symm.trans ht) with ⟨u, hu, rfl⟩ | ⟨e, he, rfl⟩
    · exact complete_sound h herr hu
    · exact raise_sound h hdone (engineErrorCode_of_ofCommand he)
  · obtain ⟨-, i, hi⟩ := h.inFlight w hf
    rw [hd] at hi
    cases hi

/-- Settles O12: by whose turn it is. -/
theorem stepKeepsSound : Obligations.StepKeepsSound := by
  intro s t h ht
  rcases step_cases s with ⟨-, hs⟩ | ⟨rest, -, hs⟩ | ⟨act, rest, -, hs⟩ <;> rw [hs] at ht
  · exact engineTurn_sound h ht
  · exact engineTurn_sound (withTurns_sound h rest s.response) ht
  · cases ht
    exact hostAct_sound (withTurns_sound h rest s.response) act

/-! ### Every reachable state -/

theorem reachable_sound {s : State} (h : Reachable s) : Sound s := by
  induction h with
  | reset => exact resetIsSound
  | turns ts _ ih => exact withTurns_sound ih ts _
  | step _ hs ih => exact stepKeepsSound _ _ ih hs

/-- `ERRCODE` never holds a code of the host's own (R233). -/
theorem errCode_ne_host_of_sound {s : State} (h : Sound s) : s.errCode ≠ 2 ∧ s.errCode ≠ 4 := by
  obtain ⟨hclear, hset⟩ := h.errCode
  cases he : s.err with
  | false =>
    rw [hclear he]
    decide
  | true =>
    obtain ⟨e, hpad, hhex, hcode⟩ := hset he
    rw [hcode]
    cases e with
    | invalidPadding => exact absurd rfl hpad
    | malformedHex => exact absurd rfl hhex
    | _ => decide

theorem irq_iff (s : State) : irq s = true ↔
    (s.done = true ∧ s.ienDone = true) ∨ (s.err = true ∧ s.ienErr = true) := by
  simp only [irq, Bool.or_eq_true, Bool.and_eq_true]

/-- Settles O14: each clause is the invariant read off, and every reachable state has it. -/
theorem reachableStatus : Obligations.ReachableStatus := by
  intro s hr
  have h := reachable_sound hr
  obtain ⟨hbusy, hdone⟩ := h.oneFlag
  obtain ⟨hpad, hhex⟩ := errCode_ne_host_of_sound h
  refine ⟨?_, ?_, ?_, hpad, hhex, fun hk k j => ?_, irq_iff s, fun hb => ?_⟩
  · rintro ⟨hb, hd⟩
    exact absurd ((hbusy hb).1.symm.trans hd) Bool.false_ne_true
  · rintro ⟨hb, he⟩
    exact absurd ((hbusy hb).2.symm.trans he) Bool.false_ne_true
  · rintro ⟨hd, he⟩
    exact absurd ((hdone hd).symm.trans he) Bool.false_ne_true
  · rw [h.roundKeys.1 hk]
    simp
  · obtain ⟨hd, he⟩ := hbusy hb
    rw [irq, hd, he]
    rfl

end Sys2Proof.Machine

/-! PROOFS. The bus (20_memory.md): which accesses are refused, that no read has an effect, and where each byte
of the windows stands. -/

namespace Sys2Proof.Machine

/-! ### Reads change nothing but the answer (R63, R68) -/

theorem step_read_refused {s : State} {a n : Nat} (h : busRefuses s a n false = true)
    (rest : List Turn) : step (actsNext s (.read a n) rest) =
      .next { s with agenda := rest, response := some .busFault } := by
  rw [step_actsNext, hostAct, memRead, busRefuses_agenda, h]
  rfl

/-- Settles O52: a read is refused, or answers what stands at its place. -/
theorem readsChangeNothing : Obligations.ReadsChangeNothing := by
  intro s a n rest
  cases h : busRefuses s a n false with
  | true => exact ⟨_, step_read_refused h rest⟩
  | false => exact ⟨_, step_read_admitted h rest⟩

/-! ### The conditions of R66 by offset -/

theorem place_eq_csrRegion_iff (a : Nat) : place a = .csrRegion ↔ a < 0x100 := by
  rcases place_cases a with ⟨h, hp⟩ | ⟨h, -, hp⟩ | ⟨h, -, hp⟩ | ⟨h, -, hp⟩ | ⟨h, -, hp⟩ | ⟨h, -, hp⟩ |
      ⟨h, -, hp⟩ | ⟨h, hp⟩ <;> rw [hp]
  · exact iff_of_true rfl h
  all_goals exact iff_of_false nofun (by omega)

/-- The width and alignment of R65, by range. -/
theorem widthFits_iff (a n : Nat) :
    widthFits a n = true ↔ (a < 0x100 ∧ n = 4 ∧ a % 4 = 0) ∨ (0x100 ≤ a ∧ n = 1) := by
  have hcsr := place_eq_csrRegion_iff a
  unfold widthFits
  cases hp : place a with
  | csrRegion =>
    have ha := hcsr.mp hp
    rw [Bool.and_eq_true, beq_iff_eq, beq_iff_eq]
    omega
  | _ =>
    have ha : ¬ a < 0x100 := hcsr.not.mp (by rw [hp]; nofun)
    rw [beq_iff_eq]
    omega

/-- The offsets of the windows at which something stands (R29, R61). -/
theorem isMapped_iff (a : Nat) : isMapped a = true ↔
    (a < 0x100 ∧ a % 4 = 0 ∧ (a < 0x20 ∨ 0x40 ≤ a ∧ a < 0x68)) ∨ (0x100 ≤ a ∧ a < 0x120) ∨
      (0x140 ≤ a ∧ a < 0x180) ∨ (0x200 ≤ a ∧ a < 0x280) ∨ isMemory a = true := by
  rw [isMemory_iff]
  unfold isMapped
  rcases place_cases a with ⟨h, hp⟩ | ⟨h, h', hp⟩ | ⟨h, h', hp⟩ | ⟨h, h', hp⟩ | ⟨h, h', hp⟩ |
      ⟨h, h', hp⟩ | ⟨-, h, hp⟩ | ⟨h, hp⟩ <;> rw [hp]
  · show (csrAt a).isSome = true ↔ _
    rw [csrAt_isSome_iff]
    omega
  · exact iff_of_true rfl (by omega)
  · exact iff_of_true rfl (by omega)
  · exact iff_of_true rfl (by omega)
  · exact iff_of_true rfl (by omega)
  · exact iff_of_true rfl (by omega)
  · rw [isMemory_iff] at h
    exact iff_of_true rfl (by omega)
  · rw [← Bool.not_eq_true, isMemory_iff] at h
    exact iff_of_false nofun (by omega)

/-- The registers that a command in flight locks: `CMD`, `LEN`, `KEYLEN` and the slot lengths (R67). -/
theorem csrAt_any_writeLockedByBusy_iff (a : Nat) : (csrAt a).any Csr.writeLockedByBusy = true ↔
    a % 4 = 0 ∧ (0x14 ≤ a ∧ a < 0x20 ∨ 0x40 ≤ a ∧ a < 0x68) := by
  by_cases h : ∃ k < 8, a = 4 * k
  · obtain ⟨k, hk, rfl⟩ := h
    interval_cases k <;> decide
  · have h' : ∀ k < 8, a ≠ 4 * k := fun k hk e => h ⟨k, hk, e⟩
    have hlow : ¬ (a % 4 = 0 ∧ a < 0x20) := fun hc => h ⟨a / 4, by omega, by omega⟩
    rw [csrAt_above h']
    by_cases hb : 0x40 ≤ a ∧ a < 0x68 ∧ a % 4 = 0
    · rw [dif_pos hb]
      exact iff_of_true rfl (by omega)
    · rw [dif_neg hb]
      exact iff_of_false nofun (by omega)

/-- The accesses that a command in flight locks (R67). -/
theorem lockedByBusy_iff (a : Nat) (isWrite : Bool) : lockedByBusy a isWrite = true ↔
    0x100 ≤ a ∨ isWrite = true ∧ a % 4 = 0 ∧ (0x14 ≤ a ∧ a < 0x20 ∨ 0x40 ≤ a ∧ a < 0x68) := by
  have hcsr := place_eq_csrRegion_iff a
  unfold lockedByBusy
  cases hp : place a with
  | csrRegion =>
    have ha : ¬ 0x100 ≤ a := Nat.not_le.mpr (hcsr.mp hp)
    rw [Bool.and_eq_true, csrAt_any_writeLockedByBusy_iff, or_iff_right ha]
  | _ =>
    have ha : ¬ a < 0x100 := hcsr.not.mp (by rw [hp]; nofun)
    exact iff_of_true rfl (Or.inl (Nat.not_lt.mp ha))

/-- R66: the five conditions, each by offset. A place of the wrong alignment is refused whether or not R67
locks it, so the alignment of the locked registers drops out. -/
theorem busRefuses_iff (s : State) (a n : Nat) (isWrite : Bool) : busRefuses s a n isWrite = true ↔
    (0x30000 ≤ a ∨
     (a < 0x100 ∧ ¬ (n = 4 ∧ a % 4 = 0)) ∨ (0x100 ≤ a ∧ n ≠ 1) ∨
     (a < 0x100 ∧ ¬ (a < 0x20 ∨ (0x40 ≤ a ∧ a < 0x68))) ∨
     (0x120 ≤ a ∧ a < 0x140) ∨ (0x180 ≤ a ∧ a < 0x200) ∨ (0x280 ≤ a ∧ a < 0x1000) ∨
     (0x3800 ≤ a ∧ a < 0x10000) ∨ (0x1000 ≤ a ∧ a < 0x3800 ∧ 0x200 ≤ (a - 0x1000) % 0x400) ∨
     (s.inFlight.isSome = true ∧
       (0x100 ≤ a ∨ (isWrite = true ∧ (0x14 ≤ a ∧ a < 0x20 ∨ 0x40 ≤ a ∧ a < 0x68)))) ∨
     (isWrite = true ∧ a = 0x14 ∧ s.err = true)) := by
  simp only [busRefuses, State.busy, Bool.or_eq_true, Bool.and_eq_true, Bool.not_eq_true',
    ← Bool.not_eq_true, decide_eq_true_eq, beq_iff_eq, widthFits_iff, isMapped_iff, isMemory_iff,
    lockedByBusy_iff, csrAt_cmd_iff]
  grind

/-- An admitted read answers with a value. -/
theorem readPlace_ne_busFault {a : Nat} (h : isMapped a = true) (s : State) :
    readPlace s a ≠ .busFault := by
  unfold isMapped at h
  unfold readPlace
  cases hp : place a with
  | csrRegion =>
    rw [hp] at h
    obtain ⟨r, hr⟩ := Option.isSome_iff_exists.mp h
    rw [hr]
    nofun
  | unmapped =>
    rw [hp] at h
    cases h
  | _ => nofun

theorem isMapped_of_admitted {s : State} {a n : Nat} {isWrite : Bool}
    (h : busRefuses s a n isWrite = false) : isMapped a = true := by
  simp only [busRefuses, Bool.or_eq_false_iff, Bool.not_eq_false'] at h
  obtain ⟨⟨⟨-, hmap⟩, -⟩, -⟩ := h
  exact hmap

/-- One access of the host: refused with no effect, or admitted and answered (R63, R64, R66). -/
theorem step_access_cases {s t : State} {a n : Nat} {v : Word} {isWrite : Bool} {rest : List Turn}
    (h : step (actsNext s (if isWrite then .write a n v else .read a n) rest) = .next t) :
    (busRefuses s a n isWrite = true ∧ t = { s with agenda := rest, response := some .busFault }) ∨
      (busRefuses s a n isWrite = false ∧ t.response ≠ some .busFault) := by
  cases isWrite with
  | true =>
    cases hr : busRefuses s a n true with
    | true => exact Or.inl ⟨rfl, Host.Outcome.next.inj (h.symm.trans (step_write_refused hr v rest))⟩
    | false =>
      cases h.symm.trans (step_write_admitted hr v rest)
      exact Or.inr ⟨rfl, nofun⟩
  | false =>
    cases hr : busRefuses s a n false with
    | true => exact Or.inl ⟨rfl, Host.Outcome.next.inj (h.symm.trans (step_read_refused hr rest))⟩
    | false =>
      cases h.symm.trans (step_read_admitted hr rest)
      exact Or.inr ⟨rfl, fun he => readPlace_ne_busFault (isMapped_of_admitted hr) s (Option.some.inj he)⟩

/-- Settles O53: a refusal is exactly the answer `BusFault`, and R66 by offset says when it comes. -/
theorem busFaultExactly : Obligations.BusFaultExactly := by
  intro s t a n v isWrite rest h
  rw [← busRefuses_iff]
  rcases step_access_cases h with ⟨hr, rfl⟩ | ⟨hr, hne⟩
  · exact ⟨iff_of_true rfl hr, fun _ => rfl⟩
  · exact ⟨iff_of_false hne (ne_true_of_eq_false hr), fun he => absurd he hne⟩

/-! ### A byte written and read back (R61, R64, R68) -/

/-- What a write does to its place depends on no turn to come. -/
theorem writePlace_agenda (s : State) (ts : List Turn) (a : Nat) (v : Word) :
    writePlace { s with agenda := ts } a v = { writePlace s a v with agenda := ts } := by
  unfold writePlace
  cases place a with
  | csrRegion =>
    cases csrAt a with
    | none => rfl
    | some r =>
      cases r with
      | ctrl =>
        simp only [csrWrite, writeCtrl]
        split <;> rfl
      | cmd =>
        simp only [csrWrite, accept]
        cases decode v <;> rfl
      | _ => rfl
  | _ => rfl

/-- A place that answers a byte is mapped and lies above the CSR region, so an idle engine admits it. -/
theorem busRefuses_of_readPlace_byte {s : State} (hidle : s.inFlight = none) {a : Nat} {b : Byte}
    (h : readPlace s a = .byte b) (isWrite : Bool) : busRefuses s a 1 isWrite = false := by
  have hmap : isMapped a = true ∧ place a ≠ .csrRegion := by
    unfold readPlace at h
    unfold isMapped
    cases hp : place a with
    | csrRegion =>
      rw [hp] at h
      cases hr : csrAt a <;> simp [hr] at h
    | unmapped => simp [hp] at h
    | _ => exact ⟨rfl, nofun⟩
  obtain ⟨hmap, hcsr⟩ := hmap
  rw [Ne, place_eq_csrRegion_iff] at hcsr
  have hrange := (isMapped_iff a).mp hmap
  rw [isMemory_iff] at hrange
  exact busRefuses_byte hidle (by omega) ((widthFits_iff a 1).mpr (by omega)) hmap isWrite

/-- One byte at offset `a`, `old` before: the write of `v` leaves `t`, a read answers `old`, and a read right
after the write answers the byte written. -/
def StoresByte (s t : State) (a : Nat) (v : Word) (old : Byte) (rest : List Turn) : Prop :=
  step (actsNext s (.write a 1 v) rest) = .next { t with agenda := rest, response := some .written } ∧
  step (actsNext s (.read a 1) rest) =
    .next { s with agenda := rest, response := some (.byte old) } ∧
  ∃ u, step (actsNext s (.write a 1 v) (.host (.read a 1) :: rest)) = .next u ∧
    step u = .next { t with agenda := rest, response := some (.byte (v.setWidth 8)) }

/-- An idle engine stores a byte wherever the place answers a byte before and the byte written after. -/
theorem storesByte_of_place {s t : State} {a : Nat} {v : Word} {old : Byte} {rest : List Turn}
    (hs : s.inFlight = none) (ht : t.inFlight = none) (hwrite : writePlace s a v = t)
    (hold : readPlace s a = .byte old) (hnew : readPlace t a = .byte (v.setWidth 8)) :
    StoresByte s t a v old rest := by
  have hstep : ∀ ts, step (actsNext s (.write a 1 v) ts) =
      .next { t with agenda := ts, response := some .written } := fun ts => by
    rw [step_write_admitted (busRefuses_of_readPlace_byte hs hold true), writePlace_agenda, hwrite]
  have hread := step_read_admitted (busRefuses_of_readPlace_byte hs hold false) rest
  have hread' := step_read_admitted (s := { t with response := some .written })
    (busRefuses_of_readPlace_byte ht hnew false) rest
  refine ⟨hstep rest, by rw [hread, hold], _, hstep _, hread'.trans ?_⟩
  rw [← hnew]
  rfl

/-! ### Where each byte stands (R61) -/

theorem byteIndex_row {base : Nat} (hbase : base % 16 = 0) (j : Fin 16) : byteIndex (base + j.val) = j :=
  Fin.ext (show (base + j.val) % 16 = j.val by omega)

theorem place_st (j : Fin 16) : place (0x100 + j.val) = .st j := by
  unfold place
  rw [if_neg (by omega), if_pos (by omega), byteIndex_row rfl]

theorem place_iv (j : Fin 16) : place (0x110 + j.val) = .iv j := by
  unfold place
  repeat rw [if_neg (by omega)]
  rw [if_pos (by omega), byteIndex_row rfl]

theorem place_key (j : Fin 16) : place (0x140 + j.val) = .key j := by
  unfold place
  simp only [Config.keyBytes]
  repeat rw [if_neg (by omega)]
  rw [if_pos (by omega), byteIndex_row rfl]

theorem readByte_writeBytes_singleton (s : State) (a x : Nat) (b : Byte) :
    (s.writeBytes a [b]).readByte x = if x = a then b else s.readByte x := by
  split
  next h => exact h ▸ readByte_writeBytes_inside s a [b] 0 Nat.one_pos
  next h => exact readByte_writeBytes_outside s a [b] x (by rw [List.length_singleton]; omega)

/-! ### Each window stores its bytes (R61, R64, R68) -/

theorem storesByte_st {s : State} (hidle : s.inFlight = none) (j : Fin 16) (v : Word)
    (rest : List Turn) : StoresByte s { s with st := s.st.set j (v.setWidth 8) } (0x100 + j.val) v
      s.st[j] rest := by
  have hread : ∀ t, readPlace t (0x100 + j.val) = .byte t.st[j] := fun t => by
    rw [readPlace, place_st]
  refine storesByte_of_place hidle hidle (by rw [writePlace, place_st]) (hread s) ?_
  exact (hread _).trans (congrArg Response.byte (Vector.getElem_set_self _))

theorem storesByte_iv {s : State} (hidle : s.inFlight = none) (j : Fin 16) (v : Word)
    (rest : List Turn) : StoresByte s { s with iv := s.iv.set j (v.setWidth 8) } (0x110 + j.val) v
      s.iv[j] rest := by
  have hread : ∀ t, readPlace t (0x110 + j.val) = .byte t.iv[j] := fun t => by
    rw [readPlace, place_iv]
  refine storesByte_of_place hidle hidle (by rw [writePlace, place_iv]) (hread s) ?_
  exact (hread _).trans (congrArg Response.byte (Vector.getElem_set_self _))

theorem storesByte_key {s : State} (hidle : s.inFlight = none) (j : Fin 16) (v : Word)
    (rest : List Turn) : StoresByte s { s with key := s.key.set j (v.setWidth 8) } (0x140 + j.val) v
      s.key[j] rest := by
  have hread : ∀ t, readPlace t (0x140 + j.val) = .byte t.key[j] := fun t => by
    rw [readPlace, place_key]
  refine storesByte_of_place hidle hidle (by rw [writePlace, place_key]) (hread s) ?_
  exact (hread _).trans (congrArg Response.byte (Vector.getElem_set_self _))

/-- A byte of `BNDATA`, `IBUF` or `OBUF`. -/
theorem storesByte_memory {s : State} (hidle : s.inFlight = none) {a : Nat} (h : isMemory a = true)
    (v : Word) (rest : List Turn) :
    StoresByte s (s.writeBytes a [v.setWidth 8]) a v (s.readByte a) rest := by
  have hread : ∀ t, readPlace t a = .byte (t.readByte a) := fun t => by
    rw [readPlace, place_memory h]
  refine storesByte_of_place hidle hidle (by rw [writePlace, place_memory h]) (hread s) ?_
  rw [hread, readByte_writeBytes_singleton, if_pos rfl]

/-- Settles O56: window by window, on the place that stands at each offset. -/
theorem byteWriteThenRead : Obligations.ByteWriteThenRead := by
  intro s v rest hidle
  have hmem : ∀ a, isMemory a = true →
      StoresByte s (s.writeBytes a [v.setWidth 8]) a v (s.readByte a) rest := fun _ h =>
    storesByte_memory hidle h v rest
  refine ⟨fun j => ⟨?_, ?_, ?_⟩, fun i j hj => ?_, fun j hj => ⟨?_, ?_⟩, fun a x => ?_⟩
  · exact storesByte_st hidle j v rest
  · exact storesByte_iv hidle j v rest
  · exact storesByte_key hidle j v rest
  · exact hmem _ (isMemory_slot i (Nat.le_add_right _ _) (Nat.add_lt_add_left hj _))
  · exact hmem _ (isMemory_ibuf (Nat.le_add_right _ _) (Nat.add_lt_add_left hj _))
  · exact hmem _ (isMemory_obuf (Nat.le_add_right _ _) (Nat.add_lt_add_left hj _))
  · exact readByte_writeBytes_singleton s a x _

end Sys2Proof.Machine

/-! PROOFS. The command word and its three fields (30_encoding.md R90 to R95): decoder, encoder and table of R91
each say the same of `OP`, `K` and `ZERO`, and every statement on encoding follows from that. -/

namespace Sys2Proof.Machine

/-! ### The fields of a word -/

theorem opField_eq (w : Word) : opField w = w.toNat % 2 ^ 8 :=
  BitVec.extractLsb'_toNat 0 8 w

theorem kField_eq (w : Word) : kField w = w.toNat / 2 ^ 8 % 2 ^ 3 := by
  rw [kField, BitVec.extractLsb'_toNat, Nat.shiftRight_eq_div_pow]

theorem zeroField_eq (w : Word) : zeroField w = w.toNat / 2 ^ 11 := by
  rw [zeroField, BitVec.extractLsb'_toNat, Nat.shiftRight_eq_div_pow]
  have hw := w.isLt
  omega

/-- The three fields cover the word (R90). -/
theorem word_eq_iff_fields (v w : Word) :
    v = w ↔ opField v = opField w ∧ kField v = kField w ∧ zeroField v = zeroField w := by
  rw [← BitVec.toNat_inj]
  simp only [opField_eq, kField_eq, zeroField_eq]
  omega

/-! ### The fields of a command -/

theorem op_lt (i : Instr) : i.op < 2 ^ 7 := by
  cases i <;> simp [Instr.op]

/-- `ARK` is the command of row 0x07, and its index is all that the row leaves open (R92). -/
theorem eq_ark_iff (i : Instr) (k : Nat) : i = .ark k ↔ i.op = 0x07 ∧ i.index = k := by
  cases i <;> simp [Instr.op, Instr.index]

theorem index_of_op_ne_ark {i : Instr} (h : i.op ≠ 0x07) : i.index = 0 := by
  cases i with
  | ark k => exact absurd rfl h
  | _ => rfl

/-- A command is well-formed exactly when the three bits of `K` hold its index (R90, R92). -/
theorem wellFormed_iff_index (i : Instr) : i.wellFormed = true ↔ i.index < 8 := by
  cases i with
  | ark k => exact decide_eq_true_iff
  | _ => exact iff_of_true rfl (by decide)

theorem encode_toNat {i : Instr} (h : i.index < 8) : (encode i).toNat = i.op + 0x100 * i.index := by
  have hop := op_lt i
  rw [encode, BitVec.toNat_ofNat, Nat.mod_eq_of_lt (by omega)]

theorem encode_fields {i : Instr} (h : i.index < 8) :
    opField (encode i) = i.op ∧ kField (encode i) = i.index ∧ zeroField (encode i) = 0 := by
  have hop := op_lt i
  rw [opField_eq, kField_eq, zeroField_eq, encode_toNat h]
  omega

/-! ### The decoder -/

theorem plainCommand_eq_some_iff {op : Nat} (h : op ≠ 0x07) (i : Instr) :
    plainCommand op = some i ↔ op = i.op := by
  constructor
  · intro hi
    unfold plainCommand at hi
    split at hi <;> cases hi <;> rfl
  · rintro rfl
    cases i with
    | ark k => exact absurd rfl h
    | _ => rfl

/-- What the decoder answers, by fields: the command whose `OP` and index the word carries (R95). -/
theorem decode_eq_ok_iff (w : Word) (i : Instr) :
    decode w = .ok i ↔ opField w = i.op ∧ kField w = i.index ∧ zeroField w = 0 := by
  unfold decode
  split
  next hz => exact iff_of_false nofun fun ⟨_, _, h0⟩ => hz h0
  next hz =>
  split
  next ho =>
    rw [Except.ok.injEq, eq_comm, eq_ark_iff, ho]
    tauto
  next ho =>
  split
  next hn =>
    refine iff_of_false nofun fun ⟨hop, _⟩ => ?_
    rw [(plainCommand_eq_some_iff ho i).mpr hop] at hn
    cases hn
  next j hj =>
    have hi : j = i ↔ opField w = i.op := by
      rw [← plainCommand_eq_some_iff ho, hj, Option.some.injEq]
    have hk : opField w = i.op → i.index = 0 := fun hop => index_of_op_ne_ark (hop ▸ ho)
    split
    next h0 => exact iff_of_false nofun fun ⟨hop, hidx, _⟩ => h0 (hidx.trans (hk hop))
    next h0 =>
      rw [Except.ok.injEq, hi]
      exact ⟨fun hop => ⟨hop, (not_not.mp h0).trans (hk hop).symm, not_not.mp hz⟩, And.left⟩

/-- The decoder inverts the encoder on well-formed commands and answers on no other word (R91, R95). -/
theorem decode_eq_ok_iff_encode (w : Word) (i : Instr) :
    decode w = .ok i ↔ i.wellFormed = true ∧ w = encode i := by
  rw [wellFormed_iff_index, decode_eq_ok_iff]
  constructor
  · rintro ⟨hop, hk, hz⟩
    have hlt : i.index < 8 := hk ▸ kField_lt w
    obtain ⟨hop', hk', hz'⟩ := encode_fields hlt
    exact ⟨hlt, (word_eq_iff_fields _ _).mpr
      ⟨hop.trans hop'.symm, hk.trans hk'.symm, hz.trans hz'.symm⟩⟩
  · rintro ⟨hlt, rfl⟩
    exact encode_fields hlt

/-- Settles O1: a well-formed command is what its one word decodes to. -/
theorem decodeOfEncode : Obligations.DecodeOfEncode := fun i hi =>
  (decode_eq_ok_iff_encode _ i).mpr ⟨hi, rfl⟩

/-- Settles O2: the converse reading of the same equivalence. -/
theorem encodeOfDecode : Obligations.EncodeOfDecode := fun w i hd =>
  have ⟨hi, hw⟩ := (decode_eq_ok_iff_encode w i).mp hd
  ⟨hw.symm, hi⟩

/-! ### The rows of the table -/

theorem rowMatch_eq (i : Instr) : i.rowMatch = BitVec.ofNat 32 i.op := by
  cases i <;> rfl

theorem rowMatch_fields (i : Instr) :
    opField i.rowMatch = i.op ∧ kField i.rowMatch = 0 ∧ zeroField i.rowMatch = 0 := by
  have hlt := op_lt i
  rw [opField_eq, kField_eq, zeroField_eq, rowMatch_eq, BitVec.toNat_ofNat]
  omega

/-- Only the row of `ARK` leaves bits of the word, those of `K`, out of the comparison (R91). -/
theorem rowMask_eq (i : Instr) :
    i.rowMask = if i.op = 0x07 then 0xFFFFF8FF else BitVec.allOnes 32 := by
  cases i <;> rfl

theorem opField_and_rowMask (w : Word) (i : Instr) : opField (w &&& i.rowMask) = opField w := by
  have hmask : i.rowMask.extractLsb' 0 8 = BitVec.allOnes 8 := by
    rw [rowMask_eq]
    split <;> decide
  rw [opField, BitVec.extractLsb'_and, hmask, BitVec.and_allOnes, opField]

theorem zeroField_and_rowMask (w : Word) (i : Instr) : zeroField (w &&& i.rowMask) = zeroField w := by
  have hmask : i.rowMask.extractLsb' 11 21 = BitVec.allOnes 21 := by
    rw [rowMask_eq]
    split <;> decide
  rw [zeroField, BitVec.extractLsb'_and, hmask, BitVec.and_allOnes, zeroField]

theorem kField_and_rowMask (w : Word) (i : Instr) :
    kField (w &&& i.rowMask) = if i.op = 0x07 then 0 else kField w := by
  have hmask : i.rowMask.extractLsb' 8 3 = if i.op = 0x07 then 0#3 else BitVec.allOnes 3 := by
    rw [rowMask_eq]
    split <;> decide
  rw [kField, BitVec.extractLsb'_and, hmask]
  split
  · rw [BitVec.and_zero, BitVec.toNat_zero]
  · rw [BitVec.and_allOnes, kField]

/-- What R91's `match` and `mask` columns ask of a word, by fields. -/
theorem matchesRow_iff (w : Word) (i : Instr) : w &&& i.rowMask = i.rowMatch ↔
    opField w = i.op ∧ (i.op = 0x07 ∨ kField w = 0) ∧ zeroField w = 0 := by
  obtain ⟨hop, hk, hz⟩ := rowMatch_fields i
  rw [word_eq_iff_fields, opField_and_rowMask, kField_and_rowMask, zeroField_and_rowMask, hop, hk, hz,
    ite_eq_left_iff, or_iff_not_imp_left]

/-- The decoder selects by `match` and `mask`, with `K` for the index (R95). -/
theorem decode_eq_ok_iff_row (w : Word) (i : Instr) :
    decode w = .ok i ↔ w &&& i.rowMask = i.rowMatch ∧ kField w = i.index := by
  have hidx : i.op ≠ 0x07 → i.index = 0 := index_of_op_ne_ark
  rw [decode_eq_ok_iff, matchesRow_iff]
  grind

/-- The decoder is total (R95): a word that decodes to no command is illegal. -/
theorem decode_error_iff (w : Word) : (∃ e, decode w = .error e) ↔ ¬ ∃ i, decode w = .ok i := by
  cases decode w <;> simp

/-- Settles O3: the row decides, and a word that decodes at all decodes to a well-formed command. -/
theorem decodeSelectsTableRow : Obligations.DecodeSelectsTableRow := by
  refine fun w => ⟨fun i _ => decode_eq_ok_iff_row w i, fun hnone => ?_⟩
  rw [decode_error_iff]
  rintro ⟨i, hd⟩
  exact hnone i (decode_wellFormed hd) ((decode_eq_ok_iff_row w i).mp hd)

/-! ### Legal words -/

/-- A word is legal when its `OP` is assigned, `K` is 0 outside `ARK`, and `ZERO` is 0 (R93). -/
theorem decode_ok_iff_fields (w : Word) : (∃ i, decode w = .ok i) ↔
    (∃ i : Instr, opField w = i.op) ∧ (opField w = 0x07 ∨ kField w = 0) ∧ zeroField w = 0 := by
  simp only [decode_eq_ok_iff]
  constructor
  · rintro ⟨i, hop, hk, hz⟩
    have hk0 : opField w ≠ 0x07 → kField w = 0 := fun hne =>
      hk.trans (index_of_op_ne_ark (hop ▸ hne))
    exact ⟨⟨i, hop⟩, or_iff_not_imp_left.mpr hk0, hz⟩
  · rintro ⟨⟨i, hop⟩, hk, hz⟩
    by_cases hark : opField w = 0x07
    · exact ⟨.ark (kField w), hark, rfl, hz⟩
    · have hidx : i.index = 0 := index_of_op_ne_ark (hop ▸ hark)
      exact ⟨i, hop, (hk.resolve_left hark).trans hidx.symm, hz⟩

theorem decode_ok_iff_matchesRow (w : Word) : (∃ i, decode w = .ok i) ↔
    ∃ i : Instr, i.wellFormed = true ∧ w &&& i.rowMask = i.rowMatch := by
  constructor
  · rintro ⟨i, hd⟩
    exact ⟨i, decode_wellFormed hd, ((decode_eq_ok_iff_row w i).mp hd).1⟩
  · rintro ⟨i, -, hrow⟩
    obtain ⟨hop, hk, hz⟩ := (matchesRow_iff w i).mp hrow
    exact (decode_ok_iff_fields w).mpr ⟨⟨i, hop⟩, hop ▸ hk, hz⟩

/-- One command of each row of R91's table, in its order; of `ARK` the first index. -/
def tableRows : List Instr :=
  [.nop, .subb, .isubb, .shrow, .ishrow, .mixc, .imixc, .ark 0, .ldkey, .encb, .decb, .ctr, .cbce, .cbcd,
    .bnmul, .bnmod, .bnmodexp, .bnmodinv, .rsamk, .rsaenc, .rsadec]

/-- Column `OP` of R91's table. -/
def assignedOps : List (BitVec 8) := tableRows.map fun i => BitVec.ofNat 8 i.op

theorem exists_tableRow (i : Instr) : ∃ j ∈ tableRows, j.op = i.op := by
  cases i with
  | ark k => exact ⟨.ark 0, by decide, rfl⟩
  | _ => exact ⟨_, by decide, rfl⟩

theorem mem_assignedOps_iff (w : Word) :
    w.extractLsb' 0 8 ∈ assignedOps ↔ ∃ i : Instr, opField w = i.op := by
  have hfield : ∀ i : Instr, BitVec.ofNat 8 i.op = w.extractLsb' 0 8 ↔ opField w = i.op := fun i => by
    have hlt := op_lt i
    rw [← BitVec.toNat_inj, BitVec.toNat_ofNat, Nat.mod_eq_of_lt (by omega), eq_comm, opField]
  rw [assignedOps, List.mem_map]
  constructor
  · rintro ⟨i, -, hi⟩
    exact ⟨i, (hfield i).mp hi⟩
  · rintro ⟨i, hi⟩
    obtain ⟨j, hj, hop⟩ := exists_tableRow i
    exact ⟨j, hj, (hfield j).mpr (hi.trans hop.symm)⟩

/-- R93's list of what makes a word illegal, as conditions on bit vectors. -/
theorem decode_error_iff_fields (w : Word) : (∃ e, decode w = .error e) ↔
    w.extractLsb' 0 8 ∉ assignedOps ∨
      w.extractLsb' 11 21 ≠ 0 ∨ (w.extractLsb' 8 3 ≠ 0 ∧ w.extractLsb' 0 8 ≠ 0x07) := by
  have hop : w.extractLsb' 0 8 = 0x07 ↔ opField w = 0x07 := BitVec.toNat_inj.symm
  have hk : w.extractLsb' 8 3 = 0 ↔ kField w = 0 := BitVec.toNat_inj.symm
  have hz : w.extractLsb' 11 21 = 0 ↔ zeroField w = 0 := BitVec.toNat_inj.symm
  rw [decode_error_iff, decode_ok_iff_fields, mem_assignedOps_iff, ne_eq, ne_eq, ne_eq, hop, hk, hz]
  tauto

/-- Settles O4: by rows, the negation of legality; by fields, R93's list. -/
theorem illegalWords : Obligations.IllegalWords := by
  refine fun w => ⟨?_, decode_error_iff_fields w⟩
  rw [decode_error_iff, decode_ok_iff_matchesRow]
  simp only [not_exists, not_and, ne_eq]

/-- Settles O5: each legal vector is the encoding of its command, each illegal one meets a condition of R93. -/
theorem decodeExamples : Obligations.DecodeExamples := by
  refine ⟨decodeOfEncode .encb rfl, decodeOfEncode (.ark 5) rfl, decodeOfEncode (.ark 7) rfl,
    decodeOfEncode .nop rfl, decodeOfEncode .bnmodinv rfl, decodeOfEncode .rsadec rfl,
    decodeOfEncode .cbce rfl, ?_⟩
  simp only [decode_error_iff_fields, List.forall_mem_cons]
  refine ⟨.inr (.inl ?_), .inr (.inr ?_), .inl ?_, .inr (.inl ?_), .inl ?_, List.forall_mem_nil _⟩ <;>
    decide

/-! ### The word of the table in the step -/

theorem tableWord_toNat (w : Word) : tableWord 32 w.toNat = w := by
  rw [tableWord, Nat.mod_eq_of_lt w.isLt, BitVec.ofNat_toNat, BitVec.setWidth_eq]

/-- Settles O7: the table's number of an encoding is that word, in flight with the engine's turn next. -/
theorem fetchWordIsRun : Obligations.FetchWordIsRun := by
  intro s i hi
  have hd : decode (encode i) = .ok i := decodeOfEncode i hi
  rw [decodeTableWord, State.withFetchWord, tableWord_toNat, hd]
  have hrun := stepRunsDecodedCommand (withCommand s (encode i)) (encode i) i rfl hd hi
  exact ⟨rfl, hrun.2 s.agenda rfl⟩

/-- Settles O24: the index is out of range, so no word decodes to the term, since what decodes is
well-formed. -/
theorem indexAboveNrIsNoCommand : Obligations.IndexAboveNrIsNoCommand := by
  intro s k hk
  have hill : (Instr.ark k).wellFormed = false := decide_eq_false (Nat.not_lt.mpr hk)
  refine ⟨hill, by rw [exec, execArk, dif_neg (Nat.not_lt.mpr hk)], fun w hd => ?_⟩
  exact Bool.false_ne_true (hill.symm.trans (decode_wellFormed hd))

end Sys2Proof.Machine

/-! PROOFS. The block functions and the commands that apply them to `ST` (40_blockcore.md): each function entry
by entry, the inverse pairs of R119, and what a block command leaves (R110). -/

namespace Sys2Proof.Machine

open Config (Cipher)

/-! ### An inverse on finitely many values (R7) -/

/-- A column is its four entries, and there are finitely many bytes. -/
theorem finite_column : Finite Column :=
  Finite.of_injective (fun (v : Column) (i : Fin 4) => v[i]) fun _ _ h =>
    Vector.ext fun i hi => congrFun h ⟨i, hi⟩

/-- A left inverse of a function on a finite set is a two-sided inverse (R7). -/
theorem rightInverse_of_finite {α : Type} (hα : Finite α) {f g : α → α} (h : ∀ x, g (f x) = x) (x : α) :
    f (g x) = x :=
  Function.LeftInverse.rightInverse_of_surjective h
    (Finite.surjective_of_injective (Function.LeftInverse.injective h)) x

theorem sbox_invSbox (c : Cipher) (b : Byte) : c.sbox (c.invSbox b) = b :=
  rightInverse_of_finite inferInstance c.invSbox_sbox b

theorem mixcol_invMixcol (c : Cipher) (v : Column) : c.mixcol (c.invMixcol v) = v :=
  rightInverse_of_finite finite_column c.invMixcol_mixcol v

/-! ### Exclusive-or of blocks (R117) -/

theorem xorBytes_self {n : Nat} (a : Vector Byte n) : xorBytes a a = Vector.replicate n 0 :=
  Vector.ext fun i hi => by simp

theorem addRoundKey_getElem (s rk : Block) (j : Fin 16) : (addRoundKey s rk)[j] = s[j] ^^^ rk[j] :=
  Vector.getElem_zipWith j.isLt

theorem addRoundKey_addRoundKey (s rk : Block) : addRoundKey (addRoundKey s rk) rk = s :=
  Vector.ext fun i hi => by
    simp only [addRoundKey, Vector.getElem_zipWith, BitVec.xor_assoc, BitVec.xor_self, BitVec.xor_zero]

/-! ### Substitution (R111, R112) -/

theorem subBytes_getElem (c : Cipher) (s : Block) (k : Fin 16) : (subBytes c s)[k] = c.sbox s[k] :=
  Vector.getElem_map _ k.isLt

theorem invSubBytes_getElem (c : Cipher) (s : Block) (k : Fin 16) :
    (invSubBytes c s)[k] = c.invSbox s[k] :=
  Vector.getElem_map _ k.isLt

theorem invSubBytes_subBytes (c : Cipher) (s : Block) : invSubBytes c (subBytes c s) = s :=
  Vector.map_map.trans (Vector.map_id'' c.invSbox_sbox s)

theorem subBytes_invSubBytes (c : Cipher) (s : Block) : subBytes c (invSubBytes c s) = s :=
  Vector.map_map.trans (Vector.map_id'' (sbox_invSbox c) s)

/-! ### Row rotation (R113, R114) -/

/-- Every byte of a block has a row and a column (R11). -/
theorem block_ext_rows {x y : Block} (h : ∀ r c : Fin 4, x[r.val + 4 * c.val] = y[r.val + 4 * c.val]) :
    x = y := by
  have index : ∀ k : Fin 16, ∃ r c : Fin 4, r.val + 4 * c.val = k.val := by decide
  refine Vector.ext fun k hk => ?_
  obtain ⟨r, c, hrc⟩ := index ⟨k, hk⟩
  subst hrc
  exact h r c

/-- The rotation by its row number permutes each row, so every byte of a block is where it puts some byte. -/
theorem block_ext_rotated {x y : Block} (h : ∀ r c : Fin 4,
    x[r.val + 4 * ((c.val + r.val) % 4)] = y[r.val + 4 * ((c.val + r.val) % 4)]) : x = y := by
  have source : ∀ r c : Fin 4, ∃ c' : Fin 4, (c'.val + r.val) % 4 = c.val := by decide
  refine block_ext_rows fun r c => ?_
  obtain ⟨c', hc⟩ := source r c
  simpa only [hc] using h r c'

theorem rotateLeft_entry (s : Block) (r c : Fin 4) :
    (rotateLeft s)[r.val + 4 * c.val] = s[r.val + 4 * ((c.val + r.val) % 4)] := by
  simp only [rotateLeft, Vector.getElem_ofFn]
  exact getElem_congr_idx (by omega)

theorem rotateRight_entry (s : Block) (r c : Fin 4) :
    (rotateRight s)[r.val + 4 * ((c.val + r.val) % 4)] = s[r.val + 4 * c.val] := by
  simp only [rotateRight, Vector.getElem_ofFn]
  exact getElem_congr_idx (by omega)

theorem rotateRight_rotateLeft (s : Block) : rotateRight (rotateLeft s) = s :=
  block_ext_rotated fun r c => by rw [rotateRight_entry, rotateLeft_entry]

theorem rotateLeft_rotateRight (s : Block) : rotateLeft (rotateRight s) = s :=
  block_ext_rows fun r c => by rw [rotateLeft_entry, rotateRight_entry]

/-- The index table `SR` of R113. -/
theorem rotateLeft_table (s : Block) : rotateLeft s =
    #v[s[0], s[5], s[10], s[15], s[4], s[9], s[14], s[3],
      s[8], s[13], s[2], s[7], s[12], s[1], s[6], s[11]] := by
  rw [← Vector.toList_inj, rotateLeft, Vector.toList_ofFn]
  rfl

/-- The index table `ISR` of R114. -/
theorem rotateRight_table (s : Block) : rotateRight s =
    #v[s[0], s[13], s[10], s[7], s[4], s[1], s[14], s[11],
      s[8], s[5], s[2], s[15], s[12], s[9], s[6], s[3]] := by
  rw [← Vector.toList_inj, rotateRight, Vector.toList_ofFn]
  rfl

/-- A rotation moves bytes, so a function of each byte can come before it or after it. -/
theorem rotateLeft_map (f : Byte → Byte) (s : Block) : rotateLeft (s.map f) = (rotateLeft s).map f :=
  Vector.ext fun k hk => by simp only [rotateLeft, Vector.getElem_ofFn, Vector.getElem_map]

theorem rotateRight_map (f : Byte → Byte) (s : Block) : rotateRight (s.map f) = (rotateRight s).map f :=
  Vector.ext fun k hk => by simp only [rotateRight, Vector.getElem_ofFn, Vector.getElem_map]

/-- With `SHIFT_DIR` left, as on this hardware (D18). -/
theorem shiftRows_of_left {c : Cipher} (h : c.shiftDir = .left) :
    shiftRows c = rotateLeft ∧ invShiftRows c = rotateRight := by
  constructor <;> funext s <;> simp only [shiftRows, invShiftRows, h]

theorem shiftRows_of_right {c : Cipher} (h : c.shiftDir = .right) :
    shiftRows c = rotateRight ∧ invShiftRows c = rotateLeft := by
  constructor <;> funext s <;> simp only [shiftRows, invShiftRows, h]

theorem shiftRows_rotations (c : Cipher) :
    (shiftRows c = rotateLeft ∧ invShiftRows c = rotateRight) ∨
      (shiftRows c = rotateRight ∧ invShiftRows c = rotateLeft) :=
  match h : c.shiftDir with
  | .left => Or.inl (shiftRows_of_left h)
  | .right => Or.inr (shiftRows_of_right h)

theorem invShiftRows_shiftRows (c : Cipher) (s : Block) : invShiftRows c (shiftRows c s) = s := by
  rcases shiftRows_rotations c with ⟨hs, hi⟩ | ⟨hs, hi⟩
  · rw [hs, hi, rotateRight_rotateLeft]
  · rw [hs, hi, rotateLeft_rotateRight]

theorem shiftRows_invShiftRows (c : Cipher) (s : Block) : shiftRows c (invShiftRows c s) = s := by
  rcases shiftRows_rotations c with ⟨hs, hi⟩ | ⟨hs, hi⟩
  · rw [hs, hi, rotateLeft_rotateRight]
  · rw [hs, hi, rotateRight_rotateLeft]

theorem shiftRows_subBytes (c : Cipher) (s : Block) :
    shiftRows c (subBytes c s) = subBytes c (shiftRows c s) := by
  rcases shiftRows_rotations c with ⟨hs, -⟩ | ⟨hs, -⟩
  · rw [hs, subBytes, rotateLeft_map, subBytes]
  · rw [hs, subBytes, rotateRight_map, subBytes]

theorem invShiftRows_invSubBytes (c : Cipher) (s : Block) :
    invShiftRows c (invSubBytes c s) = invSubBytes c (invShiftRows c s) := by
  rcases shiftRows_rotations c with ⟨-, hi⟩ | ⟨-, hi⟩
  · rw [hi, invSubBytes, rotateRight_map, invSubBytes]
  · rw [hi, invSubBytes, rotateLeft_map, invSubBytes]

/-! ### Column mixing (R115, R116) -/

theorem column_getElem (s : Block) (c r : Fin 4) : (column s c)[r] = s[4 * c.val + r.val] :=
  Vector.getElem_ofFn r.isLt

theorem column_eq (s : Block) (c : Fin 4) :
    column s c = #v[s[4 * c.val], s[4 * c.val + 1], s[4 * c.val + 2], s[4 * c.val + 3]] := rfl

theorem mapColumns_getElem (f : Column → Column) (s : Block) (c r : Fin 4) :
    (mapColumns f s)[4 * c.val + r.val] = (f (column s c))[r] := by
  have hc : (4 * c.val + r.val) / 4 = c.val := by omega
  have hr : (4 * c.val + r.val) % 4 = r.val := by omega
  simp only [mapColumns, Vector.getElem_ofFn, hc, hr, Fin.getElem_fin]

theorem column_mapColumns (f : Column → Column) (s : Block) (c : Fin 4) :
    column (mapColumns f s) c = f (column s c) :=
  Vector.ext fun r hr =>
    (column_getElem (mapColumns f s) c ⟨r, hr⟩).trans (mapColumns_getElem f s c ⟨r, hr⟩)

/-- A block is its four columns (R11). -/
theorem block_ext_columns {x y : Block} (h : ∀ c : Fin 4, column x c = column y c) : x = y := by
  refine block_ext_rows fun r c => ?_
  have hentry : (column x c)[r] = (column y c)[r] := by rw [h c]
  simpa only [column_getElem, Nat.add_comm] using hentry

theorem mapColumns_undo {f g : Column → Column} (h : ∀ v, g (f v) = v) (s : Block) :
    mapColumns g (mapColumns f s) = s :=
  block_ext_columns fun c => by rw [column_mapColumns, column_mapColumns, h]

theorem invMixColumns_mixColumns (c : Cipher) (s : Block) : invMixColumns c (mixColumns c s) = s :=
  mapColumns_undo c.invMixcol_mixcol s

theorem mixColumns_invMixColumns (c : Cipher) (s : Block) : mixColumns c (invMixColumns c s) = s :=
  mapColumns_undo (mixcol_invMixcol c) s

/-- `MIXCOL` of zero is zero, by R7 (c): zero is the exclusive-or of any column with itself. -/
theorem mixcol_zero (c : Cipher) : c.mixcol (Vector.replicate 4 0) = Vector.replicate 4 0 := by
  have hlin := c.mixcol_xor (Vector.replicate 4 0) (Vector.replicate 4 0)
  rwa [xorBytes_self, xorBytes_self] at hlin

theorem invMixcol_zero (c : Cipher) : c.invMixcol (Vector.replicate 4 0) = Vector.replicate 4 0 := by
  have hinv := c.invMixcol_mixcol (Vector.replicate 4 0)
  rwa [mixcol_zero] at hinv

theorem column_zero (c : Fin 4) : column (Vector.replicate 16 0) c = Vector.replicate 4 0 :=
  Vector.ext fun r hr => by simp [column]

theorem mapColumns_zero {f : Column → Column} (h : f (Vector.replicate 4 0) = Vector.replicate 4 0) :
    mapColumns f (Vector.replicate 16 0) = Vector.replicate 16 0 :=
  block_ext_columns fun c => by rw [column_mapColumns, column_zero, h]

/-! ### What a block command leaves (R110) -/

/-- `ST` replaced and the command completed: the frame of a block command. -/
theorem blockFrame_complete (s : State) (x : Block) : BlockFrame s (complete { s with st := x }) where
  completes := WritesResults.completes rfl
  rk := rfl
  keyValid := rfl
  bnLen := rfl
  memory _ := rfl

/-- Command `i` completes from `s` as a block command, with `x` in `ST`. -/
def LeavesBlock (i : Instr) (s : State) (x : Block) : Prop :=
  ∃ t, exec i s = .next t ∧ BlockFrame s t ∧ t.st = x

theorem leavesBlock_of_transformSt {i : Instr} {f : Block → Block} (hi : exec i = transformSt f)
    (s : State) : LeavesBlock i s (f s.st) :=
  ⟨_, (congrFun hi s).trans (transformSt_eq f s), blockFrame_complete s _, rfl⟩

theorem leavesBlock_of_transformStKeyed {i : Instr} {f : Block → Block} {s : State}
    (hi : exec i s = transformStKeyed f s) (hk : s.keyValid = true) : LeavesBlock i s (f s.st) := by
  rcases transformStKeyed_cases f s with ⟨-, hf⟩ | ⟨hno, -⟩
  · exact ⟨_, hi.trans hf, blockFrame_complete s _, rfl⟩
  · exact absurd (hk.symm.trans hno) (by decide)

/-- Two commands in sequence: the second, from what the first leaves, puts the old block back in `ST`. -/
theorem LeavesBlock.then_restores {i j : Instr} {s : State} {x : Block} (hi : LeavesBlock i s x)
    (hj : ∀ t, BlockFrame s t → t.st = x → LeavesBlock j t s.st) :
    ∃ t, exec i s = .next t ∧ BlockFrame s t ∧ t.st = x ∧ ∃ u, exec j t = .next u ∧ u.st = s.st := by
  obtain ⟨t, ht, hframe, hst⟩ := hi
  obtain ⟨u, hu, -, hust⟩ := hj t hframe hst
  exact ⟨t, ht, hframe, hst, u, hu, hust⟩

/-- Two keyless commands whose functions undo each other (R119). -/
theorem transformSt_then_restores {i j : Instr} {f g : Block → Block} (hi : exec i = transformSt f)
    (hj : exec j = transformSt g) (h : ∀ x, g (f x) = x) (s : State) :
    ∃ t, exec i s = .next t ∧ BlockFrame s t ∧ t.st = f s.st ∧
      ∃ u, exec j t = .next u ∧ u.st = s.st :=
  (leavesBlock_of_transformSt hi s).then_restores fun t _ hst => by
    have hback := leavesBlock_of_transformSt hj t
    rwa [hst, h] at hback

/-- `ARK` of an index that can be encoded is the keyed command of R117. -/
theorem exec_ark (s : State) (k : Fin 8) :
    exec (.ark k.val) s = transformStKeyed (fun x => addRoundKey x s.rk[k]) s :=
  dif_pos k.isLt

theorem ark_leavesBlock {s : State} (hk : s.keyValid = true) (k : Fin 8) :
    LeavesBlock (.ark k.val) s (addRoundKey s.st s.rk[k]) :=
  leavesBlock_of_transformStKeyed (exec_ark s k) hk

theorem ark_faults {s : State} (hk : s.keyValid = false) (k : Fin 8) : FaultsWith (.ark k.val) s 6 := by
  rcases transformStKeyed_cases (fun x => addRoundKey x s.rk[k]) s with ⟨hyes, -⟩ | ⟨-, hf⟩
  · exact absurd (hyes.symm.trans hk) (by decide)
  · exact (exec_ark s k).trans hf

theorem encode_ark (k : Fin 8) :
    encode (.ark k.val) = 0x00000007 + 0x100 * BitVec.ofNat 32 k.val := by
  revert k
  decide

/-! ### The statements -/

/-- Settles O20: the bytes of the substituted block, and the two substitutions undo each other. -/
theorem substitutionCommands : Obligations.SubstitutionCommands := by
  refine ⟨by decide, by decide, fun s => ⟨?_, ?_⟩⟩
  · obtain ⟨t, ht, hframe, hst, hback⟩ :=
      transformSt_then_restores (i := .subb) (j := .isubb) rfl rfl (invSubBytes_subBytes Config.cipher) s
    exact ⟨t, ht, hframe, fun k => by rw [hst, subBytes_getElem], hback⟩
  · obtain ⟨t, ht, hframe, hst, hback⟩ :=
      transformSt_then_restores (i := .isubb) (j := .subb) rfl rfl (subBytes_invSubBytes Config.cipher) s
    exact ⟨t, ht, hframe, fun k => by rw [hst, invSubBytes_getElem], hback⟩

/-- Settles O21: on this hardware the two functions are the rotations left and right, and with the other
direction they change places. -/
theorem rowRotationCommands : Obligations.RowRotationCommands := by
  obtain ⟨hleft, hright⟩ := shiftRows_of_left (c := Config.cipher) rfl
  refine ⟨by decide, by decide, fun s => ⟨?_, ?_, fun o x r c => ?_⟩⟩
  · obtain ⟨t, ht, hframe, hst, hback⟩ :=
      transformSt_then_restores (i := .shrow) (j := .ishrow) rfl rfl (invShiftRows_shiftRows Config.cipher) s
    rw [hleft] at hst
    exact ⟨t, ht, hframe, fun r c => by simp only [hst, rotateLeft_entry],
      hst.trans (rotateLeft_table s.st), hback⟩
  · obtain ⟨t, ht, hframe, hst, hback⟩ :=
      transformSt_then_restores (i := .ishrow) (j := .shrow) rfl rfl (shiftRows_invShiftRows Config.cipher) s
    rw [hright] at hst
    exact ⟨t, ht, hframe, fun r c => by simp only [hst, rotateRight_entry],
      hst.trans (rotateRight_table s.st), hback⟩
  · obtain ⟨hs, hi⟩ := shiftRows_of_right (c := { o with shiftDir := .right }) rfl
    exact ⟨by simp only [hs, rotateRight_entry], by simp only [hi, rotateLeft_entry]⟩

/-- Settles O22: the entries of the mixed columns, zero by linearity, and the two mixings undo each other. -/
theorem columnMixCommands : Obligations.ColumnMixCommands := by
  refine ⟨by decide, by decide, fun s => ⟨?_, ?_⟩⟩
  · obtain ⟨t, ht, hframe, hst, hback⟩ :=
      transformSt_then_restores (i := .mixc) (j := .imixc) rfl rfl (invMixColumns_mixColumns Config.cipher) s
    refine ⟨t, ht, hframe, fun c r => ?_, fun hzero => ?_, hback⟩
    · simp only [hst, mixColumns, mapColumns_getElem, column_eq]
    · rw [hst, hzero]
      exact mapColumns_zero (mixcol_zero Config.cipher)
  · obtain ⟨t, ht, hframe, hst, hback⟩ :=
      transformSt_then_restores (i := .imixc) (j := .mixc) rfl rfl (mixColumns_invMixColumns Config.cipher) s
    refine ⟨t, ht, hframe, fun c r => ?_, fun hzero => ?_, hback⟩
    · simp only [hst, invMixColumns, mapColumns_getElem, column_eq]
    · rw [hst, hzero]
      exact mapColumns_zero (invMixcol_zero Config.cipher)

/-- Settles O23: the second `ARK k` reads the same round key, since the first keeps `RK` and `KEYVALID`. -/
theorem roundKeyCommand : Obligations.RoundKeyCommand := by
  refine fun s k => ⟨encode_ark k, fun hkey => ?_, fun hno => ark_faults hno k⟩
  have hagain : ∀ t, BlockFrame s t → t.st = addRoundKey s.st s.rk[k] →
      LeavesBlock (.ark k.val) t s.st := by
    intro t hframe hst
    have hback := ark_leavesBlock (hframe.keyValid.trans hkey) k
    rwa [hst, hframe.rk, addRoundKey_addRoundKey] at hback
  obtain ⟨t, ht, hframe, hst, hback⟩ := (ark_leavesBlock hkey k).then_restores hagain
  exact ⟨t, ht, hframe, fun j => by rw [hst, addRoundKey_getElem], hback⟩

/-- Settles O25: the pairs and the two commutations, one lemma each. -/
theorem blockFunctionLaws : Obligations.BlockFunctionLaws := fun c s rk =>
  ⟨⟨invSubBytes_subBytes c s, subBytes_invSubBytes c s⟩,
    ⟨invShiftRows_shiftRows c s, shiftRows_invShiftRows c s⟩,
    ⟨invMixColumns_mixColumns c s, mixColumns_invMixColumns c s⟩,
    addRoundKey_addRoundKey s rk, shiftRows_subBytes c s, invShiftRows_invSubBytes c s⟩

end Sys2Proof.Machine

/-! PROOFS. The block cipher (41_cipher_block.md): encryption and decryption undo each other, what `NOP`,
`LDKEY`, `ENCB` and `DECB` leave, and that the primitive commands of R132 and R134 amount to `ENCB` and `DECB`. -/

namespace Sys2Proof.Machine

open Config (Cipher)

/-! ### Block encryption and decryption as functions (R131, R133, R135) -/

theorem decRound_encRound (c : Cipher) (rk x : Block) : decRound c rk (encRound c rk x) = x := by
  rw [decRound, encRound, addRoundKey_addRoundKey, invMixColumns_mixColumns, invShiftRows_shiftRows,
    invSubBytes_subBytes]

theorem encRound_decRound (c : Cipher) (rk x : Block) : encRound c rk (decRound c rk x) = x := by
  rw [decRound, encRound, subBytes_invSubBytes, shiftRows_invShiftRows, mixColumns_invMixColumns,
    addRoundKey_addRoundKey]

/-- Rounds carried out in order are undone by their inverses in the reverse order. -/
theorem foldl_reverse_foldl {α β : Type} {f g : β → α → α} (h : ∀ r x, g r (f r x) = x) (rs : List β) :
    ∀ x, rs.reverse.foldl (fun y r => g r y) (rs.foldl (fun y r => f r y) x) = x := by
  induction rs with
  | nil => exact fun _ => rfl
  | cons r rs ih =>
    intro x
    rw [List.foldl_cons, List.reverse_cons, List.foldl_append, ih, List.foldl_cons, List.foldl_nil, h]

/-- The three parts of an encryption, initial key, full rounds and last round, are undone in reverse. -/
theorem decryptBlock_encryptBlock (c : Cipher) (rk : RoundKeys) (x : Block) :
    decryptBlock c rk (encryptBlock c rk x) = x := by
  have hrounds := foldl_reverse_foldl (fun r : Fin 8 => decRound_encRound c rk[r]) fullRounds
  simp only [decryptBlock, encryptBlock, addRoundKey_addRoundKey, invShiftRows_shiftRows,
    invSubBytes_subBytes, hrounds]

theorem encryptBlock_decryptBlock (c : Cipher) (rk : RoundKeys) (x : Block) :
    encryptBlock c rk (decryptBlock c rk x) = x := by
  have hrounds := foldl_reverse_foldl (fun r : Fin 8 => encRound_decRound c rk[r]) fullRounds.reverse
  rw [List.reverse_reverse] at hrounds
  simp only [decryptBlock, encryptBlock, addRoundKey_addRoundKey, shiftRows_invShiftRows,
    subBytes_invSubBytes, hrounds]

/-! ### The commands (R130, R132, R134, R136) -/

theorem transformStKeyed_of_key {s : State} (hkey : s.keyValid = true) (f : Block → Block) :
    transformStKeyed f s = .next (complete { s with st := f s.st }) := by
  rcases transformStKeyed_cases f s with ⟨-, hf⟩ | ⟨hno, -⟩
  · exact hf
  · exact absurd (hkey.symm.trans hno) (by decide)

/-- Two commands keyed by `RK` whose functions undo each other: the first keeps `RK` and `KEYVALID`, so the
second runs under the same round keys. -/
theorem transformStKeyed_then_restores {i j : Instr} {f g : RoundKeys → Block → Block}
    (hi : ∀ s, exec i s = transformStKeyed (f s.rk) s) (hj : ∀ s, exec j s = transformStKeyed (g s.rk) s)
    (h : ∀ rk x, g rk (f rk x) = x) {s : State} (hkey : s.keyValid = true) :
    ∃ t, exec i s = .next t ∧ BlockFrame s t ∧ t.st = f s.rk s.st ∧
      ∃ u, exec j t = .next u ∧ u.st = s.st :=
  (leavesBlock_of_transformStKeyed (hi s) hkey).then_restores fun t hframe hst => by
    have hback := leavesBlock_of_transformStKeyed (hj t) (hframe.keyValid.trans hkey)
    rwa [hst, hframe.rk, h] at hback

theorem encb_then_decb {s : State} (hkey : s.keyValid = true) :
    ∃ t, exec .encb s = .next t ∧ BlockFrame s t ∧ t.st = encryptBlock Config.cipher s.rk s.st ∧
      ∃ u, exec .decb t = .next u ∧ u.st = s.st :=
  transformStKeyed_then_restores (fun _ => rfl) (fun _ => rfl)
    (decryptBlock_encryptBlock Config.cipher) hkey

theorem decb_then_encb {s : State} (hkey : s.keyValid = true) :
    ∃ t, exec .decb s = .next t ∧ BlockFrame s t ∧ t.st = decryptBlock Config.cipher s.rk s.st ∧
      ∃ u, exec .encb t = .next u ∧ u.st = s.st :=
  transformStKeyed_then_restores (fun _ => rfl) (fun _ => rfl)
    (encryptBlock_decryptBlock Config.cipher) hkey

/-! ### Sequences of block commands (R132, R134, R137) -/

theorem execAll_append {is : List Instr} {s t : State} (h : execAll is s = .next t) (js : List Instr) :
    execAll (is ++ js) s = execAll js t := by
  induction is generalizing s with
  | nil =>
    cases h
    rfl
  | cons i is ih =>
    rw [execAll] at h
    rw [List.cons_append, execAll]
    split at h
    next u hu => exact ih h
    next => cases h
    next => cases h

/-- With `ST` holding any block, and otherwise from `s` with a block command completed, the commands end as
one block command that applies `f` would. -/
def CarriesBlock (s : State) (is : List Instr) (f : Block → Block) : Prop :=
  ∀ x, execAll is (complete { s with st := x }) = .next (complete { s with st := f x })

theorem carriesBlock_nil (s : State) : CarriesBlock s [] id := fun _ => rfl

theorem CarriesBlock.append {s : State} {is js : List Instr} {f g : Block → Block}
    (hi : CarriesBlock s is f) (hj : CarriesBlock s js g) : CarriesBlock s (is ++ js) (g ∘ f) :=
  fun x => (execAll_append (hi x) js).trans (hj (f x))

/-- A sequence of rounds, each carried out by its own commands. -/
theorem CarriesBlock.rounds {s : State} {commands : Nat → List Instr} {round : Fin 8 → Block → Block}
    (h : ∀ r : Fin 8, CarriesBlock s (commands r.val) (round r)) (rs : List (Fin 8)) :
    CarriesBlock s ((rs.map Fin.val).flatMap commands) fun x => rs.foldl (fun y r => round r y) x := by
  induction rs with
  | nil => exact carriesBlock_nil s
  | cons r rs ih => exact (h r).append ih

/-- The first command starts from `s` itself, the others from what it left. -/
theorem CarriesBlock.execAll_cons {i : Instr} {is : List Instr} {s : State} {x : Block} {f : Block → Block}
    (his : CarriesBlock s is f) (hi : exec i s = .next (complete { s with st := x })) :
    execAll (i :: is) s = .next (complete { s with st := f x }) := by
  rw [execAll, hi]
  exact his x

theorem carriesBlock_of_transformSt {i : Instr} {f : Block → Block} (hi : exec i = transformSt f)
    (s : State) : CarriesBlock s [i] f := fun x => by
  simp only [execAll, hi, transformSt_eq]
  rfl

theorem exec_ark_of_key {s : State} (hkey : s.keyValid = true) (k : Fin 8) :
    exec (.ark k.val) s = .next (complete { s with st := addRoundKey s.st s.rk[k] }) :=
  (exec_ark s k).trans (transformStKeyed_of_key hkey _)

theorem carriesBlock_ark {s : State} (hkey : s.keyValid = true) (k : Fin 8) :
    CarriesBlock s [.ark k.val] fun x => addRoundKey x s.rk[k] := fun x => by
  have hexec := exec_ark_of_key (s := complete { s with st := x }) hkey k
  simp only [execAll, hexec]
  rfl

/-! ### The primitive commands of one round, and of a block (R132, R134) -/

section Primitives

variable (s : State)

theorem carriesBlock_subb : CarriesBlock s [.subb] (subBytes Config.cipher) :=
  carriesBlock_of_transformSt rfl s

theorem carriesBlock_isubb : CarriesBlock s [.isubb] (invSubBytes Config.cipher) :=
  carriesBlock_of_transformSt rfl s

theorem carriesBlock_shrow : CarriesBlock s [.shrow] (shiftRows Config.cipher) :=
  carriesBlock_of_transformSt rfl s

theorem carriesBlock_ishrow : CarriesBlock s [.ishrow] (invShiftRows Config.cipher) :=
  carriesBlock_of_transformSt rfl s

theorem carriesBlock_mixc : CarriesBlock s [.mixc] (mixColumns Config.cipher) :=
  carriesBlock_of_transformSt rfl s

theorem carriesBlock_imixc : CarriesBlock s [.imixc] (invMixColumns Config.cipher) :=
  carriesBlock_of_transformSt rfl s

end Primitives

/-- The four functions in sequence are `encRound` by its definition. -/
theorem carriesBlock_encRound {s : State} (hkey : s.keyValid = true) (r : Fin 8) :
    CarriesBlock s (encRoundCommands r.val) (encRound Config.cipher s.rk[r]) :=
  ((carriesBlock_subb s).append <| (carriesBlock_shrow s).append <| (carriesBlock_mixc s).append <|
    carriesBlock_ark hkey r :)

theorem carriesBlock_decRound {s : State} (hkey : s.keyValid = true) (r : Fin 8) :
    CarriesBlock s (decRoundCommands r.val) (decRound Config.cipher s.rk[r]) :=
  ((carriesBlock_ark hkey r).append <| (carriesBlock_imixc s).append <| (carriesBlock_ishrow s).append <|
    carriesBlock_isubb s :)

/-- Initial key, full rounds and last round: the commands of R132 along the definition of `encryptBlock`. -/
theorem execAll_encCommands {s : State} (hkey : s.keyValid = true) :
    execAll encCommands s =
      .next (complete { s with st := encryptBlock Config.cipher s.rk s.st }) := by
  have hrounds := CarriesBlock.rounds (carriesBlock_encRound hkey) fullRounds
  have hlast := (carriesBlock_subb s).append <| (carriesBlock_shrow s).append <| carriesBlock_ark hkey 7
  exact ((hrounds.append hlast).execAll_cons (exec_ark_of_key hkey 0) :)

/-- The commands of R134 along the definition of `decryptBlock`. -/
theorem execAll_decCommands {s : State} (hkey : s.keyValid = true) :
    execAll decCommands s =
      .next (complete { s with st := decryptBlock Config.cipher s.rk s.st }) := by
  have hfirst := (carriesBlock_ishrow s).append (carriesBlock_isubb s)
  have hrounds := CarriesBlock.rounds (carriesBlock_decRound hkey) fullRounds.reverse
  have hlast := carriesBlock_ark hkey 0
  exact ((hfirst.append (hrounds.append hlast)).execAll_cons (exec_ark_of_key hkey 7) :)

/-! ### The statements -/

/-- Settles O19: `NOP` is a block command that leaves `ST` as it is. -/
theorem nopCompletes : Obligations.NopCompletes :=
  ⟨by decide, fun s => ⟨complete s, rfl, rfl, blockFrame_complete s s.st⟩⟩

/-- Settles O26: the two functions undo each other, and `DECB` runs under the round keys of `ENCB`. -/
theorem blockCipherInverse : Obligations.BlockCipherInverse := by
  refine fun c rk x =>
    ⟨⟨decryptBlock_encryptBlock c rk x, encryptBlock_decryptBlock c rk x⟩, fun s hkey => ?_⟩
  obtain ⟨t, ht, -, -, u, hu, hst⟩ := encb_then_decb hkey
  exact ⟨t, u, ht, hu, hst⟩

/-- Settles O27: by the check of `KEYLEN`; the expansion is to `NR` = 7 rounds. -/
theorem loadKeyCommand : Obligations.LoadKeyCommand := by
  refine ⟨by decide, fun s => ?_⟩
  have hlen : s.keyLen = 0x00000010 ↔ s.keyLen.toNat = 16 := BitVec.toNat_inj.symm
  rcases execLdkey_cases s with ⟨h16, hexec⟩ | ⟨hne, hexec⟩
  · have hwrites : WritesResults s { s with rk := expandKey Config.cipher s.key, keyValid := true } := rfl
    exact ⟨fun _ => ⟨_, hexec, hwrites.completes, fun _ => rfl, rfl, rfl, rfl, fun _ => rfl⟩,
      fun hbad => absurd (hlen.mpr h16) hbad⟩
  · exact ⟨fun hgood => absurd (hlen.mp hgood) hne, fun _ => hexec⟩

/-- Settles O28: the two commands are keyed by `RK`, and their functions undo each other. -/
theorem blockCipherCommands : Obligations.BlockCipherCommands := by
  refine fun s hkey => ⟨?_, ?_⟩
  · obtain ⟨t, ht, hframe, hst, hback⟩ := encb_then_decb hkey
    exact ⟨t, ht, hst, hframe, hback⟩
  · obtain ⟨t, ht, hframe, hst, hback⟩ := decb_then_encb hkey
    exact ⟨t, ht, hst, hframe, hback⟩

/-- Settles O29: the primitive commands and the block command complete with the same block in `ST`. -/
theorem primitivesRefineBlockCipher : Obligations.PrimitivesRefineBlockCipher := by
  refine ⟨rfl, rfl, fun s hkey => ⟨?_, ?_⟩⟩
  · rw [execAll_encCommands hkey, exec, execEncb, transformStKeyed_of_key hkey]
  · rw [execAll_decCommands hkey, exec, execDecb, transformStKeyed_of_key hkey]

end Sys2Proof.Machine

/-! PROOFS. The chaining modes (42_chaining.md): the output of each as one stream of blocks, what the commands
leave, that workers leave the same, and the round trips. -/

namespace Sys2Proof.Machine

open Config (Cipher)

/-! ### The counter block (R143) -/

/-- Settles O30: the block is the fixed 16-byte encoding of the sum. -/
theorem counterBlockValue : Obligations.CounterBlockValue := by
  intro iv i
  have hbytes : (256 : Nat) ^ 16 = 2 ^ 128 := by norm_num
  rw [counterBlock, blockOf_toList (beFixed_length _ _), beNat_beFixed, hbytes, Nat.mod_mod]

/-! ### Byte strings made of blocks (R79) -/

/-- Byte `a` of the blocks `f 0`, `f 1`, … one after another. -/
def streamByte (f : Nat → Block) (a : Nat) : Byte := (f (a / 16))[a % 16]'(Nat.mod_lt _ (by decide))

/-- The first `n` bytes of the blocks `f 0`, `f 1`, … one after another. -/
def stream (f : Nat → Block) (n : Nat) : List Byte := (List.range n).map (streamByte f)

/-- The bytes of block `i` that lie among the first `n` of the stream. -/
def cutBlock (f : Nat → Block) (n i : Nat) : List Byte := (f i).toList.take (n - 16 * i)

@[simp] theorem stream_length (f : Nat → Block) (n : Nat) : (stream f n).length = n := by
  simp [stream]

@[simp] theorem cutBlock_length (f : Nat → Block) (n i : Nat) :
    (cutBlock f n i).length = min (n - 16 * i) 16 := by
  simp [cutBlock]

theorem streamByte_block (f : Nat → Block) (i : Nat) (j : Fin 16) :
    streamByte f (16 * i + j.val) = (f i)[j] := by
  have hi : (16 * i + j.val) / 16 = i := by omega
  have hj : (16 * i + j.val) % 16 = j.val := by omega
  simp only [streamByte, hi, hj, Fin.getElem_fin]

theorem streamByte_xorBytes (f g : Nat → Block) (a : Nat) :
    streamByte (fun i => xorBytes (f i) (g i)) a = streamByte f a ^^^ streamByte g a := by
  simp [streamByte]

theorem cutBlock_getElem (f : Nat → Block) (n i j : Nat) (h : j < (cutBlock f n i).length) :
    (cutBlock f n i)[j] = streamByte f (16 * i + j) := by
  have hj : j < 16 := by
    rw [cutBlock_length] at h
    omega
  rw [streamByte_block f i ⟨j, hj⟩]
  simp [cutBlock]

/-- A block that lies whole among the first `n` bytes is not cut. -/
theorem cutBlock_whole {f : Nat → Block} {n i : Nat} (h : 16 * i + 16 ≤ n) :
    cutBlock f n i = (f i).toList :=
  List.take_of_length_le (by rw [Vector.length_toList]; omega)

/-- The last block of a multiple of 16 bytes is whole, and so are those before it. -/
theorem cutBlock_of_multiple {f : Nat → Block} {n i : Nat} (hn : n % 16 = 0) (hi : i < ceil16 n) :
    cutBlock f n i = (f i).toList :=
  cutBlock_whole (by unfold ceil16 at hi; omega)

theorem stream_append_cutBlock (f : Nat → Block) (n k : Nat) :
    stream f (min n (16 * k)) ++ cutBlock f n k = stream f (min n (16 * (k + 1))) := by
  apply List.ext_getElem
  · simp only [List.length_append, stream_length, cutBlock_length]
    omega
  · intro a h1 h2
    rw [stream_length] at h2
    by_cases ha : a < min n (16 * k)
    · rw [List.getElem_append_left (by rwa [stream_length])]
      simp [stream]
    · rw [List.getElem_append_right (by rw [stream_length]; omega), cutBlock_getElem, stream_length]
      have hpos : 16 * k + (a - min n (16 * k)) = a := by omega
      simp [stream, hpos]

theorem flatMap_cutBlock (f : Nat → Block) (n k : Nat) :
    (List.range k).flatMap (cutBlock f n) = stream f (min n (16 * k)) := by
  induction k with
  | zero => simp [stream]
  | succ k ih => rw [List.range_succ, List.flatMap_append, ih, List.flatMap_singleton,
      stream_append_cutBlock]

/-- Blocks `0 .. ceil16(n)-1` in order, the last one cut, are the stream of `n` bytes. -/
theorem flatMap_eq_stream {f : Nat → Block} {n : Nat} {step : Nat → List Byte}
    (h : ∀ i < ceil16 n, step i = cutBlock f n i) :
    (List.range (ceil16 n)).flatMap step = stream f n := by
  have hall : min n (16 * ceil16 n) = n := by unfold ceil16; omega
  calc (List.range (ceil16 n)).flatMap step
      = (List.range (ceil16 n)).flatMap (cutBlock f n) :=
        List.flatMap_congr fun i hi => h i (List.mem_range.mp hi)
    _ = stream f n := by rw [flatMap_cutBlock, hall]

/-! ### Buffers as streams (R79) -/

theorem ibufBlock_getElem (s : State) (i : Nat) (j : Fin 16) :
    (ibufBlock s i)[j] = s.readByte (ibufBase + (16 * i + j.val)) := by
  simp [ibufBlock, Nat.add_assoc]

theorem streamByte_ibufBlock (s : State) (a : Nat) :
    streamByte (ibufBlock s) a = s.readByte (ibufBase + a) := by
  have hsplit := ibufBlock_getElem s (a / 16) ⟨a % 16, Nat.mod_lt _ (by decide)⟩
  rw [Nat.div_add_mod] at hsplit
  exact hsplit

theorem ibufBlock_eq_of_bytes {s : State} {i : Nat} {x : Block}
    (h : ∀ j : Fin 16, s.readByte (ibufBase + (16 * i + j.val)) = x[j]) : ibufBlock s i = x :=
  Vector.ext fun j hj => (ibufBlock_getElem s i ⟨j, hj⟩).trans (h ⟨j, hj⟩)

/-- What each byte of memory reads as, once a stream is written to `OBUF`. -/
theorem readByte_writeBytes_stream (s : State) (f : Nat → Block) (n a : Nat) :
    (s.writeBytes obufBase (stream f n)).readByte a =
      if obufBase ≤ a ∧ a < obufBase + n then streamByte f (a - obufBase) else s.readByte a := by
  split
  next h =>
    obtain ⟨k, rfl⟩ := Nat.exists_eq_add_of_le h.1
    rw [readByte_writeBytes_inside _ _ _ k (by rw [stream_length]; omega), Nat.add_sub_cancel_left]
    simp [stream]
  next h =>
    exact readByte_writeBytes_outside _ _ _ _ (by rw [stream_length]; omega)

/-- What each byte of memory reads as, once block `i` of a stream is written to its place in `OBUF`. -/
theorem readByte_writeBytes_cutBlock (s : State) (f : Nat → Block) (n i a : Nat) :
    (s.writeBytes (obufBase + 16 * i) (cutBlock f n i)).readByte a =
      if obufBase ≤ a ∧ a < obufBase + n ∧ (a - obufBase) / 16 = i then streamByte f (a - obufBase)
      else s.readByte a := by
  split
  next h =>
    obtain ⟨j, rfl⟩ : ∃ j, a = obufBase + 16 * i + j := Nat.exists_eq_add_of_le (by omega)
    have hpos : obufBase + 16 * i + j - obufBase = 16 * i + j := by omega
    rw [readByte_writeBytes_inside _ _ _ j (by rw [cutBlock_length]; omega), cutBlock_getElem, hpos]
  next h =>
    exact readByte_writeBytes_outside _ _ _ _ (by rw [cutBlock_length]; omega)

/-! ### The output of each mode is a stream (R144 to R146) -/

/-- Block `i` of the keystream of `CTR` (R144). -/
def keystream (c : Cipher) (s : State) (i : Nat) : Block := encryptBlock c s.rk (counterBlock s.iv i)

/-- Output block `i` of `CTR`, before the last one is cut (R144). -/
def ctrBlock (c : Cipher) (s : State) (i : Nat) : Block := xorBytes (ibufBlock s i) (keystream c s i)

/-- Output block `i` of `CBCD` (R146). -/
def cbcdBlock (c : Cipher) (s : State) (i : Nat) : Block :=
  xorBytes (decryptBlock c s.rk (ibufBlock s i)) (cbcdPrev s i)

/-- Block `i` of the chain over the blocks `x`, each combined with the block of the chain before it (R145). -/
def chainBlock (enc : Block → Block) (iv : Block) (x : Nat → Block) : Nat → Block
  | 0 => enc (xorBytes (x 0) iv)
  | i + 1 => enc (xorBytes (x (i + 1)) (chainBlock enc iv x i))

/-- Output block `i` of `CBCE` (R145). -/
def cbceBlock (c : Cipher) (s : State) (i : Nat) : Block :=
  chainBlock (encryptBlock c s.rk) s.iv (ibufBlock s) i

theorem ctrStep_eq (c : Cipher) (s : State) (n i : Nat) :
    ctrStep c s n i = cutBlock (ctrBlock c s) n i := by
  apply List.ext_getElem
  · simp only [ctrStep, List.length_zipWith, readBytes_length, Vector.length_toList, cutBlock_length]
    omega
  · intro j h1 h2
    simp [ctrStep, cutBlock, ctrBlock, keystream, ibufBlock, State.readBytes]

theorem cbcdStep_eq (c : Cipher) (s : State) (i : Nat) : cbcdStep c s i = (cbcdBlock c s i).toList := rfl

/-- The chain from its second block on is a chain that starts from its first block. -/
theorem chainBlock_succ (enc : Block → Block) (iv : Block) (x : Nat → Block) (i : Nat) :
    chainBlock enc iv x (i + 1) = chainBlock enc (enc (xorBytes (x 0) iv)) (fun j => x (j + 1)) i := by
  induction i with
  | zero => rfl
  | succ i ih => rw [chainBlock, ih]; rfl

theorem cbceChain_map_range (enc : Block → Block) (iv : Block) (x : Nat → Block) (k : Nat) :
    cbceChain enc iv ((List.range k).map x) = (List.range k).map (chainBlock enc iv x) := by
  induction k generalizing iv x with
  | zero => rfl
  | succ k ih =>
    have htail : chainBlock enc iv x ∘ Nat.succ =
        chainBlock enc (enc (xorBytes (x 0) iv)) (x ∘ Nat.succ) :=
      funext (chainBlock_succ enc iv x)
    rw [List.range_succ_eq_map, List.map_cons, List.map_map, cbceChain, ih, List.map_cons, List.map_map,
      htail]
    rfl

theorem ctrOutput_eq_stream (c : Cipher) (s : State) (n : Nat) :
    ctrOutput c s n = stream (ctrBlock c s) n :=
  flatMap_eq_stream fun i _ => ctrStep_eq c s n i

theorem cbceOutput_eq_stream (c : Cipher) (s : State) {n : Nat} (hn : n % 16 = 0) :
    cbceOutput c s n = stream (cbceBlock c s) n := by
  rw [cbceOutput, cbceChain_map_range, List.flatMap_map]
  exact flatMap_eq_stream fun i hi => (cutBlock_of_multiple hn hi).symm

theorem cbcdOutput_eq_stream (c : Cipher) (s : State) {n : Nat} (hn : n % 16 = 0) :
    cbcdOutput c s n = stream (cbcdBlock c s) n :=
  flatMap_eq_stream fun i hi => (cbcdStep_eq c s i).trans (cutBlock_of_multiple hn hi).symm

/-- The recurrence of R145. -/
theorem cbceBlock_eq (c : Cipher) (s : State) (i : Nat) :
    cbceBlock c s i = encryptBlock c s.rk
      (xorBytes (ibufBlock s i) (if i = 0 then s.iv else cbceBlock c s (i - 1))) := by
  cases i <;> rfl

theorem streamByte_ctrBlock (c : Cipher) (s : State) (a : Nat) :
    streamByte (ctrBlock c s) a = s.readByte (ibufBase + a) ^^^ streamByte (keystream c s) a :=
  (streamByte_xorBytes _ _ a).trans (by rw [streamByte_ibufBlock])

/-! ### The checks of the commands (R140) -/

/-- What `CBCE` and `CBCD` do with their output: the checks of R140, and the write to `OBUF`. -/
def chainedRule (s : State) (vs : List Byte) : Except ErrorKind State := do
  chainChecks s
  require (s.len.toNat % 16 = 0) .badLength
  .ok (s.writeBytes obufBase vs)

theorem exec_ctr (s : State) : exec .ctr s = conclude s (do
    chainChecks s
    .ok (s.writeBytes obufBase (ctrOutput Config.cipher s s.len.toNat))) := rfl

theorem exec_cbce (s : State) :
    exec .cbce s = conclude s (chainedRule s (cbceOutput Config.cipher s s.len.toNat)) := rfl

theorem exec_cbcd (s : State) :
    exec .cbcd s = conclude s (chainedRule s (cbcdOutput Config.cipher s s.len.toNat)) := rfl

theorem chainChecks_of_legal {s : State} (hkey : s.keyValid = true) (hlen : s.len.toNat ≤ 65536) :
    chainChecks s = .ok () := by
  rcases chainChecks_cases s with ⟨-, -, hok⟩ | ⟨hno, -⟩ | ⟨-, hlong, -⟩
  · exact hok
  · exact absurd (hkey.symm.trans hno) (by decide)
  · omega

theorem chainChecks_of_long {s : State} (hkey : s.keyValid = true) (hlen : 65536 < s.len.toNat) :
    chainChecks s = .error .badLength := by
  rcases chainChecks_cases s with ⟨-, hshort, -⟩ | ⟨hno, -⟩ | ⟨-, -, herr⟩
  · omega
  · exact absurd (hkey.symm.trans hno) (by decide)
  · exact herr

theorem chainedRule_of_legal {s : State} (hkey : s.keyValid = true) (hlen : s.len.toNat ≤ 65536)
    (hmul : s.len.toNat % 16 = 0) (vs : List Byte) :
    chainedRule s vs = .ok (s.writeBytes obufBase vs) := by
  simp [chainedRule, chainChecks_of_legal hkey hlen, hmul]

theorem chainedRule_of_illegal {s : State} (hkey : s.keyValid = true)
    (hlen : 65536 < s.len.toNat ∨ s.len.toNat % 16 ≠ 0) (vs : List Byte) :
    chainedRule s vs = .error .badLength := by
  rcases Nat.lt_or_ge 65536 s.len.toNat with hlong | hshort
  · exact bind_of_error (chainChecks_of_long hkey hlong) _
  · have hmul : s.len.toNat % 16 ≠ 0 := by omega
    simp [chainedRule, chainChecks_of_legal hkey hshort, hmul]

/-- Settles O34: the check of `BUF_BYTES` is common to the three, that of the multiple of 16 to two. -/
theorem chainLengthFaults : Obligations.ChainLengthFaults := by
  refine fun s hkey => ⟨fun hlong => ?_, fun hbad => ⟨?_, ?_⟩⟩
  · rw [FaultsWith, exec_ctr, bind_of_error (chainChecks_of_long hkey hlong)]
    rfl
  · rw [FaultsWith, exec_cbce, chainedRule_of_illegal hkey hbad]
    rfl
  · rw [FaultsWith, exec_cbcd, chainedRule_of_illegal hkey hbad]
    rfl

/-! ### What a chaining command leaves (R144 to R146, R150) -/

/-- Command `i` completes from `s` as a chaining command, with the stream of `f` in `OBUF`. -/
def LeavesStream (i : Instr) (s : State) (f : Nat → Block) : Prop :=
  ∃ t, exec i s = .next t ∧ ChainFrame s t s.len.toNat ∧
    ∀ a, a < s.len.toNat → t.readByte (obufBase + a) = streamByte f a

theorem chainFrame_stream (s : State) (f : Nat → Block) (n : Nat) :
    ChainFrame s (complete (s.writeBytes obufBase (stream f n))) n where
  completes := WritesResults.completes rfl
  st := rfl
  rk := rfl
  keyValid := rfl
  bnLen := rfl
  memory _ ha := readByte_writeBytes_outside s _ _ _ (by rwa [stream_length])

theorem leavesStream_of_exec {i : Instr} {s : State} {f : Nat → Block}
    (h : exec i s = .next (complete (s.writeBytes obufBase (stream f s.len.toNat)))) :
    LeavesStream i s f := by
  refine ⟨_, h, chainFrame_stream s f _, fun a ha => ?_⟩
  refine (readByte_writeBytes_stream s f _ _).trans ?_
  rw [if_pos (by omega), Nat.add_sub_cancel_left]

section Legal

variable {s : State} (hkey : s.keyValid = true) (hlen : s.len.toNat ≤ 65536)

include hkey hlen

theorem ctr_leavesStream : LeavesStream .ctr s (ctrBlock Config.cipher s) :=
  leavesStream_of_exec (by
    rw [exec_ctr, bind_of_ok (chainChecks_of_legal hkey hlen), conclude_ok, ctrOutput_eq_stream])

variable (hmul : s.len.toNat % 16 = 0)

include hmul

theorem cbce_leavesStream : LeavesStream .cbce s (cbceBlock Config.cipher s) :=
  leavesStream_of_exec (by
    rw [exec_cbce, chainedRule_of_legal hkey hlen hmul, conclude_ok, cbceOutput_eq_stream _ _ hmul])

theorem cbcd_leavesStream : LeavesStream .cbcd s (cbcdBlock Config.cipher s) :=
  leavesStream_of_exec (by
    rw [exec_cbcd, chainedRule_of_legal hkey hlen hmul, conclude_ok, cbcdOutput_eq_stream _ _ hmul])

end Legal

/-- Settles O31: byte `16i + j` of the stream is byte `j` of block `i`. -/
theorem counterModeCommand : Obligations.CounterModeCommand := by
  refine ⟨by decide, fun s hkey hlen => ?_⟩
  obtain ⟨t, ht, hframe, hout⟩ := ctr_leavesStream hkey hlen
  refine ⟨t, ht, hframe, fun i j hj => ?_⟩
  rw [hout _ hj, streamByte_ctrBlock, streamByte_block]
  rfl

/-- Settles O32: the chain of `cbceBlock` meets the recurrence. -/
theorem chainedEncryptCommand : Obligations.ChainedEncryptCommand := by
  refine ⟨by decide, fun s hkey hlen hmul => ?_⟩
  obtain ⟨t, ht, hframe, hout⟩ := cbce_leavesStream hkey hlen hmul
  refine ⟨t, ht, hframe, cbceBlock Config.cipher s, fun i _ => cbceBlock_eq _ s i, fun i j hi => ?_⟩
  rw [hout _ (by omega), streamByte_block]

/-- Settles O33: the chaining value is `cbcdPrev`. -/
theorem chainedDecryptCommand : Obligations.ChainedDecryptCommand := by
  refine ⟨by decide, fun s hkey hlen hmul => ?_⟩
  obtain ⟨t, ht, hframe, hout⟩ := cbcd_leavesStream hkey hlen hmul
  refine ⟨t, ht, hframe, fun i j hi => ?_⟩
  rw [hout _ (by omega), streamByte_block]
  exact Vector.getElem_zipWith _

/-! ### The default partition (R141, R142) -/

/-- The first block of worker `v` in the default partition (R142). -/
def defaultStart (nblk w v : Nat) : Nat := v * (nblk / w) + min v (nblk % w)

theorem defaultRange_eq (nblk w v : Nat) :
    defaultRange nblk w v = (defaultStart nblk w v, defaultStart nblk w (v + 1)) := by
  have hend : defaultStart nblk w (v + 1) =
      defaultStart nblk w v + nblk / w + if v < nblk % w then 1 else 0 := by
    simp only [defaultStart, Nat.add_mul]
    split <;> omega
  rw [hend]
  rfl

theorem defaultStart_last (nblk : Nat) {w : Nat} (hw : 1 ≤ w) : defaultStart nblk w w = nblk := by
  rw [defaultStart, Nat.min_eq_right (Nat.mod_lt _ hw).le, Nat.div_add_mod]

theorem defaultStart_lt {nblk w : Nat} (hw : 1 ≤ w) (hle : w ≤ nblk) (v : Nat) :
    defaultStart nblk w v < defaultStart nblk w (v + 1) := by
  have hquot : 1 ≤ nblk / w := (Nat.one_le_div_iff hw).mpr hle
  simp only [defaultStart, Nat.add_mul]
  omega

/-- Ranges between consecutive starts that rise are contiguous. -/
theorem contiguous_starts {start : Nat → Nat} (h : ∀ v, start v < start (v + 1)) (v k : Nat) :
    Contiguous (start v) (start (v + k)) ((List.range' v k).map fun u => (start u, start (u + 1))) := by
  induction k generalizing v with
  | zero => rfl
  | succ k ih =>
    have hnext := ih (v + 1)
    rw [Nat.add_right_comm] at hnext
    exact ⟨rfl, h v, hnext⟩

/-- The default partition is lawful for any number of workers from 1 to the number of blocks. -/
theorem defaultPartition_lawful {nblk w : Nat} (hw : 1 ≤ w) (hle : w ≤ nblk) :
    LawfulPartition nblk w (defaultPartition nblk w) := by
  have hcont := contiguous_starts (defaultStart_lt hw hle) 0 w
  have hfirst : defaultStart nblk w 0 = 0 := by simp [defaultStart]
  rw [hfirst, Nat.zero_add, defaultStart_last nblk hw] at hcont
  refine ⟨by simp [defaultPartition], ?_⟩
  rwa [defaultPartition, funext (defaultRange_eq nblk w), List.range_eq_range']

theorem workerCount_eq (hwPar nblk : Nat) : workerCount hwPar nblk = min hwPar (min 4 nblk) :=
  Nat.min_assoc _ _ _

/-- Settles O35: the worker counts lie between 1 and the number of blocks. -/
theorem defaultPartitionLawful : Obligations.DefaultPartitionLawful := by
  refine fun nblk hwPar =>
    ⟨workerCount_eq hwPar nblk, rfl, fun w v hv => ?_, fun hblk => ⟨fun hpar => ?_, ?_⟩⟩
  · rw [defaultPartition, List.getElem?_map, List.getElem?_range hv]
    rfl
  · have hcount := workerCount_eq hwPar nblk
    exact ⟨by omega, defaultPartition_lawful (by omega) (by omega)⟩
  · exact defaultPartition_lawful (Nat.le_min.mpr ⟨le_rfl, hblk⟩) (Nat.min_le_right _ _)

/-! ### The workers (R142, R147) -/

/-- The steps that an interleaving takes are those that the workers had to do. -/
theorem Interleaving.mem_iff {todo : List (List Nat)} {order : List Nat} (h : Interleaving todo order)
    (i : Nat) : i ∈ order ↔ i ∈ todo.flatten := by
  induction h with
  | joined hdone =>
    rw [List.flatten_eq_nil_iff.mpr hdone]
  | @step todo order v hv k rest hk _ ih =>
    obtain ⟨before, after, htodo, hset⟩ : ∃ before after, todo = before ++ (k :: rest) :: after ∧
        todo.set v rest = before ++ rest :: after := by
      refine ⟨todo.take v, todo.drop (v + 1), ?_, List.set_eq_take_cons_drop _ hv⟩
      rw [← hk, ← List.set_eq_take_cons_drop _ hv, List.set_getElem_self]
    rw [List.mem_cons, ih, hset, htodo]
    simp only [List.flatten_append, List.flatten_cons, List.mem_append, List.mem_cons]
    tauto

theorem mem_rangeBlocks_iff {r : Nat × Nat} (i : Nat) : i ∈ rangeBlocks r ↔ r.1 ≤ i ∧ i < r.2 := by
  rw [rangeBlocks, List.mem_range'_1]
  omega

theorem Contiguous.le {lo hi : Nat} {rs : List (Nat × Nat)} (h : Contiguous lo hi rs) : lo ≤ hi := by
  induction rs generalizing lo with
  | nil => exact Nat.le_of_eq h
  | cons r rs ih =>
    obtain ⟨hfirst, hne, hrest⟩ := h
    have := ih hrest
    omega

/-- Contiguous ranges hold each block between their ends. -/
theorem Contiguous.mem_iff {lo hi : Nat} {rs : List (Nat × Nat)} (h : Contiguous lo hi rs) (i : Nat) :
    i ∈ (rs.map rangeBlocks).flatten ↔ lo ≤ i ∧ i < hi := by
  induction rs generalizing lo with
  | nil =>
    have hends : lo = hi := h
    simp [hends]
  | cons r rs ih =>
    obtain ⟨hfirst, hne, hrest⟩ := h
    have hle := hrest.le
    rw [List.map_cons, List.flatten_cons, List.mem_append, mem_rangeBlocks_iff, ih hrest]
    omega

/-- The workers of a lawful partition take exactly the steps of the blocks there are. -/
theorem mem_order_iff {nblk w : Nat} {rs : List (Nat × Nat)} {order : List Nat}
    (hrs : LawfulPartition nblk w rs) (horder : Interleaving (rs.map rangeBlocks) order) (i : Nat) :
    i ∈ order ↔ i < nblk := by
  rw [horder.mem_iff, hrs.2.mem_iff]
  simp

/-- `t` has what the steps of `CTR` and `CBCD` read as `s` has it: `RK`, `IV`, and every byte below `OBUF`. -/
structure SameInputs (s t : State) : Prop where
  rk : t.rk = s.rk
  iv : t.iv = s.iv
  below : ∀ a, a < obufBase → t.readByte a = s.readByte a

theorem SameInputs.refl (s : State) : SameInputs s s := ⟨rfl, rfl, fun _ _ => rfl⟩

/-- Writes to `OBUF` touch no input: the buffers share no byte (R76). -/
theorem SameInputs.writeBytes {s t : State} (h : SameInputs s t) (i : Nat) (vs : List Byte) :
    SameInputs s (t.writeBytes (obufBase + 16 * i) vs) where
  rk := h.rk
  iv := h.iv
  below a ha := (readByte_writeBytes_outside _ _ _ _ (Or.inl (by omega))).trans (h.below a ha)

theorem SameInputs.ibufBlock_eq {s t : State} (h : SameInputs s t) {i : Nat} (hi : i < 4096) :
    ibufBlock t i = ibufBlock s i :=
  ibufBlock_eq_of_bytes fun j => by
    rw [ibufBlock_getElem, h.below]
    simp only [ibufBase, obufBase]
    omega

theorem SameInputs.ctrBlock_eq {s t : State} (h : SameInputs s t) (c : Cipher) {i : Nat} (hi : i < 4096) :
    ctrBlock c t i = ctrBlock c s i := by
  simp only [ctrBlock, keystream, h.ibufBlock_eq hi, h.rk, h.iv]

theorem SameInputs.cbcdBlock_eq {s t : State} (h : SameInputs s t) (c : Cipher) {i : Nat} (hi : i < 4096) :
    cbcdBlock c t i = cbcdBlock c s i := by
  simp only [cbcdBlock, cbcdPrev, h.ibufBlock_eq hi, h.ibufBlock_eq (i := i - 1) (by omega), h.rk, h.iv]

/-- What each byte of memory reads as after the workers' writes, when each step gives its block of one stream
whatever was written to `OBUF` before it: of the order, only the set of its blocks shows. -/
theorem readByte_writeBlocks {s : State} {step : State → Nat → List Byte} {f : Nat → Block} {n : Nat}
    {order : List Nat} (hstep : ∀ t, SameInputs s t → ∀ i ∈ order, step t i = cutBlock f n i)
    {t : State} (ht : SameInputs s t) (a : Nat) :
    (writeBlocks step order t).readByte a =
      if obufBase ≤ a ∧ a < obufBase + n ∧ (a - obufBase) / 16 ∈ order then streamByte f (a - obufBase)
      else t.readByte a := by
  induction order generalizing t with
  | nil => simp [writeBlocks]
  | cons i order ih =>
    have hrest := ih (fun u hu k hk => hstep u hu k (List.mem_cons_of_mem _ hk))
      (ht.writeBytes i (cutBlock f n i))
    have hfirst : writeBlocks step (i :: order) t =
        writeBlocks step order (t.writeBytes (obufBase + 16 * i) (cutBlock f n i)) := by
      rw [← hstep t ht i List.mem_cons_self]
      rfl
    rw [hfirst, hrest, readByte_writeBytes_cutBlock, ← ite_or]
    exact if_congr (by rw [List.mem_cons]; tauto) rfl rfl

/-- Workers that take each block there is leave every byte as one write of the whole stream does. -/
theorem sameMemory_writeBlocks {s : State} {step : State → Nat → List Byte} {f : Nat → Block} {n : Nat}
    {order : List Nat} (hall : ∀ i, i < ceil16 n → i ∈ order)
    (hstep : ∀ t, SameInputs s t → ∀ i ∈ order, step t i = cutBlock f n i) :
    SameMemory (s.writeBytes obufBase (stream f n)) (writeBlocks step order s) := by
  intro a
  rw [readByte_writeBlocks hstep (SameInputs.refl s), readByte_writeBytes_stream]
  have hmem : a < obufBase + n → obufBase ≤ a → (a - obufBase) / 16 ∈ order := fun h1 h2 =>
    hall _ (ceil16_spec n _ (by omega))
  exact if_congr ⟨fun ⟨hlo, hhi, _⟩ => ⟨hlo, hhi⟩, fun ⟨hlo, hhi⟩ => ⟨hlo, hhi, hmem hhi hlo⟩⟩ rfl rfl

/-- Settles O36: the workers take each block there is, and no step reads what another writes. -/
theorem workersDoNotMatter : Obligations.WorkersDoNotMatter := by
  intro s n w rs order hn hrs horder
  have hblocks := mem_order_iff hrs horder
  have hbuf : ∀ i ∈ order, i < 4096 := fun i hi => by
    have := (hblocks i).mp hi
    unfold ceil16 at this
    omega
  refine ⟨?_, fun hmul => ?_⟩
  · rw [ctrOutput_eq_stream]
    refine sameMemory_writeBlocks (fun i => (hblocks i).mpr) fun t ht i hi => ?_
    rw [ctrStep_eq, cutBlock, cutBlock, ht.ctrBlock_eq _ (hbuf i hi)]
  · rw [cbcdOutput_eq_stream _ _ hmul]
    refine sameMemory_writeBlocks (fun i => (hblocks i).mpr) fun t ht i hi => ?_
    rw [cutBlock_of_multiple hmul ((hblocks i).mp hi), cbcdStep_eq, ht.cbcdBlock_eq _ (hbuf i hi)]

/-! ### The round trips (R149) -/

/-- Settles O37: both runs combine with the same keystream, and a byte combined twice is the byte. -/
theorem counterModeRoundTrip : Obligations.CounterModeRoundTrip := by
  intro s hkey hlen
  obtain ⟨t, ht, -, hout⟩ := ctr_leavesStream hkey hlen
  refine ⟨t, ht, fun s' hkey' hrk hiv hlen' hcopy => ?_⟩
  obtain ⟨u, hu, -, hback⟩ := ctr_leavesStream hkey' (by rwa [hlen'])
  rw [hlen'] at hback
  have hstream : keystream Config.cipher s' = keystream Config.cipher s := by
    unfold keystream
    rw [hrk, hiv]
  refine ⟨u, hu, fun a ha => ?_⟩
  rw [hback a ha, streamByte_ctrBlock, hcopy a ha, hout a ha, streamByte_ctrBlock, hstream,
    BitVec.xor_assoc, BitVec.xor_self, BitVec.xor_zero]

/-- Decryption undoes the chain: block `i` of `CBCD` on the output of `CBCE` is the input block. -/
theorem cbcdBlock_of_cbceBlock {c : Cipher} {s s' : State} {i : Nat} (hrk : s'.rk = s.rk)
    (hiv : s'.iv = s.iv) (hcopy : ∀ k ≤ i, ibufBlock s' k = cbceBlock c s k) :
    cbcdBlock c s' i = ibufBlock s i := by
  have hprev : cbcdPrev s' i = if i = 0 then s.iv else cbceBlock c s (i - 1) := by
    rw [cbcdPrev, hiv, hcopy (i - 1) (Nat.sub_le _ _)]
  rw [cbcdBlock, hprev, hcopy i le_rfl, cbceBlock_eq, hrk, decryptBlock_encryptBlock]
  exact addRoundKey_addRoundKey _ _

/-- Settles O38: the copied blocks are those of the chain, and `CBCD` undoes it block by block. -/
theorem chainedModeRoundTrip : Obligations.ChainedModeRoundTrip := by
  intro s hkey hlen hmul
  obtain ⟨t, ht, -, hout⟩ := cbce_leavesStream hkey hlen hmul
  refine ⟨t, ht, fun s' hkey' hrk hiv hlen' hcopy => ?_⟩
  obtain ⟨u, hu, -, hback⟩ := cbcd_leavesStream hkey' (by rwa [hlen']) (by rwa [hlen'])
  rw [hlen'] at hback
  have hblocks : ∀ k, 16 * k + 16 ≤ s.len.toNat → ibufBlock s' k = cbceBlock Config.cipher s k :=
    fun k hk => ibufBlock_eq_of_bytes fun j => by
      rw [hcopy _ (by omega), hout _ (by omega), streamByte_block]
  refine ⟨u, hu, fun a ha => ?_⟩
  have hblock : cbcdBlock Config.cipher s' (a / 16) = ibufBlock s (a / 16) :=
    cbcdBlock_of_cbceBlock hrk hiv fun k hk => hblocks k (by omega)
  rw [hback a ha, ← streamByte_ibufBlock, streamByte, streamByte, hblock]

end Sys2Proof.Machine

/-! PROOFS. The big integers (43_bigint.md): the length check of the source slots comes first, what a command
leaves that writes one slot, and the four commands by value. -/

namespace Sys2Proof.Machine

/-! ### The length check of the source slots (R160) -/

/-- The computation `x` reads the slots `is` of `s` in this order before it does anything else. -/
inductive ReadsFirst (s : State) : List Slot → Except ErrorKind State → Prop where
  | done (x : Except ErrorKind State) : ReadsFirst s [] x
  | read {i : Slot} {is : List Slot} {f : Nat → Except ErrorKind State}
      (h : ∀ v, ReadsFirst s is (f v)) : ReadsFirst s (i :: is) (readSlot s i >>= f)

/-- One slot that is too long fails the whole computation: the reads before it have no other error. -/
theorem ReadsFirst.eq_badLength {s : State} {is : List Slot} {x : Except ErrorKind State}
    (h : ReadsFirst s is x) {b : Slot} (hb : b ∈ is) (hlong : ¬ SlotReadable s b) :
    x = .error .badLength := by
  induction h with
  | done x => exact absurd hb List.not_mem_nil
  | @read i _ _ _ ih =>
    rcases readSlot_cases s i with ⟨v, hv, hshort, -⟩ | ⟨herr, -⟩
    · have hne : b ≠ i := by
        rintro rfl
        exact hlong hshort
      rw [bind_of_ok hv]
      exact ih v (List.mem_of_ne_of_mem hne hb)
    · exact bind_of_error herr _

/-- A command with source slots is a rule that reads them first, in increasing slot number. -/
theorem exec_readsFirst {i : Instr} (hi : sourceSlots i ≠ []) (s : State) :
    ∃ x, exec i s = conclude s x ∧ ReadsFirst s (sourceSlots i) x := by
  cases i with
  | bnmul => exact ⟨_, rfl, .read fun _ => .read fun _ => .done _⟩
  | bnmod => exact ⟨_, rfl, .read fun _ => .read fun _ => .done _⟩
  | bnmodexp => exact ⟨_, rfl, .read fun _ => .read fun _ => .read fun _ => .done _⟩
  | bnmodinv => exact ⟨_, rfl, .read fun _ => .read fun _ => .done _⟩
  | rsamk => exact ⟨_, rfl, .read fun _ => .read fun _ => .read fun _ => .done _⟩
  | rsaenc => exact ⟨_, rfl, .read fun _ => .read fun _ => .read fun _ => .done _⟩
  | rsadec =>
    exact ⟨_, rfl, .read fun _ => .read fun _ => .read fun _ => .read fun _ => .read fun _ =>
      .read fun _ => .done _⟩
  | _ => exact absurd rfl hi

/-- Settles O18: the command reads its source slots before any other check. -/
theorem slotLengthFault : Obligations.SlotLengthFault := by
  intro i s b hb hlong
  obtain ⟨x, hexec, hreads⟩ := exec_readsFirst (List.ne_nil_of_mem hb) s
  rw [FaultsWith, hexec, hreads.eq_badLength hb hlong]
  rfl

/-! ### What a command that writes one slot leaves (R161, R168) -/

/-- A number that a slot holds fits a slot. -/
theorem slotValue_lt {s : State} {i : Slot} {v : Nat} (h : SlotValue s i v) : v < 256 ^ 512 := by
  obtain ⟨hlen, rfl⟩ := h
  refine (beNat_lt _).trans_le (Nat.pow_le_pow_right (by decide) ?_)
  rwa [List.length_map, List.length_range]

/-- A stored slot is the whole change: the command that completes with it has the frame of that slot. -/
theorem SlotStored.slotFrame {s t : State} {i : Slot} {v : Nat} (h : SlotStored s t i v) :
    SlotFrame s (complete t) [i] where
  completes := WritesResults.completes (by rw [WritesResults, h.eq])
  st := by rw [complete_st, h.eq]
  rk := by rw [complete_rk, h.eq]
  keyValid := by rw [complete_keyValid, h.eq]
  bnLen j hj := h.bnLen j (List.ne_of_not_mem_cons hj)
  memory a ha := h.outside a (ha i List.mem_cons_self)

/-- Command `i` completes from `s` with `v` written to slot `b` and nothing else changed. -/
def LeavesSlot (i : Instr) (s : State) (b : Slot) (v : Nat) : Prop :=
  ∃ t, exec i s = .next t ∧ SlotWritten t b v ∧ SlotValue t b v ∧ SlotFrame s t [b]

theorem leavesSlot_of_exec {i : Instr} {s : State} {b : Slot} {v : Nat}
    (h : exec i s = conclude s (writeSlot s b v)) (hv : v < 256 ^ 512) : LeavesSlot i s b v := by
  obtain ⟨t, ht, hstored⟩ := writeSlot_fits (s := s) (i := b) hv
  have hwritten : SlotWritten (complete t) b v := hstored.written
  exact ⟨complete t, by rw [h, ht, conclude_ok], hwritten, slotValue_of_written hv hwritten,
    hstored.slotFrame⟩

/-- A rule that fails is the fault of its command (R236). -/
theorem faultsWith_of_exec {i : Instr} {s : State} {e : ErrorKind}
    (h : exec i s = conclude s (.error e)) : FaultsWith i s e.code := h

/-! ### The rules with a modulus (R164 to R166) -/

/-- What the three modular commands have in common: the rule `x` under the check of the modulus. -/
def modularRule (m : Nat) (x : Except ErrorKind State) : Except ErrorKind State := do
  require (1 ≤ m) .operandRange
  x

theorem modularRule_of_pos {m : Nat} (h : 1 ≤ m) (x : Except ErrorKind State) : modularRule m x = x := by
  simp [modularRule, h]

theorem modularRule_zero (x : Except ErrorKind State) : modularRule 0 x = .error .operandRange := rfl

/-- A modular command faults with `OperandRange` when its modulus is 0. -/
theorem faultsWith_of_modulus_zero {i : Instr} {s : State} {m : Nat} {x : Except ErrorKind State}
    (h : exec i s = conclude s (modularRule m x)) (hm : m = 0) : FaultsWith i s 8 := by
  subst hm
  exact faultsWith_of_exec (h.trans (by rw [modularRule_zero]))

/-! ### Each command on readable slots -/

section Operands

variable {s : State} {a b m : Nat} (ha : SlotValue s Slot.a a)

include ha

theorem exec_bnmul (hb : SlotValue s Slot.b b) :
    exec .bnmul s = conclude s (writeSlot s Slot.y (a * b)) := by
  rw [exec, execBnmul, bind_of_ok (readSlot_of_value ha), bind_of_ok (readSlot_of_value hb)]

theorem exec_bnmod (hm : SlotValue s Slot.m m) :
    exec .bnmod s = conclude s (modularRule m (writeSlot s Slot.y (a % m))) := by
  rw [exec, execBnmod, bind_of_ok (readSlot_of_value ha), bind_of_ok (readSlot_of_value hm), modularRule]

theorem exec_bnmodexp (hb : SlotValue s Slot.b b) (hm : SlotValue s Slot.m m) :
    exec .bnmodexp s = conclude s (modularRule m (writeSlot s Slot.y (a ^ b % m))) := by
  rw [exec, execBnmodexp, bind_of_ok (readSlot_of_value ha), bind_of_ok (readSlot_of_value hb),
    bind_of_ok (readSlot_of_value hm), modExp_eq, modularRule]

theorem exec_bnmodinv (hm : SlotValue s Slot.m m) :
    exec .bnmodinv s = conclude s (modularRule m (modInv a m >>= writeSlot s Slot.y)) := by
  rw [exec, execBnmodinv, bind_of_ok (readSlot_of_value ha), bind_of_ok (readSlot_of_value hm), modularRule]

end Operands

/-! ### The statements -/

/-- Settles O40: the product fits `Y` and is written, or it does not and the write is the fault. -/
theorem productCommand : Obligations.ProductCommand := by
  refine ⟨by decide, fun s a b ha hb => ⟨fun hfits => ?_, fun hlarge => ?_⟩⟩
  · exact leavesSlot_of_exec (exec_bnmul ha hb) hfits
  · refine faultsWith_of_exec (e := .capacity) ?_
    rw [exec_bnmul ha hb, writeSlot_overflow hlarge]

/-- Settles O41: a remainder is below the modulus, which fits a slot. -/
theorem reductionCommand : Obligations.ReductionCommand := by
  refine ⟨by decide, fun s a m ha hm =>
    ⟨fun hpos => ?_, faultsWith_of_modulus_zero (exec_bnmod ha hm)⟩⟩
  have hexec := exec_bnmod ha hm
  rw [modularRule_of_pos hpos] at hexec
  exact leavesSlot_of_exec hexec ((Nat.mod_lt _ hpos).trans (slotValue_lt hm))

/-- Settles O42: squaring gives the power by value (`modExp_eq`), below a modulus that fits a slot. -/
theorem powerCommand : Obligations.PowerCommand := by
  refine ⟨by decide, fun s a b m ha hb hm =>
    ⟨fun hpos => ?_, faultsWith_of_modulus_zero (exec_bnmodexp ha hb hm)⟩⟩
  have hexec := exec_bnmodexp ha hb hm
  rw [modularRule_of_pos hpos] at hexec
  exact leavesSlot_of_exec hexec ((Nat.mod_lt _ hpos).trans (slotValue_lt hm))

/-- Settles O43: by what Euclid's algorithm answers (`modInv_cases`); two inverses below `m` are equal. -/
theorem inverseCommand : Obligations.InverseCommand := by
  refine ⟨by decide, fun s a m ha hm => ?_⟩
  have hzero := faultsWith_of_modulus_zero (exec_bnmodinv ha hm)
  have hexec (hpos : 1 ≤ m) : exec .bnmodinv s = conclude s (modInv a m >>= writeSlot s Slot.y) := by
    rw [exec_bnmodinv ha hm, modularRule_of_pos hpos]
  refine ⟨fun hpos hgcd => ?_, fun hpos hgcd => ?_, hzero⟩
  · rcases modInv_cases a m hpos with ⟨-, y, hy, hlt, hinv⟩ | ⟨hne, -⟩
    · obtain ⟨t, ht, hleaves⟩ := leavesSlot_of_exec ((hexec hpos).trans (by rw [bind_of_ok hy]))
        (hlt.trans (slotValue_lt hm))
      exact ⟨t, y, ht, hlt, hinv, fun z hz hzinv => inverse_unique hz hlt hzinv hinv, hleaves⟩
    · exact absurd hgcd hne
  · rcases modInv_cases a m hpos with ⟨hone, -⟩ | ⟨-, herr⟩
    · exact absurd hone hgcd
    · exact faultsWith_of_exec ((hexec hpos).trans (by rw [bind_of_error herr]))

end Sys2Proof.Machine

/-! PROOFS. The M-RSA commands (44_mrsa.md): a command that writes several slots, the arithmetic of the Chinese
Remainder Theorem and of Fermat, each command on readable slots, and the statements on `RSAMK`, `RSAENC` and
`RSADEC`. -/

namespace Sys2Proof.Machine

/-! ### A command that writes several slots (R168) -/

/-- The results of a command, written to their slots one after another. -/
def writeSlots : List (Slot × Nat) → State → Except ErrorKind State
  | [], s => .ok s
  | (i, v) :: ws, s => writeSlot s i v >>= writeSlots ws

theorem writeSlots_cons (i : Slot) (v : Nat) (ws : List (Slot × Nat)) :
    writeSlots ((i, v) :: ws) = fun s => writeSlot s i v >>= writeSlots ws := rfl

theorem writeSlots_singleton (i : Slot) (v : Nat) : writeSlots [(i, v)] = fun s => writeSlot s i v :=
  funext fun s => bind_pure (writeSlot s i v)

/-- `t` is `s` but for the contents of the slots `is`. -/
structure ChangesSlots (s t : State) (is : List Slot) : Prop where
  eq : t = { s with bnLen := t.bnLen, mem := t.mem }
  bnLen : ∀ i : Slot, i ∉ is → t.bnLen[i] = s.bnLen[i]
  memory : ∀ a, (∀ i ∈ is, a < bnBase i ∨ bnBase i + Config.bnBytes ≤ a) → t.readByte a = s.readByte a

theorem changesSlots_nil (s : State) : ChangesSlots s s [] := ⟨rfl, fun _ _ => rfl, fun _ _ => rfl⟩

theorem SlotStored.cons_changes {s t u : State} {i : Slot} {v : Nat} {is : List Slot}
    (h : SlotStored s t i v) (h' : ChangesSlots t u is) : ChangesSlots s u (i :: is) where
  eq := by rw [h'.eq, h.eq]
  bnLen j hj :=
    (h'.bnLen j (List.not_mem_of_not_mem_cons hj)).trans (h.bnLen j (List.ne_of_not_mem_cons hj))
  memory a ha := by
    obtain ⟨hi, his⟩ := List.forall_mem_cons.mp ha
    exact (h'.memory a his).trans (h.outside a hi)

/-- Slots share no byte, so a slot outside the changed ones keeps its value in its canonical form. -/
theorem ChangesSlots.keeps_written {s t : State} {is : List Slot} (h : ChangesSlots s t is) {i : Slot}
    (hi : i ∉ is) {v : Nat} (hv : SlotWritten s i v) : SlotWritten t i v := by
  obtain ⟨hlen, hbytes⟩ := hv
  refine ⟨by rw [h.bnLen i hi, hlen], fun j hj => ?_⟩
  rw [h.memory _ fun k hk => ?_, hbytes j hj]
  have hne : i ≠ k := fun e => hi (e ▸ hk)
  have := slots_disjoint hne
  omega

theorem ChangesSlots.slotFrame {s t : State} {is : List Slot} (h : ChangesSlots s t is) :
    SlotFrame s (complete t) is where
  completes := WritesResults.completes (by rw [WritesResults, h.eq])
  st := by rw [complete_st, h.eq]
  rk := by rw [complete_rk, h.eq]
  keyValid := by rw [complete_keyValid, h.eq]
  bnLen := h.bnLen
  memory := h.memory

/-- Values that fit are all written, each to its own slot, and no other slot changes. -/
theorem writeSlots_fits {ws : List (Slot × Nat)} (hnodup : (ws.map Prod.fst).Nodup)
    (hfits : ∀ w ∈ ws, w.2 < 256 ^ 512) (s : State) :
    ∃ t, writeSlots ws s = .ok t ∧ (∀ w ∈ ws, SlotWritten t w.1 w.2) ∧
      ChangesSlots s t (ws.map Prod.fst) := by
  induction ws generalizing s with
  | nil => exact ⟨s, rfl, List.forall_mem_nil _, changesSlots_nil s⟩
  | cons w ws ih =>
    obtain ⟨hnew, hnodup⟩ := List.nodup_cons.mp hnodup
    obtain ⟨hw, hfits⟩ := List.forall_mem_cons.mp hfits
    obtain ⟨t, ht, hstored⟩ := writeSlot_fits (s := s) (i := w.1) hw
    obtain ⟨u, hu, hwritten, hchanges⟩ := ih hnodup hfits t
    refine ⟨u, (bind_of_ok ht _).trans hu, List.forall_mem_cons.mpr ⟨?_, hwritten⟩,
      hstored.cons_changes hchanges⟩
    exact hchanges.keeps_written hnew hstored.written

/-- Command `i` completes from `s` with the results `ws` in their slots and nothing else changed. -/
def LeavesSlots (i : Instr) (s : State) (ws : List (Slot × Nat)) : Prop :=
  ∃ t, exec i s = .next t ∧ (∀ w ∈ ws, SlotWritten t w.1 w.2 ∧ SlotValue t w.1 w.2) ∧
    SlotFrame s t (ws.map Prod.fst)

theorem leavesSlots_of_exec {i : Instr} {s : State} {ws : List (Slot × Nat)}
    (h : exec i s = conclude s (writeSlots ws s)) (hnodup : (ws.map Prod.fst).Nodup)
    (hfits : ∀ w ∈ ws, w.2 < 256 ^ 512) : LeavesSlots i s ws := by
  obtain ⟨t, ht, hwritten, hchanges⟩ := writeSlots_fits hnodup hfits s
  refine ⟨complete t, by rw [h, ht, conclude_ok], fun w hw => ?_, hchanges.slotFrame⟩
  have hstored : SlotWritten (complete t) w.1 w.2 := hwritten w hw
  exact ⟨hstored, slotValue_of_written (hfits w hw) hstored⟩

/-! ### When the inverses of R181 and R184 exist -/

/-- The public exponent is a prime, so it has an inverse modulo every number that it does not divide. -/
theorem gcd_publicExponent_eq_one_iff (m : Nat) : Nat.gcd (65537 % m) m = 1 ↔ ¬ 65537 ∣ m := by
  have hprime : Nat.Prime 65537 := by norm_num
  rw [← Nat.gcd_rec, Nat.gcd_comm]
  exact hprime.coprime_iff_not_dvd

theorem coprime_of_modInv_ok {a m y : Nat} (hm : 1 ≤ m) (h : modInv a m = .ok y) : Nat.Coprime a m := by
  rcases modInv_cases a m hm with ⟨hgcd, -⟩ | ⟨-, herr⟩
  · rwa [← Nat.gcd_rec, Nat.gcd_comm] at hgcd
  · rw [herr] at h
    cases h

/-- `crt3` fails unless its moduli are pairwise coprime (R184). -/
theorem crt3_not_coprime {p q r : Nat} (hp : 1 ≤ p) (hq : 1 ≤ q)
    (h : ¬ (Nat.Coprime p q ∧ Nat.Coprime p r ∧ Nat.Coprime q r)) (m1 m2 m3 n : Nat) :
    crt3 m1 m2 m3 p q r n = .error .nonInvertibleModulus := by
  rcases crt3_cases m1 m2 m3 p q r n with ⟨y, hy⟩ | herr
  · obtain ⟨i1, h1, hrest⟩ := bind_eq_ok hy
    obtain ⟨i2, h2, -⟩ := bind_eq_ok hrest
    obtain ⟨hqp, hrp⟩ := Nat.coprime_mul_iff_left.mp (coprime_of_modInv_ok hp h1)
    obtain ⟨-, hrq⟩ := Nat.coprime_mul_iff_left.mp (coprime_of_modInv_ok hq h2)
    exact absurd ⟨hqp.symm, hrp.symm, hrq.symm⟩ h
  · exact herr

/-! ### Remainders by three moduli (R184) -/

/-- A weight with an inverse leaves the remainder that it weighs, whatever multiple of the modulus is added. -/
theorem weighted_mod {p w i rest : Nat} (m : Nat) (hinv : w * i % p = 1) (hrest : p ∣ rest) :
    (m % p * w * i + rest) % p = m % p := by
  obtain ⟨k, rfl⟩ := hrest
  rw [Nat.add_mul_mod_self_left, mul_assoc, Nat.mul_mod, hinv, mul_one, Nat.mod_mod, Nat.mod_mod]

/-- The recombination of three remainders modulo `p*q*r` has those remainders. -/
theorem recombination_remainders {p q r i1 i2 i3 : Nat} (h1 : q * r * i1 % p = 1)
    (h2 : p * r * i2 % q = 1) (h3 : p * q * i3 % r = 1) (m1 m2 m3 : Nat) :
    let x := (m1 % p * (q * r) * i1 + m2 % q * (p * r) * i2 + m3 % r * (p * q) * i3) % (p * q * r)
    x % p = m1 % p ∧ x % q = m2 % q ∧ x % r = m3 % r := by
  refine ⟨?_, ?_, ?_⟩
  · rw [Nat.mod_mod_of_dvd _ ⟨q * r, by ring⟩, add_assoc]
    exact weighted_mod m1 h1 ⟨m2 % q * r * i2 + m3 % r * q * i3, by ring⟩
  · rw [Nat.mod_mod_of_dvd _ ⟨p * r, by ring⟩, add_right_comm, add_comm]
    exact weighted_mod m2 h2 ⟨m1 % p * r * i1 + m3 % r * p * i3, by ring⟩
  · rw [Nat.mod_mod_of_dvd _ ⟨p * q, by ring⟩, add_comm]
    exact weighted_mod m3 h3 ⟨m1 % p * q * i1 + m2 % q * p * i2, by ring⟩

/-- A number below the product of pairwise coprime moduli is fixed by its remainders. -/
theorem eq_of_remainders {p q r x y : Nat} (hpq : Nat.Coprime p q) (hpr : Nat.Coprime p r)
    (hqr : Nat.Coprime q r) (hx : x < p * q * r) (hy : y < p * q * r) (hp : y % p = x % p)
    (hq : y % q = x % q) (hr : y % r = x % r) : y = x := by
  have hmod : y ≡ x [MOD p * q * r] :=
    (Nat.modEq_and_modEq_iff_modEq_mul (hpr.mul_left hqr)).mp
      ⟨(Nat.modEq_and_modEq_iff_modEq_mul hpq).mp ⟨hp, hq⟩, hr⟩
  exact hmod.eq_of_lt_of_lt hy hx

/-! ### The exponents of a valid key undo each other (R180, R185) -/

/-- Fermat: an exponent of 1 modulo `p - 1` gives the base back, also a base that `p` divides. -/
theorem pow_modEq_self {p k : Nat} (hp : p.Prime) (hodd : Odd p) (hk : k ≡ 1 [MOD p - 1]) (m : Nat) :
    m ^ k ≡ m [MOD p] := by
  have hpos : 1 ≤ k := by
    rcases Nat.eq_zero_or_pos k with rfl | hpos
    · have hone : p - 1 = 1 := Nat.dvd_one.mp (Nat.modEq_zero_iff_dvd.mp hk.symm)
      obtain ⟨j, hj⟩ := hodd
      omega
    · exact hpos
  have hpow := Int.ModEq.pow_eq_pow hp ((Nat.modEq_iff_dvd' hpos).mp hk.symm) hpos one_pos m
  rw [pow_one] at hpow
  exact_mod_cast hpow

/-- The power of `RSAENC`, taken modulo one prime of the key to the reduced exponent of `RSADEC`. -/
theorem reduced_power_of_power {p n phi e d : Nat} (hp : p.Prime) (hodd : Odd p) (hn : p ∣ n)
    (hphi : p - 1 ∣ phi) (hinv : e * d ≡ 1 [MOD phi]) (m : Nat) :
    (m ^ e % n) ^ (d % (p - 1)) ≡ m [MOD p] := by
  have hexp : e * (d % (p - 1)) ≡ 1 [MOD p - 1] :=
    ((Nat.ModEq.refl e).mul (Nat.mod_modEq d _)).trans (hinv.of_dvd hphi)
  calc (m ^ e % n) ^ (d % (p - 1)) ≡ (m ^ e) ^ (d % (p - 1)) [MOD p] :=
        ((Nat.mod_modEq (m ^ e) n).of_dvd hn).pow _
    _ = m ^ (e * (d % (p - 1))) := (pow_mul m e _).symm
    _ ≡ m [MOD p] := pow_modEq_self hp hodd hexp m

/-! ### Each command on readable slots -/

section KeyDerivation

variable {s : State} {p q r : Nat} (hp : SlotValue s Slot.p p) (hq : SlotValue s Slot.q q)
  (hr : SlotValue s Slot.r r)

include hp hq hr

theorem exec_rsamk_of_key {n e d : Nat} (h : deriveKey p q r = .ok (n, e, d)) :
    exec .rsamk s = conclude s (writeSlots [(Slot.n, n), (Slot.e, e), (Slot.d, d)] s) := by
  rw [exec, execRsamk, bind_of_ok (readSlot_of_value hp), bind_of_ok (readSlot_of_value hq),
    bind_of_ok (readSlot_of_value hr), bind_of_ok h, writeSlots_cons, writeSlots_cons,
    writeSlots_singleton]

theorem faultsWith_rsamk_of_error {e : ErrorKind} (h : deriveKey p q r = .error e) :
    FaultsWith .rsamk s e.code := by
  refine faultsWith_of_exec ?_
  rw [exec, execRsamk, bind_of_ok (readSlot_of_value hp), bind_of_ok (readSlot_of_value hq),
    bind_of_ok (readSlot_of_value hr), bind_of_error h]

end KeyDerivation

theorem exec_rsaenc {s : State} {m n e : Nat} (hm : SlotValue s Slot.a m) (hn : SlotValue s Slot.n n)
    (he : SlotValue s Slot.e e) : exec .rsaenc s =
      conclude s (require (m < n) .operandRange >>= fun _ => writeSlot s Slot.y (m ^ e % n)) := by
  rw [exec, execRsaenc, bind_of_ok (readSlot_of_value hm), bind_of_ok (readSlot_of_value hn),
    bind_of_ok (readSlot_of_value he), modExp_eq]

section Decryption

variable {s : State} {c n d p q r : Nat} (hc : SlotValue s Slot.a c) (hn : SlotValue s Slot.n n)
  (hd : SlotValue s Slot.d d) (hp : SlotValue s Slot.p p) (hq : SlotValue s Slot.q q)
  (hr : SlotValue s Slot.r r)

include hc hn hd hp hq hr

theorem exec_rsadec : exec .rsadec s =
    conclude s (require (1 ≤ n && 2 ≤ p && 2 ≤ q && 2 ≤ r) .operandRange >>= fun _ =>
      crt3 (c ^ (d % (p - 1)) % p) (c ^ (d % (q - 1)) % q) (c ^ (d % (r - 1)) % r) p q r n >>=
        writeSlot s Slot.y) := by
  rw [exec, execRsadec, bind_of_ok (readSlot_of_value hc), bind_of_ok (readSlot_of_value hn),
    bind_of_ok (readSlot_of_value hd), bind_of_ok (readSlot_of_value hp),
    bind_of_ok (readSlot_of_value hq), bind_of_ok (readSlot_of_value hr)]
  simp only [crtDecrypt, modExp_eq]

/-- Operands in range: `RSADEC` writes what `crt3` answers. -/
theorem exec_rsadec_of_range (hn1 : 1 ≤ n) (hp2 : 2 ≤ p) (hq2 : 2 ≤ q) (hr2 : 2 ≤ r) : exec .rsadec s =
    conclude s (crt3 (c ^ (d % (p - 1)) % p) (c ^ (d % (q - 1)) % q) (c ^ (d % (r - 1)) % r) p q r n >>=
      writeSlot s Slot.y) := by
  rw [exec_rsadec hc hn hd hp hq hr]
  simp [hn1, hp2, hq2, hr2]

end Decryption

/-! ### The statements -/

/-- Settles O44: `d` is below `(p-1)(q-1)(r-1)`, so it fits a slot with `p*q*r`; `E` has three bytes. -/
theorem keyDerivationCommand : Obligations.KeyDerivationCommand := by
  refine ⟨by decide, fun s p q r hp hq hr hp2 hq2 hr2 hgcd hfits => ?_⟩
  rcases deriveKey_cases p q r with ⟨-, -, -, -, d, hkey, hlt, hinv⟩ | ⟨hrange, -⟩ | ⟨-, -, -, hne, -⟩
  · have hphi : (p - 1) * (q - 1) * (r - 1) ≤ p * q * r :=
      Nat.mul_le_mul (Nat.mul_le_mul (Nat.sub_le p 1) (Nat.sub_le q 1)) (Nat.sub_le r 1)
    have he : 65537 < 256 ^ 512 :=
      lt_trans (show 65537 < 256 ^ 3 by decide) (Nat.pow_lt_pow_right (by decide) (by decide))
    obtain ⟨t, ht, hwritten, hframe⟩ := leavesSlots_of_exec (exec_rsamk_of_key hp hq hr hkey)
      (show [Slot.n, Slot.e, Slot.d].Nodup by decide)
      (by simpa using ⟨hfits, he, hlt.trans_le (hphi.trans hfits.le)⟩)
    obtain ⟨⟨hn, hnv⟩, ⟨he, hev⟩, hd, hdv⟩ := by simpa using hwritten
    exact ⟨t, d, ht, hlt, hinv, hn, he, hd, hnv, hev, hdv, hframe⟩
  · omega
  · exact absurd hgcd hne

/-- Settles O45: by what the arithmetic of `RSAMK` answers (`deriveKey_cases`); `n` is the first number
written, and the larger of `n` and `d`. -/
theorem keyDerivationFaults : Obligations.KeyDerivationFaults := by
  intro s p q r hp hq hr
  rcases deriveKey_cases p q r with ⟨hp2, hq2, hr2, hgcd, d, hkey, -⟩ | ⟨hrange, herr⟩ |
    ⟨hp2, hq2, hr2, hgcd, herr⟩
  · rw [gcd_publicExponent_eq_one_iff] at hgcd
    refine ⟨by omega, fun _ _ _ => ⟨fun hdvd => absurd hdvd hgcd, fun _ hlarge => ?_⟩⟩
    refine faultsWith_of_exec (e := .capacity) ?_
    rw [exec_rsamk_of_key hp hq hr hkey, writeSlots, bind_of_error (writeSlot_overflow hlarge)]
  · exact ⟨fun _ => faultsWith_rsamk_of_error hp hq hr herr, by omega⟩
  · rw [Ne, gcd_publicExponent_eq_one_iff] at hgcd
    exact ⟨by omega, fun _ _ _ =>
      ⟨fun _ => faultsWith_rsamk_of_error hp hq hr herr, fun hndvd => absurd hndvd hgcd⟩⟩

/-- Settles O46: a power is below the modulus, which fits a slot. -/
theorem publicEncryptCommand : Obligations.PublicEncryptCommand := by
  refine ⟨by decide, fun s m n e hm hn he => ⟨fun hlt => ?_, fun hle => ?_⟩⟩
  · refine leavesSlot_of_exec ?_ ((Nat.mod_lt _ (Nat.zero_lt_of_lt hlt)).trans (slotValue_lt hn))
    rw [exec_rsaenc hm hn he, decide_eq_true hlt, require_true, ok_bind]
  · refine faultsWith_of_exec (e := .operandRange) ?_
    rw [exec_rsaenc hm hn he, decide_eq_false hle.not_gt, require_false, error_bind]

/-- Settles O47: the inverses are those of `crt3_eq`, and the result is the recombination of the three
powers, whose remainders fix it below `p*q*r`. -/
theorem privateDecryptCommand : Obligations.PrivateDecryptCommand := by
  refine ⟨by decide, fun s c n d p q r hc hn hd hp hq hr hn1 hp2 hq2 hr2 hpq hpr hqr => ?_⟩
  obtain ⟨i1, i2, i3, l1, l2, l3, h1, h2, h3, hcrt⟩ := crt3_eq hp2 hq2 hr2 hpq hpr hqr
    (c ^ (d % (p - 1)) % p) (c ^ (d % (q - 1)) % q) (c ^ (d % (r - 1)) % r) n
  obtain ⟨t, ht, hwritten, hvalue, hframe⟩ := leavesSlot_of_exec
    ((exec_rsadec_of_range hc hn hd hp hq hr hn1 hp2 hq2 hr2).trans (by rw [bind_of_ok hcrt]))
    ((Nat.mod_lt _ hn1).trans (slotValue_lt hn))
  refine ⟨t, _, i1, i2, i3, ht, hwritten, hvalue, hframe, l1, l2, l3, h1, h2, h3, rfl, ?_⟩
  rintro rfl
  obtain ⟨e1, e2, e3⟩ := recombination_remainders h1 h2 h3
    (c ^ (d % (p - 1))) (c ^ (d % (q - 1))) (c ^ (d % (r - 1)))
  exact ⟨e1, e2, e3, fun y hy => eq_of_remainders hpq hpr hqr (Nat.mod_lt _ hn1) hy⟩

/-- Settles O48: the range check comes first, then `crt3` fails for want of an inverse. -/
theorem privateDecryptFaults : Obligations.PrivateDecryptFaults := by
  refine fun s c n d p q r hc hn hd hp hq hr => ⟨fun hrange => ?_, fun hn1 hp2 hq2 hr2 hshare => ?_⟩
  · have hcheck : (decide (1 ≤ n) && decide (2 ≤ p) && decide (2 ≤ q) && decide (2 ≤ r)) = false := by
      simp only [Bool.and_eq_false_iff, decide_eq_false_iff_not]
      omega
    refine faultsWith_of_exec (e := .operandRange) ?_
    rw [exec_rsadec hc hn hd hp hq hr, hcheck, require_false, error_bind]
  · refine faultsWith_of_exec (e := .nonInvertibleModulus) ?_
    rw [exec_rsadec_of_range hc hn hd hp hq hr hn1 hp2 hq2 hr2,
      bind_of_error (crt3_not_coprime (by omega) (by omega) hshare _ _ _ _)]

/-- Settles O49: modulo each prime the two powers give the message back, and the message is the one number
below `n` with its remainders. -/
theorem rsaRoundTrip : Obligations.RsaRoundTrip := by
  intro k s m hvalid hoddp hoddq hoddr hlt hm hn he
  obtain ⟨hp, hq, hr, ⟨hpq, hpr, hqr⟩, hmod, -, hinv⟩ := hvalid
  obtain ⟨t, ht, -, hy, -⟩ := (publicEncryptCommand.2 s m k.n k.e hm hn he).1 hlt
  refine ⟨t, _, ht, hy, fun s' hc hn' hd hp' hq' hr' => ?_⟩
  obtain ⟨u, x, -, -, -, hu, -, hx, -, -, -, -, -, -, -, -, hunique⟩ :=
    privateDecryptCommand.2 s' _ k.n k.d k.p k.q k.r hc hn' hd hp' hq' hr'
      (Nat.zero_lt_of_lt hlt) hp.two_le hq.two_le hr.two_le ((Nat.coprime_primes hp hq).mpr hpq)
      ((Nat.coprime_primes hp hr).mpr hpr) ((Nat.coprime_primes hq hr).mpr hqr)
  obtain ⟨hxp, hxq, hxr, hunique⟩ := hunique hmod
  have hback {p : Nat} (hprime : p.Prime) (hodd : Odd p) (hdvd : p ∣ k.n)
      (hphi : p - 1 ∣ (k.p - 1) * (k.q - 1) * (k.r - 1)) :
      m % p = (m ^ k.e % k.n) ^ (k.d % (p - 1)) % p :=
    (reduced_power_of_power hprime hodd hdvd hphi hinv m).symm
  have hmx : m = x := hunique m hlt
    ((hback hp hoddp ⟨k.q * k.r, by rw [hmod]; ring⟩ ⟨(k.q - 1) * (k.r - 1), by ring⟩).trans hxp.symm)
    ((hback hq hoddq ⟨k.p * k.r, by rw [hmod]; ring⟩ ⟨(k.p - 1) * (k.r - 1), by ring⟩).trans hxq.symm)
    ((hback hr hoddr ⟨k.p * k.q, by rw [hmod]; ring⟩ ⟨(k.p - 1) * (k.q - 1), by ring⟩).trans hxr.symm)
  exact ⟨u, hu, hmx ▸ hx⟩

end Sys2Proof.Machine

/-! PROOFS. The host's side (45_host_software.md): PKCS7 padding, the hex text and the key-exchange frame give
back what they were made of, and the re-padded key is the decrypted number modulo `256^16`. -/

namespace Sys2Proof.Machine

/-! ### Padding (R201, R202) -/

/-- R201: the count of pad bytes brings the length to a multiple of the block size. -/
theorem dvd_addPadding_length {blockSize : Nat} (hpos : 0 < blockSize) (data : List Byte) :
    blockSize ∣ (addPadding data blockSize).length := by
  have hlt : data.length % blockSize < blockSize := Nat.mod_lt _ hpos
  have hdiv : blockSize * (data.length / blockSize) + data.length % blockSize = data.length :=
    Nat.div_add_mod _ _
  refine ⟨data.length / blockSize + 1, ?_⟩
  rw [addPadding, List.length_append, List.length_replicate, Nat.mul_add_one]
  omega

/-- R202: `k` bytes of value `k`, for `k` from 1 to 16, pass the five checks and are taken off. -/
theorem removePadding_append_replicate {k : Nat} (hpos : 1 ≤ k) (hle : k ≤ 16) (data : List Byte) :
    removePadding (data ++ List.replicate k (BitVec.ofNat 8 k)) = .ok data := by
  have hlast : (data ++ List.replicate k (BitVec.ofNat 8 k)).getLast? = some (BitVec.ofNat 8 k) := by
    rw [List.getLast?_append, List.getLast?_replicate, if_neg (by omega), Option.some_or]
  have hcount : (BitVec.ofNat 8 k).toNat = k := by
    rw [BitVec.toNat_ofNat]
    omega
  have hcut : (data ++ List.replicate k (BitVec.ofNat 8 k)).length - k = data.length := by simp
  simp only [removePadding, hlast, hcount, hcut, List.drop_left, List.take_left]
  refine if_neg ?_
  rintro (hzero | hlong | hshort | hdiffers)
  · omega
  · exact absurd hle hlong.not_ge
  · simp at hshort
  · simp at hdiffers

/-- R202's first property, at every block size that its check admits. -/
theorem removePadding_addPadding {blockSize : Nat} (hpos : 0 < blockSize) (hle : blockSize ≤ 16)
    (data : List Byte) : removePadding (addPadding data blockSize) = .ok data := by
  have hlt : data.length % blockSize < blockSize := Nat.mod_lt _ hpos
  exact removePadding_append_replicate (by omega) (by omega) data

/-! ### Hex (R203, R204) -/

theorem hexValue_hexDigit : ∀ {v : Nat}, v < 16 → hexValue (hexDigit v) = some v := by decide

/-- R204: the two digits of a byte give the byte. -/
theorem hexDecode_digits {cs : List Char} {bs : List Byte} (hcs : hexDecode cs = .ok bs) (b : Byte) :
    hexDecode (hexDigit (b.toNat / 16) :: hexDigit (b.toNat % 16) :: cs) = .ok (b :: bs) := by
  have hb : b.toNat < 256 := b.isLt
  have hhigh : hexValue (hexDigit (b.toNat / 16)) = some (b.toNat / 16) :=
    hexValue_hexDigit (by omega)
  have hlow : hexValue (hexDigit (b.toNat % 16)) = some (b.toNat % 16) :=
    hexValue_hexDigit (by omega)
  simp only [hexDecode, hhigh, hlow, hcs, Nat.div_add_mod, BitVec.ofNat_toNat, BitVec.setWidth_eq]

/-- R204: decoding undoes encoding. -/
theorem hexDecode_hexEncode (data : List Byte) : hexDecode (hexEncode data) = .ok data := by
  induction data with
  | nil => rfl
  | cons b bs ih => exact hexDecode_digits ih b

/-! ### The key-exchange frame (R206, R217) -/

theorem readKeyExchange_keyExchangeFrame {n e : Nat} (hn : (beBytes n).length < 2 ^ 32)
    (he : (beBytes e).length < 2 ^ 32) :
    readKeyExchange (keyExchangeFrame n e) = some (beBytes n, beBytes e) := by
  have hfirst : takeField (keyExchangeFrame n e) =
      some (beBytes n, wireWord (beBytes e).length ++ beBytes e) := by
    simpa [keyExchangeFrame] using takeField_wire (beBytes n) (wireWord (beBytes e).length ++ beBytes e) hn
  have hsecond : takeField (wireWord (beBytes e).length ++ beBytes e) = some (beBytes e, []) := by
    simpa using takeField_wire (beBytes e) [] he
  simp only [readKeyExchange, hfirst, hsecond]

/-! ### The re-padded key (R210) -/

/-- The low-order bytes of a string are its value modulo a power of 256. -/
theorem beNat_drop (bs : List Byte) (k : Nat) :
    beNat (bs.drop k) = beNat bs % 256 ^ (bs.length - k) := by
  have hlt : beNat (bs.drop k) < 256 ^ (bs.length - k) := List.length_drop ▸ beNat_lt (bs.drop k)
  calc beNat (bs.drop k)
    _ = (beNat (bs.take k) * 256 ^ (bs.length - k) + beNat (bs.drop k)) % 256 ^ (bs.length - k) := by
      rw [Nat.mul_add_mod_self_right, Nat.mod_eq_of_lt hlt]
    _ = beNat bs % 256 ^ (bs.length - k) := by
      rw [← List.length_drop, ← beNat_append, List.take_append_drop]

@[simp] theorem repadKey_length (y : List Byte) : (repadKey y).length = 16 := by
  rw [repadKey, List.length_append, List.length_replicate, List.length_drop, Config.keyBytes]
  omega

/-- R210: zero bytes in front keep the value, and the low-order 16 bytes hold it modulo `256^16`. -/
theorem beNat_repadKey (y : List Byte) : beNat (repadKey y) = beNat y % 256 ^ 16 := by
  rw [repadKey, beNat_append, beNat_replicate_zero, Nat.zero_mul, Nat.zero_add]
  rcases Nat.le_total y.length 16 with hshort | hlong
  · have hlt : beNat y < 256 ^ 16 := (beNat_lt y).trans_le (Nat.pow_le_pow_right (by decide) hshort)
    rw [Nat.sub_eq_zero_of_le hshort, List.drop_zero, Nat.mod_eq_of_lt hlt]
  · rw [beNat_drop, Nat.sub_sub_self hlong]

/-! ### The statements -/

/-- Settles O59: the three round trips, the padding at block size 16. -/
theorem hostCodecsRoundTrip : Obligations.HostCodecsRoundTrip :=
  ⟨fun data => ⟨Nat.mod_eq_zero_of_dvd (dvd_addPadding_length (by decide) data),
    removePadding_addPadding (by decide) (by decide) data, hexDecode_hexEncode data⟩,
  fun _ _ => readKeyExchange_keyExchangeFrame⟩

/-- Settles O60: the two strings have 16 bytes each and one value. -/
theorem keyRepadding : Obligations.KeyRepadding := by
  intro y
  refine beNat_injective (by rw [repadKey_length, beFixed_length]) ?_
  rw [beNat_repadKey, beNat_beFixed, Nat.mod_mod]

end Sys2Proof.Machine

/-! PROOFS. Faults and the return from them (60_exceptions.md): the commands that read `RK` check `KEYVALID`
before anything else, and what a write to `STATUS` leaves. -/

namespace Sys2Proof.Machine

/-! ### No key (R231) -/

/-- A keyed block command without a key faults with `NoKey` (R117, R132, R134). -/
theorem faultsWith_of_transformStKeyed {i : Instr} {s : State} {f : Block → Block}
    (h : exec i s = transformStKeyed f s) (hkey : s.keyValid = false) : FaultsWith i s 6 := by
  rcases transformStKeyed_cases f s with ⟨hyes, -⟩ | ⟨-, hfault⟩
  · exact absurd (hyes.symm.trans hkey) (by decide)
  · exact h.trans hfault

theorem chainChecks_of_noKey {s : State} (hkey : s.keyValid = false) :
    chainChecks s = .error .noKey := by
  rcases chainChecks_cases s with ⟨hyes, -, -⟩ | ⟨-, herr⟩ | ⟨hyes, -, -⟩
  · exact absurd (hyes.symm.trans hkey) (by decide)
  · exact herr
  · exact absurd (hyes.symm.trans hkey) (by decide)

/-- A command that begins with the checks of R140 faults with `NoKey` without a key, whatever follows. -/
theorem faultsWith_of_chainChecks {i : Instr} {s : State} {f : Unit → Except ErrorKind State}
    (h : exec i s = conclude s (chainChecks s >>= f)) (hkey : s.keyValid = false) : FaultsWith i s 6 :=
  faultsWith_of_exec (e := .noKey) (h.trans (by rw [bind_of_error (chainChecks_of_noKey hkey)]))

/-- Settles O17: three keyed block commands, and three chaining commands, whose first check is the key. -/
theorem noKeyFault : Obligations.NoKeyFault := by
  intro i s hwf hreads hkey
  cases i with
  | ark k =>
    have hk : k < 8 := by simpa [Instr.wellFormed] using hwf
    exact ark_faults hkey ⟨k, hk⟩
  | encb => exact faultsWith_of_transformStKeyed rfl hkey
  | decb => exact faultsWith_of_transformStKeyed rfl hkey
  | ctr => exact faultsWith_of_chainChecks (exec_ctr s) hkey
  | cbce => exact faultsWith_of_chainChecks (exec_cbce s) hkey
  | cbcd => exact faultsWith_of_chainChecks (exec_cbcd s) hkey
  | _ => exact absurd hreads (by decide)

/-! ### The return from a fault (R240) -/

/-- `clearStatus` by the two bits of the word written. -/
theorem clearStatus_eq (v : Word) (s : State) : clearStatus v s =
    { s with done := if v.getLsbD 1 then false else s.done,
             err := if v.getLsbD 2 then false else s.err,
             errCode := if v.getLsbD 2 then 0 else s.errCode } := by
  have hclear : ∀ b clr : Bool, (b && !clr) = if clr then false else b := by decide
  rw [clearStatus, hclear, hclear]

/-- Settles O50: `STATUS` is neither locked by `BUSY` nor `CMD`, so the write is always admitted. -/
theorem statusWrite : Obligations.StatusWrite := by
  intro s v rest
  have hstep := step_write_csr (a := 0x10) (r := .status) rfl (s := s) nofun nofun v rest
  rw [hstep, csrWrite, clearStatus_eq]

end Sys2Proof.Machine
